-- ==== Sys2Proof/Word.lean ====
section
/-! DEFINITION. The word type, the register-array types and bit sequences (rules R5 to R7). -/

namespace Sys2Proof

/-- R5, R6: a Word is 32 bits, numbered 31 (most significant) down to 0, and unsigned. -/
abbrev Word := BitVec 32

/-- R5: eight Words, the shape of H, V and INNER, and of a digest (R193). -/
abbrev Words8 := Vector Word 8

/-- R5: a Block is 512 bits held as sixteen Words, the shape of WIN, BUF and K0. -/
abbrev Block := Vector Word 16

/-- R7: a message or a key is a finite sequence of bits, first bit first. -/
abbrev Bits := List Bool

/-- Sixteen zero Words. -/
def zeroBlock : Block := Vector.replicate 16 0#32

/-- Eight zero Words. -/
def zeroWords8 : Words8 := Vector.replicate 8 0#32

end Sys2Proof
end

