-- ==== Sys2Proof/Config.lean ====
section
/-! DEFINITION. The parameters of the core (rule R5). Every one has a value in the spec, so there is no free value:
92_eei_decisions.md says that none of its decisions is open. -/

namespace Sys2Proof.Config

/-- R5 BLOCK: bits in a Block; also KEYBLOCK, the bits of the padded key. -/
abbrev blockBits : Nat := 512

/-- R5 NROUND: rounds per block. -/
abbrev rounds : Nat := 64

/-- R5 NSCHED: schedule words per block. -/
abbrev scheduleWords : Nat := 64

/-- R145, R147: from this round on the expander shifts in zero. -/
abbrev expandRounds : Nat := 48

/-- R5 PUSHMAX: the most message bits one PUSH carries. -/
abbrev pushMax : Nat := 32

/-- R5 LENW and R274: the largest value of LEN. -/
abbrev lenMax : Nat := 2 ^ 64 - 1

/-- R190: the stream position of the 64-bit length field in the last block. -/
abbrev lengthFieldAt : Nat := 448

/-- R5 IPAD byte. -/
abbrev ipadByte : Nat := 0x36

/-- R5 OPAD byte. -/
abbrev opadByte : Nat := 0x5c

end Sys2Proof.Config
end

