-- ==== Sys2Proof/Syntax.lean ====
section
/-! DEFINITION. The 20 commands of rule R84, one constructor per row of spec/opcode_table.json. An element index has the
type of its form (R81: 0..7 for X8, 0..15 for X16); `dw` stands only in the three commands that use it (R80). -/

namespace Sys2Proof

inductive Instr where
  /-- 0x00, R240 -/
  | nop
  /-- 0x01, R241 -/
  | clr
  /-- 0x02, R242 -/
  | rdstat
  /-- 0x10, R200 -/
  | hinit
  /-- 0x11, R220 -/
  | minit
  /-- 0x12, R222 -/
  | kend
  /-- 0x13, R201: `n` is the bit count (1..32, WellFormed.lean), the data are the top `n` bits of `dw`. -/
  | push (n : Nat) (dw : Word)
  /-- 0x14, R202 -/
  | final
  /-- 0x15, R203 -/
  | rddig (i : Fin 8)
  /-- 0x20, R243 -/
  | rinit
  /-- 0x21, R244 -/
  | wrh (i : Fin 8) (dw : Word)
  /-- 0x22, R245 -/
  | wrb (i : Fin 16) (dw : Word)
  /-- 0x23, R170 -/
  | comp
  /-- 0x24, R171 -/
  | cload
  /-- 0x25, R172 -/
  | step
  /-- 0x26, R173 -/
  | cfin
  /-- 0x27, R246 -/
  | rdh (i : Fin 8)
  /-- 0x28, R247 -/
  | rdv (i : Fin 8)
  /-- 0x29, R150 -/
  | rdw (i : Fin 16)
  /-- 0x2A, R248 -/
  | rdb (i : Fin 16)
  deriving DecidableEq, Repr

end Sys2Proof
end

