-- ==== Sys2Proof/WellFormed.lean ====
section
/-! DEFINITION. Which terms of Instr are commands with a legal ARG (rule R81). The indices of the forms X8 and X16 are
legal by their types, and form N has no argument, so the one check left is form P's bit count. -/

namespace Sys2Proof

/-- R81 form P: 1 <= n <= 32. -/
def legalPushCount (n : Nat) : Bool := 1 ≤ n && n ≤ Config.pushMax

def Instr.wellFormed : Instr → Bool
  | .push n _ => legalPushCount n
  | .nop | .clr | .rdstat | .hinit | .minit | .kend | .final | .rddig _ | .rinit | .wrh _ _ | .wrb _ _ | .comp | .cload
  | .step | .cfin | .rdh _ | .rdv _ | .rdw _ | .rdb _ => true

end Sys2Proof
end

