-- ==== Sys2Proof/Decode.lean ====
section
/-! DEFINITION. Decoding a (command word, data word) pair (rules R80 to R96), and the encoder. Decoding is total; the two
ways a word can fail are named as the spec names them, and step (Machine/Step.lean) makes them the error the spec gives. -/

namespace Sys2Proof

/-- R85 checks 2 and 3: what is wrong with a command word. -/
inductive DecodeError where
  /-- the OPC is not one of the 20, or RSV is not zero -/
  | illop
  /-- ARG is outside the range of the command's form -/
  | illarg
  deriving DecidableEq, Repr

/-- R80: OPC is cw[31:24]. -/
def opcOf (cw : Word) : BitVec 8 := cw.extractLsb' 24 8

/-- R80: RSV is cw[23:8]. -/
def rsvOf (cw : Word) : BitVec 16 := cw.extractLsb' 8 16

/-- R80: ARG is cw[7:0]. -/
def argOf (cw : Word) : BitVec 8 := cw.extractLsb' 0 8

/-- R81 form N: ARG must be zero. -/
def formN (i : Instr) (arg : BitVec 8) : Except DecodeError Instr :=
  if arg = 0#8 then .ok i else .error .illarg

/-- R81 form X8: ARG is an element index 0..7. -/
def formX8 (make : Fin 8 → Instr) (arg : BitVec 8) : Except DecodeError Instr :=
  if h : arg.toNat < 8 then .ok (make ⟨arg.toNat, h⟩) else .error .illarg

/-- R81 form X16: ARG is an element index 0..15. -/
def formX16 (make : Fin 16 → Instr) (arg : BitVec 8) : Except DecodeError Instr :=
  if h : arg.toNat < 16 then .ok (make ⟨arg.toNat, h⟩) else .error .illarg

/-- R81 form P: ARG is a bit count 1..32. -/
def formP (make : Nat → Instr) (arg : BitVec 8) : Except DecodeError Instr :=
  if legalPushCount arg.toNat then .ok (make arg.toNat) else .error .illarg

/-- R84: the opcode map, applied to the OPC, the ARG and the data word of a command whose RSV is zero. -/
def decodeOpcode (opc arg : BitVec 8) (dw : Word) : Except DecodeError Instr :=
  match opc.toNat with
  | 0x00 => formN .nop arg
  | 0x01 => formN .clr arg
  | 0x02 => formN .rdstat arg
  | 0x10 => formN .hinit arg
  | 0x11 => formN .minit arg
  | 0x12 => formN .kend arg
  | 0x13 => formP (fun n => .push n dw) arg
  | 0x14 => formN .final arg
  | 0x15 => formX8 .rddig arg
  | 0x20 => formN .rinit arg
  | 0x21 => formX8 (fun i => .wrh i dw) arg
  | 0x22 => formX16 (fun i => .wrb i dw) arg
  | 0x23 => formN .comp arg
  | 0x24 => formN .cload arg
  | 0x25 => formN .step arg
  | 0x26 => formN .cfin arg
  | 0x27 => formX8 .rdh arg
  | 0x28 => formX8 .rdv arg
  | 0x29 => formX16 .rdw arg
  | 0x2A => formX16 .rdb arg
  | _ => .error .illop

/-- R85 checks 2 and 3, in their order: a reserved OPC or a non-zero RSV is ILLOP whatever ARG holds, then ARG is
checked against the form. -/
def decode (cw dw : Word) : Except DecodeError Instr :=
  if rsvOf cw = 0#16 then decodeOpcode (opcOf cw) (argOf cw) dw else .error .illop

/-- R84: the opcode of a command. -/
def opcodeOf : Instr → BitVec 8
  | .nop => 0x00#8
  | .clr => 0x01#8
  | .rdstat => 0x02#8
  | .hinit => 0x10#8
  | .minit => 0x11#8
  | .kend => 0x12#8
  | .push _ _ => 0x13#8
  | .final => 0x14#8
  | .rddig _ => 0x15#8
  | .rinit => 0x20#8
  | .wrh _ _ => 0x21#8
  | .wrb _ _ => 0x22#8
  | .comp => 0x23#8
  | .cload => 0x24#8
  | .step => 0x25#8
  | .cfin => 0x26#8
  | .rdh _ => 0x27#8
  | .rdv _ => 0x28#8
  | .rdw _ => 0x29#8
  | .rdb _ => 0x2A#8

/-- R81, R82: the ARG of a command, an unsigned number used as it stands. -/
def argumentOf : Instr → Nat
  | .push n _ => n
  | .rddig i | .wrh i _ | .rdh i | .rdv i => i.val
  | .wrb i _ | .rdw i | .rdb i => i.val
  | .nop | .clr | .rdstat | .hinit | .minit | .kend | .final | .rinit | .comp | .cload | .step | .cfin => 0

/-- R80, R93: the data word; a command that ignores `dw` is assembled with `dw = 0`. -/
def dataOf : Instr → Word
  | .push _ dw | .wrh _ dw | .wrb _ dw => dw
  | .nop | .clr | .rdstat | .hinit | .minit | .kend | .final | .rddig _ | .rinit | .comp | .cload | .step | .cfin | .rdh _
  | .rdv _ | .rdw _ | .rdb _ => 0#32

/-- R80: whether a command uses its data word. -/
def usesData : Instr → Bool
  | .push _ _ | .wrh _ _ | .wrb _ _ => true
  | .nop | .clr | .rdstat | .hinit | .minit | .kend | .final | .rddig _ | .rinit | .comp | .cload | .step | .cfin | .rdh _
  | .rdv _ | .rdw _ | .rdb _ => false

/-- R84: `cw` is OPC * 2^24 + ARG, with RSV zero; `dw` beside it. -/
def encode (i : Instr) : Word × Word :=
  (opcodeOf i ++ 0#16 ++ BitVec.ofNat 8 (argumentOf i), dataOf i)

/-- spec/opcode_table.json: the row's mnemonic. -/
def mnemonicOf : Instr → String
  | .nop => "NOP"
  | .clr => "CLR"
  | .rdstat => "RDSTAT"
  | .hinit => "HINIT"
  | .minit => "MINIT"
  | .kend => "KEND"
  | .push _ _ => "PUSH"
  | .final => "FINAL"
  | .rddig _ => "RDDIG"
  | .rinit => "RINIT"
  | .wrh _ _ => "WRH"
  | .wrb _ _ => "WRB"
  | .comp => "COMP"
  | .cload => "CLOAD"
  | .step => "STEP"
  | .cfin => "CFIN"
  | .rdh _ => "RDH"
  | .rdv _ => "RDV"
  | .rdw _ => "RDW"
  | .rdb _ => "RDB"

/-- R96: one row of the machine-readable opcode table. A command word selects the row when its bits under `mask` are
`pattern`; `countLow` and `countHigh` are the row's constraint on the unmasked low bits (only PUSH's row restricts them). -/
structure OpcodeRow where
  mnemonic : String
  pattern : Word
  mask : Word
  countLow : Nat := 0
  countHigh : Nat := 63
  deriving DecidableEq, Repr

/-- spec/opcode_table.json, row by row in its order. -/
def opcodeTable : List OpcodeRow :=
  [ { mnemonic := "NOP", pattern := 0x00000000#32, mask := 0xFFFFFFFF#32 }
  , { mnemonic := "CLR", pattern := 0x01000000#32, mask := 0xFFFFFFFF#32 }
  , { mnemonic := "RDSTAT", pattern := 0x02000000#32, mask := 0xFFFFFFFF#32 }
  , { mnemonic := "HINIT", pattern := 0x10000000#32, mask := 0xFFFFFFFF#32 }
  , { mnemonic := "MINIT", pattern := 0x11000000#32, mask := 0xFFFFFFFF#32 }
  , { mnemonic := "KEND", pattern := 0x12000000#32, mask := 0xFFFFFFFF#32 }
  , { mnemonic := "PUSH", pattern := 0x13000000#32, mask := 0xFFFFFFC0#32, countLow := 1, countHigh := 32 }
  , { mnemonic := "FINAL", pattern := 0x14000000#32, mask := 0xFFFFFFFF#32 }
  , { mnemonic := "RDDIG", pattern := 0x15000000#32, mask := 0xFFFFFFF8#32 }
  , { mnemonic := "RINIT", pattern := 0x20000000#32, mask := 0xFFFFFFFF#32 } ] ++
  [ { mnemonic := "WRH", pattern := 0x21000000#32, mask := 0xFFFFFFF8#32 }
  , { mnemonic := "WRB", pattern := 0x22000000#32, mask := 0xFFFFFFF0#32 }
  , { mnemonic := "COMP", pattern := 0x23000000#32, mask := 0xFFFFFFFF#32 }
  , { mnemonic := "CLOAD", pattern := 0x24000000#32, mask := 0xFFFFFFFF#32 }
  , { mnemonic := "STEP", pattern := 0x25000000#32, mask := 0xFFFFFFFF#32 }
  , { mnemonic := "CFIN", pattern := 0x26000000#32, mask := 0xFFFFFFFF#32 }
  , { mnemonic := "RDH", pattern := 0x27000000#32, mask := 0xFFFFFFF8#32 }
  , { mnemonic := "RDV", pattern := 0x28000000#32, mask := 0xFFFFFFF8#32 }
  , { mnemonic := "RDW", pattern := 0x29000000#32, mask := 0xFFFFFFF0#32 }
  , { mnemonic := "RDB", pattern := 0x2A000000#32, mask := 0xFFFFFFF0#32 } ]

/-- R96: the row selects the command word, its constraint included. -/
def OpcodeRow.selects (r : OpcodeRow) (cw : Word) : Bool :=
  cw &&& r.mask == r.pattern && r.countLow ≤ (cw &&& ~~~r.mask).toNat && (cw &&& ~~~r.mask).toNat ≤ r.countHigh

/-- The (cw, dw) pair of an instruction whose bits are `w`, numbered as spec/opcode_table.json numbers them: `cw` is the
first word, `dw` the second; bits from `nbits` on are zero. -/
def tableCommand (nbits w : Nat) : Word × Word :=
  (BitVec.ofNat 32 (w % 2 ^ nbits), BitVec.ofNat 32 (w % 2 ^ nbits / 2 ^ 32))

/-- The instruction the decoder reads from a table word; none where it refuses. -/
def decodeTableWord (nbits w : Nat) : Option Instr :=
  (decode (tableCommand nbits w).1 (tableCommand nbits w).2).toOption

end Sys2Proof
end

