-- ==== Sys2Proof/Machine/State.lean ====
section
/-! DEFINITION. The state of the core: every element of rule R20, and the two ends of the command port (rule R61), as
plain data. -/

namespace Sys2Proof.Machine

/-- R22: the sequencer state. The values 6 and 7 of the 3-bit register are never produced by any rule (U12), so the type
has no name for them; Flags.lean gives each name its code. -/
inductive Mode where
  /-- 0: no computation -/
  | idle
  /-- 1: absorbing message bits of a plain SHA-256 -/
  | hash
  /-- 2: absorbing HMAC key bits -/
  | key
  /-- 3: absorbing message bits of the inner hash of an HMAC -/
  | hmsg
  /-- 4: test access to the mixer and the expander -/
  | raw
  /-- 5: H holds a valid digest -/
  | done
  deriving DecidableEq, Repr

/-- R271: the error codes. The values 5 to 15 of the 4-bit register are never produced (U13). -/
inductive ErrorCode where
  /-- 0: ERR = 0 -/
  | noError
  /-- 1: reserved OPC or RSV not zero -/
  | illop
  /-- 2: ARG outside the form's range -/
  | illarg
  /-- 3: the command is not legal in the current MODE, CACT, T -/
  | seq
  /-- 4: a PUSH that would take LEN past 2^64 - 1 -/
  | lenovf
  deriving DecidableEq, Repr

/-- R20: the complete architectural state of the core. -/
structure Arch where
  /-- H[0..7], the chaining state; after the last block, the digest (R21) -/
  h : Words8
  /-- V[0..7] = a..h, the working state during the 64 rounds (R24) -/
  v : Words8
  /-- T, 7 bits: rounds already done in the current compression (R23) -/
  t : BitVec 7
  /-- WIN[0..15], the expander's sliding window (R25) -/
  win : Block
  /-- BUF[0..15], the block being assembled or compressed (R26) -/
  buf : Block
  /-- FILL, 9 bits: stream bits already placed in BUF (R27) -/
  fill : BitVec 9
  /-- LEN, 64 bits: bits absorbed by the current hash computation (R28) -/
  len : BitVec 64
  /-- K0[0..15], the zero-padded HMAC key (R29) -/
  k0 : Block
  /-- INNER[0..7], the digest of the inner hash of an HMAC (R30) -/
  inner : Words8
  /-- MODE (R22) -/
  mode : Mode
  /-- HM: the computation is an HMAC (R31) -/
  hm : Bool
  /-- KLONG: the HMAC key is longer than 512 bits (R32) -/
  klong : Bool
  /-- CACT: a single-stepped compression is in progress (R33) -/
  cact : Bool
  /-- ERR: the sticky error lock (R34) -/
  err : Bool
  /-- ECODE: the cause of the first error since the last clear (R34) -/
  ecode : ErrorCode
  deriving DecidableEq, Repr

/-- R40: the reset value of every element. -/
def Arch.reset : Arch where
  h := zeroWords8
  v := zeroWords8
  t := 0#7
  win := zeroBlock
  buf := zeroBlock
  fill := 0#9
  len := 0#64
  k0 := zeroBlock
  inner := zeroWords8
  mode := .idle
  hm := false
  klong := false
  cact := false
  err := false
  ecode := .noError

/-- R61, R83: what the core returns for one command: 32 bits `rw` and the error indication `er`. -/
structure Response where
  rw : Word
  er : Bool
  deriving DecidableEq, Repr

/-- R10: what can arrive from outside the core: a command the host presents, or the reset input. R73: the reset input may
be asserted while a command is executing; `interrupted` is that command, if any. -/
inductive PortEvent where
  | command (cw dw : Word)
  | reset (interrupted : Option (Word × Word))
  deriving DecidableEq, Repr

/-- The core, and the outside world as the model shows it: `inbox` is what the host and the reset input will present,
earliest first, and `response` is what the core returned for the last transaction (none if it returned nothing). These two
are the MODEL's own fields (log entry 1): the core itself keeps neither (R43), and no meaning reads them. -/
structure State where
  arch : Arch
  inbox : List PortEvent
  response : Option Response
  deriving DecidableEq, Repr

/-- Why the machine stops. The spec gives the core no way to stop: a wrong command is rejected and the core goes on (R270),
every command terminates (R72), and no encoding has undefined behaviour (R90). So there is no constructor. -/
inductive Fault where
  deriving DecidableEq, Repr

/-- Why the model has no meaning for an instruction. -/
inductive Refusal where
  /-- An instruction the model does not cover; safe. No arm of exec answers it: every command has its meaning. -/
  | notModelled (mnemonic : String)
  deriving DecidableEq, Repr

/-- R40, R301: the core right after reset, with nothing presented to it and no response given (R73). -/
def State.reset : State where
  arch := Arch.reset
  inbox := []
  response := none

end Sys2Proof.Machine
end

