-- ==== Sys2Proof/Machine/Flags.lean ====
section
/-! DEFINITION. The codes of MODE and ECODE and the STATUS word (rules R22, R35, R271). -/

namespace Sys2Proof.Machine

/-- R22: the value of the 3-bit MODE register. -/
def Mode.code : Mode → BitVec 3
  | .idle => 0#3
  | .hash => 1#3
  | .key => 2#3
  | .hmsg => 3#3
  | .raw => 4#3
  | .done => 5#3

/-- R271: the value of the 4-bit ECODE register. -/
def ErrorCode.code : ErrorCode → BitVec 4
  | .noError => 0#4
  | .illop => 1#4
  | .illarg => 2#4
  | .seq => 3#4
  | .lenovf => 4#4

/-- R35: STATUS, its fields from bit 31 down; bits 15:12 and 6 are reserved and read 0. -/
def status (a : Arch) : Word :=
  a.fill ++ a.t ++ 0#4 ++ a.ecode.code ++ BitVec.ofBool a.err ++ 0#1 ++ BitVec.ofBool a.cact ++ BitVec.ofBool a.klong ++
    BitVec.ofBool a.hm ++ a.mode.code

/-- R201: the modes in which PUSH is legal. -/
def Mode.streaming : Mode → Bool
  | .hash | .key | .hmsg => true
  | .idle | .raw | .done => false

end Sys2Proof.Machine
end

