-- ==== Sys2Proof/Machine/Operands.lean ====
section
/-! DEFINITION. Operands and the bit order of every stream (rules R6, R7, R26, R62, R82). -/

namespace Sys2Proof.Machine

/-- R82: the n data bits of form P, dw[31], dw[30], ..., dw[32-n], in stream order. -/
def pushBits (n : Nat) (dw : Word) : Bits := (List.range n).map fun i => dw.getLsbD (31 - i)

/-- R7 be_N(x): the N-bit sequence of the number x, most significant bit first. -/
def beBits (width x : Nat) : Bits := (List.range width).map fun i => x.testBit (width - 1 - i)

/-- R7: the sequence of one Word, most significant bit first. -/
def wordBits (w : Word) : Bits := beBits 32 w.toNat

/-- R7: the concatenation of be_32 of each Word. -/
def wordsBits (ws : List Word) : Bits := ws.flatMap wordBits

/-- R7 bytes(b0 b1 ...): the concatenation of be_8 of each byte. -/
def bytesBits (bs : List Nat) : Bits := bs.flatMap (beBits 8)

/-- R7: the number whose binary digits, most significant first, are the sequence. -/
def bitsValue (s : Bits) : Nat := s.foldl (fun acc b => 2 * acc + b.toNat) 0

/-- R7 word(s, j): the Word whose bit 31 - i is s(32 j + i). -/
def wordAt (s : Bits) (j : Nat) : Word := BitVec.ofNat 32 (bitsValue ((s.drop (32 * j)).take 32))

/-- R26: the bit at stream position p of a block: bit 31 - (p mod 32) of word p div 32. -/
def bitAt (b : Block) (p : Fin 512) : Bool := (b[p.val / 32]'(by omega)).getLsbD (31 - p.val % 32)

/-- R195 step 1, R221: OR the bit b into stream position p of a block. -/
def orBitAt (blk : Block) (p : Fin 512) (b : Bool) : Block :=
  blk.set (p.val / 32) (blk[p.val / 32]'(by omega) ||| (if b then 1#32 <<< (31 - p.val % 32) else 0#32)) (by omega)

/-- Word-wise XOR of a block with sixteen copies of one word (R132, R133). -/
def maskBlock (blk : Block) (w : Word) : Block := Vector.ofFn fun j => blk[j] ^^^ w

/-- R62(c): digest byte number 4 i + k is H[i][31-8k : 24-8k]. -/
def digestBytes (d : Words8) : List (BitVec 8) :=
  d.toList.flatMap fun w => [w.extractLsb' 24 8, w.extractLsb' 16 8, w.extractLsb' 8 8, w.extractLsb' 0 8]

/-- One lowercase hexadecimal digit. -/
def hexDigit (d : BitVec 4) : Char := if d.toNat < 10 then Char.ofNat (48 + d.toNat) else Char.ofNat (87 + d.toNat)

/-- R62(c): the 64-character rendering of a digest, the lowercase 8-digit hexadecimal of H[0], then H[1], ..., H[7]. -/
def digestHex (d : Words8) : List Char :=
  (digestBytes d).flatMap fun b => [hexDigit (b.extractLsb' 4 4), hexDigit (b.extractLsb' 0 4)]

end Sys2Proof.Machine
end

