-- ==== Sys2Proof/Machine/WordArith.lean ====
section
/-! DEFINITION. The combinational operators (40_word_arithmetic.md). `and`, `or`, `xor`, `not` of rules R113 and R114 are
the bit-vector operations `&&&`, `|||`, `^^^`, `~~~`. -/

namespace Sys2Proof.Machine

/-- R110: the sum of any number of Words as natural numbers, modulo 2^32. -/
def add32 (xs : List Word) : Word := BitVec.ofNat 32 (xs.map BitVec.toNat).sum

/-- R111: right rotation, for 0 < n < 32, by the rule's own formula. Other amounts never occur (U6, log entry 4). -/
def rotr (x : Word) (n : Nat) : Word := (x >>> n) ||| (x <<< (32 - n))

/-- R112: logical right shift. -/
def shr (x : Word) (n : Nat) : Word := x >>> n

/-- R140: σ0. -/
def sigma0 (x : Word) : Word := rotr x 7 ^^^ rotr x 18 ^^^ shr x 3

/-- R141: σ1. -/
def sigma1 (x : Word) : Word := rotr x 17 ^^^ rotr x 19 ^^^ shr x 10

/-- R160: Σ0. -/
def bigSigma0 (x : Word) : Word := rotr x 2 ^^^ rotr x 13 ^^^ rotr x 22

/-- R161: Σ1. -/
def bigSigma1 (x : Word) : Word := rotr x 6 ^^^ rotr x 11 ^^^ rotr x 25

/-- R162: Ch. -/
def ch (x y z : Word) : Word := (x &&& y) ^^^ (~~~x &&& z)

/-- R163: Maj. -/
def maj (x y z : Word) : Word := (x &&& y) ^^^ (x &&& z) ^^^ (y &&& z)

end Sys2Proof.Machine
end

