-- ==== Sys2Proof/Machine/Functions.lean ====
section
/-! DEFINITION. The function level (rule R9): the pure functions on words and bit sequences that the spec's source makes
normative. The machine level does not call them but for `mixRound`, which is the round itself; that the registers hold
their values afterwards is stated in Certificates/Slice0/Obligations.lean. -/

namespace Sys2Proof.Machine

/-- R142: W[i] from the schedule words before it, for i = their number, i >= 16. -/
def nextScheduleWord (ws : List Word) : Word :=
  add32 [sigma1 (ws.getD (ws.length - 2) 0#32), ws.getD (ws.length - 7) 0#32, sigma0 (ws.getD (ws.length - 15) 0#32),
    ws.getD (ws.length - 16) 0#32]

/-- R142: a schedule of at least 16 words, extended by n words. -/
def extendSchedule : Nat → List Word → List Word
  | 0, ws => ws
  | n + 1, ws => extendSchedule n (ws ++ [nextScheduleWord ws])

/-- R143 Sched(B): the 64 schedule words of a block. -/
def sched (b : Block) : List Word := extendSchedule 48 b.toList

/-- W[t] of Sched(B), for t in 0..63. -/
def scheduleWord (b : Block) (t : Nat) : Word := (sched b).getD t 0#32

/-- R164 Round(V, k, w). -/
def mixRound (s : Words8) (k w : Word) : Words8 :=
  let a := s[0]; let b := s[1]; let c := s[2]; let d := s[3]
  let e := s[4]; let f := s[5]; let g := s[6]; let h := s[7]
  let t1 := add32 [h, bigSigma1 e, ch e f g, k, w]
  let t2 := add32 [bigSigma0 a, maj a b c]
  #v[add32 [t1, t2], a, b, c, add32 [d, t1], e, f, g]

/-- R169: V_t, the working state after t rounds of the block b from the chaining state s. -/
def workingState (s : Words8) (b : Block) : Nat → Words8
  | 0 => s
  | t + 1 => mixRound (workingState s b t) (roundConstant t) (scheduleWord b t)

/-- R169 Compress(S, B). -/
def compressBlock (s : Words8) (b : Block) : Words8 :=
  Vector.ofFn fun i => add32 [s[i], (workingState s b Config.rounds)[i]]

/-- R190: the number of zero bits of the padding of a message of `len` bits, (447 - len) mod 512. -/
def padZeros (len : Nat) : Nat := ((447 - (len : Int)) % 512).toNat

/-- R190 Pad(M). -/
def pad (m : Bits) : Bits := m ++ [true] ++ List.replicate (padZeros m.length) false ++ beBits 64 m.length

/-- R192: block n of a bit sequence whose length is a multiple of 512. -/
def blockAt (s : Bits) (n : Nat) : Block := Vector.ofFn fun j => wordAt s (16 * n + j.val)

/-- R192: the blocks B_0, ..., B_(N-1) of a bit sequence whose length is 512 N. -/
def blocksOf (s : Bits) : List Block := (List.range (s.length / Config.blockBits)).map (blockAt s)

/-- R192 Hash(M). -/
def sha256 (m : Bits) : Words8 := (blocksOf (pad m)).foldl compressBlock iv

/-- R193: the digest as a 256-bit sequence. -/
def digestBits (d : Words8) : Bits := wordsBits d.toList

/-- R223: the key, reduced to its hash if it is longer than 512 bits. -/
def reduceKey (key : Bits) : Bits := if key.length > Config.blockBits then digestBits (sha256 key) else key

/-- R223 KeyBlock(key): the reduced key, right-padded with zero bits to 512. -/
def keyBlock (key : Bits) : Bits :=
  reduceKey key ++ List.replicate (Config.blockBits - (reduceKey key).length) false

/-- R225: exclusive-OR of two bit sequences, bit by bit. -/
def xorBits (a b : Bits) : Bits := List.zipWith xor a b

/-- R225 Hmac(message, key). -/
def hmacSha256 (message key : Bits) : Words8 :=
  let inner := digestBits (sha256 (xorBits (keyBlock key) (bytesBits (List.replicate 64 Config.ipadByte)) ++ message))
  sha256 (xorBits (keyBlock key) (bytesBits (List.replicate 64 Config.opadByte)) ++ inner)

end Sys2Proof.Machine
end

