-- ==== Sys2Proof/Machine/Ops.lean ====
section
/-! DEFINITION. The shared operations: taking an error and returning from it, responding, the checks every command goes
through, reset, and the micro-operations and sub-sequences of the mixer, the expander, the hash engine and the HMAC
controller (rules R41, R144 to R148, R165 to R168, R194 to R197, R221, R224, R270 to R275). -/

namespace Sys2Proof.Machine

/-! ### Errors, responses, reset -/

/-- R270, the core's "trap entry": if ERR = 0 then ERR <- 1 and ECODE <- code; nothing else changes. -/
def Arch.recordError (a : Arch) (code : ErrorCode) : Arch :=
  if a.err then a else { a with err := true, ecode := code }

/-- R270 raise Error(code): the command is rejected, with the response (rw = 0, er = 1). -/
def State.raiseError (s : State) (code : ErrorCode) : State :=
  { s with arch := s.arch.recordError code, response := some { rw := 0#32, er := true } }

/-- R273, R85 check 1: a rejection by the error lock changes neither ERR nor ECODE. -/
def State.rejectLocked (s : State) : State := { s with response := some { rw := 0#32, er := true } }

/-- R8 respond(v): the command completes with the response (rw = v, er = 0). -/
def State.respond (s : State) (v : Word) : State := { s with response := some { rw := v, er := false } }

/-- R83: a command that returns no data completes with (rw = 0, er = 0), leaving the registers `a`. -/
def State.complete (s : State) (a : Arch) : State := { s with arch := a, response := some { rw := 0#32, er := false } }

/-- R41 ClearAll(): every element to its reset value, ERR and ECODE included, in the INIT commands too (R39 marks these as
read only there: log entry 15). This is also the return from the error state (R275). -/
def Arch.clearAll (_ : Arch) : Arch := Arch.reset

/-- R300, R73: the reset input. Every element takes its reset value and no response is returned. -/
def State.resetCore (s : State) : State := { s with arch := s.arch.clearAll, response := none }

/-- R85: the error lock, then the command's checks in their order, then its effect. The first check that fails decides
the error (R272). -/
def gate (checks : List (ErrorCode × Bool)) (effect : State → State) (s : State) : Host.Outcome State Fault Refusal :=
  if s.arch.err then .next s.rejectLocked
  else match checks.find? fun c => !c.2 with
    | some c => .next (s.raiseError c.1)
    | none => .next (effect s)

/-- R85 checks 1 to 3 for a command word that is no well-formed command. -/
def rejectUndecodable (e : DecodeError) (s : State) : State :=
  match e with
  | .illop => s.raiseError .illop
  | .illarg => s.raiseError .illarg

/-! ### The expander (42_message_scheduler.md) -/

/-- R145: the word shifted in by the window step at T = t. -/
def windowInput (win : Block) (t : Nat) : Word :=
  if t < Config.expandRounds then add32 [sigma1 win[14], win[9], sigma0 win[1], win[0]] else 0#32

/-- R145 XSTEP: WIN[j] <- WIN[j+1] for j = 0..14, WIN[15] <- the new word. -/
def windowStep (win : Block) (t : Nat) : Block :=
  Vector.ofFn fun j => if h : j.val + 1 < 16 then win[j.val + 1] else windowInput win t

/-! ### The mixer (43_compression_round.md) -/

/-- R165 CLOADop, XLOAD (R144) with it. -/
def Arch.cloadOp (a : Arch) : Arch := { a with v := a.h, win := a.buf, t := 0#7 }

/-- R166 ROUNDop: one round of the mixer and one step of the expander, from the old state. -/
def Arch.roundOp (a : Arch) : Arch :=
  { a with
    v := mixRound a.v (roundConstant a.t.toNat) a.win[0]
    win := windowStep a.win a.t.toNat
    t := a.t + 1#7 }

/-- n times ROUNDop. -/
def Arch.roundOps : Nat → Arch → Arch
  | 0, a => a
  | n + 1, a => Arch.roundOps n a.roundOp

/-- R167 CFINop: the feed-forward. -/
def Arch.cfinOp (a : Arch) : Arch := { a with h := Vector.ofFn fun i => add32 [a.h[i], a.v[i]], t := 0#7 }

/-- R168 Compress(): load, 64 rounds, feed-forward. -/
def Arch.compress (a : Arch) : Arch := (Arch.roundOps Config.rounds a.cloadOp).cfinOp

/-! ### The hash engine (44_sha256_engine.md) -/

/-- R194 Start(). -/
def Arch.start (a : Arch) : Arch := { a with h := iv, len := 0#64, fill := 0#9, buf := zeroBlock }

/-- R195 step 2, R197 steps 3 and 5: Compress(), then BUF <- 0 and FILL <- 0. -/
def Arch.flushBlock (a : Arch) : Arch := { a.compress with buf := zeroBlock, fill := 0#9 }

/-- R195 PutBit(b). FILL reaches 512 only inside the operation (R27); the block is then compressed at once. -/
def Arch.putBit (a : Arch) (b : Bool) : Arch :=
  let a1 := { a with buf := orBitAt a.buf a.fill.toFin b }
  if a.fill.toNat + 1 = Config.blockBits then a1.flushBlock else { a1 with fill := a.fill + 1#9 }

/-- R196: one bit of Absorb: PutBit(b), then LEN <- LEN + 1. -/
def Arch.absorbBit (a : Arch) (b : Bool) : Arch :=
  let a1 := a.putBit b
  { a1 with len := a1.len + 1#64 }

/-- R196 Absorb(s). -/
def Arch.absorb (a : Arch) (s : Bits) : Arch := s.foldl Arch.absorbBit a

/-- R197 step 4: the length into BUF[14] and BUF[15], most significant word first. -/
def Arch.putLength (a : Arch) (l : BitVec 64) : Arch :=
  { a with buf := (a.buf.set 14 (l.extractLsb' 32 32)).set 15 (l.extractLsb' 0 32) }

/-- R197 Finalise(), step by step. -/
def Arch.finalise (a : Arch) : Arch :=
  let l := a.len
  let a2 := a.putBit true
  let a3 := if a2.fill.toNat > Config.lengthFieldAt then a2.flushBlock else a2
  (a3.putLength l).flushBlock

/-! ### The HMAC controller (45_hmac_controller.md) -/

/-- R221 KeyCapture(b). -/
def Arch.keyCapture (a : Arch) (b : Bool) : Arch :=
  if h : a.len.toNat < Config.blockBits then { a with k0 := orBitAt a.k0 ⟨a.len.toNat, h⟩ b } else a

/-- R201: what PUSH does with one bit. KeyCapture reads LEN before it is incremented. -/
def Arch.pushBit (a : Arch) (b : Bool) : Arch :=
  (if a.mode = .key then a.keyCapture b else a).absorbBit b

/-- R201: the whole effect of a PUSH of the bits s. -/
def Arch.pushAll (a : Arch) (s : Bits) : Arch :=
  let a1 := s.foldl Arch.pushBit a
  if a1.mode = .key ∧ a1.len.toNat > Config.blockBits then { a1 with klong := true } else a1

/-- R222 step 1: a key longer than 512 bits is replaced by its hash, right-padded with zero words. -/
def Arch.reduceLongKey (a : Arch) : Arch :=
  if a.len.toNat > Config.blockBits then
    let a1 := a.finalise
    { a1 with k0 := Vector.ofFn fun j => if h : j.val < 8 then a1.h[j.val] else 0#32 }
  else a

/-- R222 steps 2 and 3, R224 steps 3 and 4: a new hash computation whose first block is the masked key. -/
def Arch.openKeyedHash (a : Arch) (mask : Word) : Arch :=
  a.start.absorb (wordsBits (maskBlock a.k0 mask).toList)

/-- R224 HmacFinish(), step by step. -/
def Arch.hmacFinish (a : Arch) : Arch :=
  let a1 := a.finalise
  let a2 := { a1 with inner := a1.h }
  let a4 := a2.openKeyedHash opadWord
  let a5 := a4.absorb (wordsBits a4.inner.toList)
  a5.finalise

/-! ### The command port -/

/-- R67, R70: the next thing the outside world presents, taken from the port; none if it presents nothing. -/
def takeEvent (s : State) : Option (PortEvent × State) :=
  match s.inbox with
  | [] => none
  | e :: rest => some (e, { s with inbox := rest })

end Sys2Proof.Machine
end

