-- ==== Sys2Proof/Machine/Control.lean ====
section
/-! DEFINITION. The control commands (46_control_and_raw_access.md section 1). They execute in every mode, also while the
core is locked (R273). -/

namespace Sys2Proof.Machine

/-- R240 NOP. -/
def execNop (s : State) : Host.Outcome State Fault Refusal := .next (s.complete s.arch)

/-- R241 CLR: clear everything and unlock. -/
def execClr (s : State) : Host.Outcome State Fault Refusal := .next (s.complete s.arch.clearAll)

/-- R242 RDSTAT: read the status word. -/
def execRdstat (s : State) : Host.Outcome State Fault Refusal := .next (s.respond (status s.arch))

end Sys2Proof.Machine
end

