-- ==== Sys2Proof/Machine/Hashing.lean ====
section
/-! DEFINITION. The commands of the hash engine (44_sha256_engine.md section 3). -/

namespace Sys2Proof.Machine

/-- R200 HINIT: begin a SHA-256 computation. -/
def execHinit (s : State) : Host.Outcome State Fault Refusal :=
  gate [] (fun s => s.complete { s.arch.clearAll.start with mode := .hash }) s

/-- R201 PUSH n, data. A bit count outside 1..32, which no decoded command has, is ILLARG. -/
def execPush (n : Nat) (dw : Word) (s : State) : Host.Outcome State Fault Refusal :=
  gate
    [(.illarg, legalPushCount n), (.seq, s.arch.mode.streaming), (.lenovf, s.arch.len.toNat + n ≤ Config.lenMax)]
    (fun s => s.complete (s.arch.pushAll (pushBits n dw))) s

/-- R202 FINAL: end of message. -/
def execFinal (s : State) : Host.Outcome State Fault Refusal :=
  gate [(.seq, s.arch.mode = .hash ∨ s.arch.mode = .hmsg)]
    (fun s =>
      let a := if s.arch.mode = .hmsg then s.arch.hmacFinish else s.arch.finalise
      s.complete { a with mode := .done }) s

/-- R203 RDDIG i: read digest word i. -/
def execRddig (i : Fin 8) (s : State) : Host.Outcome State Fault Refusal :=
  gate [(.seq, s.arch.mode = .done)] (fun s => s.respond s.arch.h[i]) s

end Sys2Proof.Machine
end

