-- ==== Sys2Proof/Machine/Hmac.lean ====
section
/-! DEFINITION. The commands of the HMAC controller (45_hmac_controller.md section 3). -/

namespace Sys2Proof.Machine

/-- R220 MINIT: begin an HMAC computation, the key phase. -/
def execMinit (s : State) : Host.Outcome State Fault Refusal :=
  gate [] (fun s => s.complete { s.arch.clearAll.start with hm := true, mode := .key }) s

/-- R222 KEND: end of key; form K0 and open the inner hash. -/
def execKend (s : State) : Host.Outcome State Fault Refusal :=
  gate [(.seq, s.arch.mode = .key)]
    (fun s => s.complete { s.arch.reduceLongKey.openKeyedHash ipadWord with mode := .hmsg }) s

end Sys2Proof.Machine
end

