-- ==== Sys2Proof/Machine/RawMode.lean ====
section
/-! DEFINITION. RAW mode: the host's access to the mixer and the expander (46_control_and_raw_access.md section 2,
43_compression_round.md section 3, 42_message_scheduler.md section 3). -/

namespace Sys2Proof.Machine

/-- R243 RINIT: enter RAW mode. -/
def execRinit (s : State) : Host.Outcome State Fault Refusal :=
  gate [] (fun s => s.complete { s.arch.clearAll with h := iv, mode := .raw }) s

/-- R244 WRH i, value: write chaining word i. -/
def execWrh (i : Fin 8) (dw : Word) (s : State) : Host.Outcome State Fault Refusal :=
  gate [(.seq, s.arch.mode = .raw ∧ s.arch.cact = false)]
    (fun s => s.complete { s.arch with h := s.arch.h.set i dw }) s

/-- R245 WRB i, value: write block word i. -/
def execWrb (i : Fin 16) (dw : Word) (s : State) : Host.Outcome State Fault Refusal :=
  gate [(.seq, s.arch.mode = .raw ∧ s.arch.cact = false)]
    (fun s => s.complete { s.arch with buf := s.arch.buf.set i dw }) s

/-- R170 COMP: one whole compression of BUF into H. -/
def execComp (s : State) : Host.Outcome State Fault Refusal :=
  gate [(.seq, s.arch.mode = .raw ∧ s.arch.cact = false)] (fun s => s.complete s.arch.compress) s

/-- R171 CLOAD: start a single-stepped compression. -/
def execCload (s : State) : Host.Outcome State Fault Refusal :=
  gate [(.seq, s.arch.mode = .raw ∧ s.arch.cact = false)]
    (fun s => s.complete { s.arch.cloadOp with cact := true }) s

/-- R172 STEP: one round of the mixer and one step of the expander. -/
def execStep (s : State) : Host.Outcome State Fault Refusal :=
  gate [(.seq, s.arch.mode = .raw ∧ s.arch.cact = true ∧ s.arch.t.toNat < Config.rounds)]
    (fun s => s.complete s.arch.roundOp) s

/-- R173 CFIN: feed-forward and end of the single-stepped compression. -/
def execCfin (s : State) : Host.Outcome State Fault Refusal :=
  gate [(.seq, s.arch.mode = .raw ∧ s.arch.cact = true ∧ s.arch.t.toNat = Config.rounds)]
    (fun s => s.complete { s.arch.cfinOp with cact := false }) s

/-- R246 RDH i: read chaining word i. -/
def execRdh (i : Fin 8) (s : State) : Host.Outcome State Fault Refusal :=
  gate [(.seq, s.arch.mode = .raw)] (fun s => s.respond s.arch.h[i]) s

/-- R247 RDV i: read working word i. -/
def execRdv (i : Fin 8) (s : State) : Host.Outcome State Fault Refusal :=
  gate [(.seq, s.arch.mode = .raw)] (fun s => s.respond s.arch.v[i]) s

/-- R150 RDW i: read window word i. -/
def execRdw (i : Fin 16) (s : State) : Host.Outcome State Fault Refusal :=
  gate [(.seq, s.arch.mode = .raw)] (fun s => s.respond s.arch.win[i]) s

/-- R248 RDB i: read block word i. -/
def execRdb (i : Fin 16) (s : State) : Host.Outcome State Fault Refusal :=
  gate [(.seq, s.arch.mode = .raw)] (fun s => s.respond s.arch.buf[i]) s

end Sys2Proof.Machine
end

