-- ==== Sys2Proof/Machine/Dispatch.lean ====
section
/-! DEFINITION. One arm per command (rule R84). -/

namespace Sys2Proof.Machine

def exec (i : Instr) (s : State) : Host.Outcome State Fault Refusal :=
  match i with
  | .nop => Sys2Proof.Machine.execNop s
  | .clr => Sys2Proof.Machine.execClr s
  | .rdstat => Sys2Proof.Machine.execRdstat s
  | .hinit => Sys2Proof.Machine.execHinit s
  | .minit => Sys2Proof.Machine.execMinit s
  | .kend => Sys2Proof.Machine.execKend s
  | .push n dw => Sys2Proof.Machine.execPush n dw s
  | .final => Sys2Proof.Machine.execFinal s
  | .rddig j => Sys2Proof.Machine.execRddig j s
  | .rinit => Sys2Proof.Machine.execRinit s
  | .wrh j dw => Sys2Proof.Machine.execWrh j dw s
  | .wrb j dw => Sys2Proof.Machine.execWrb j dw s
  | .comp => Sys2Proof.Machine.execComp s
  | .cload => Sys2Proof.Machine.execCload s
  | .step => Sys2Proof.Machine.execStep s
  | .cfin => Sys2Proof.Machine.execCfin s
  | .rdh j => Sys2Proof.Machine.execRdh j s
  | .rdv j => Sys2Proof.Machine.execRdv j s
  | .rdw j => Sys2Proof.Machine.execRdw j s
  | .rdb j => Sys2Proof.Machine.execRdb j s

end Sys2Proof.Machine
end

