-- ==== Sys2Proof/Machine/Step.lean ====
section
/-! DEFINITION. One step of the machine (rules R10, R65, R67, R85, R300): one transaction on the command port, or the reset
input, or nothing. -/

namespace Sys2Proof.Machine

/-- R10, R67: the earliest event at the port is taken; a command that decodes is executed, one that does not is rejected
(R85), and the reset input resets the core (R300). With nothing presented the core does nothing (R301). -/
def step (s : State) : Host.Outcome State Fault Refusal :=
  match takeEvent s with
  | none => .next s
  | some (.reset _, s') => .next s'.resetCore
  | some (.command cw dw, s') =>
    match decode cw dw with
    | .ok i => exec i s'
    | .error e => .next (rejectUndecodable e s')

/-- `s` with the command of a table word presented next at the port (log entry 2). -/
def State.withFetchWord (s : State) (nbits w : Nat) : State :=
  { s with inbox := .command (tableCommand nbits w).1 (tableCommand nbits w).2 :: s.inbox }

end Sys2Proof.Machine
end

