-- ==== Sys2Proof/Machine/Assembler.lean ====
section
/-! DEFINITION. The pseudo-commands (rule R94) and the textual form (rule R93). They are the host's, not the core's: each
expands or assembles to real commands. -/

namespace Sys2Proof.Machine

/-! ### Pseudo-commands -/

/-- R94 PUSHW x. -/
def pushWord (x : Word) : List Instr := [.push 32 x]

/-- R94 PUSHB b. -/
def pushByte (b : BitVec 8) : List Instr := [.push 8 (b ++ 0#24)]

/-- The word whose top bits are the (at most 32) bits of s, first bit highest, the rest 0. -/
def leftAligned (s : Bits) : Word := BitVec.ofNat 32 (bitsValue (s ++ List.replicate (32 - s.length) false))

/-- R94 PUSHBITS s, 32 bits at a time; `fuel` bounds the number of commands. -/
def pushBitsFuel : Nat → Bits → List Instr
  | 0, _ => []
  | fuel + 1, s =>
    if s.length = 0 then []
    else if s.length ≤ 32 then [.push s.length (leftAligned s)]
    else .push 32 (leftAligned (s.take 32)) :: pushBitsFuel fuel (s.drop 32)

/-- R94 PUSHBITS s. -/
def pushBitString (s : Bits) : List Instr := pushBitsFuel (s.length / 32 + 1) s

/-- R94 PUSHBYTES b0 b1 ... -/
def pushBytes (bs : List Nat) : List Instr := pushBitString (bytesBits bs)

/-- R94 RDDIGEST. -/
def readDigest : List Instr := (List.finRange 8).map .rddig

/-- R94 WRSTATE h0 ... h7. -/
def writeState (hs : Words8) : List Instr := (List.finRange 8).map fun i => .wrh i hs[i]

/-- R94 WRBLOCK w0 ... w15. -/
def writeBlock (ws : Block) : List Instr := (List.finRange 16).map fun j => .wrb j ws[j]

/-- R94 STEPN k. -/
def stepTimes (k : Nat) : List Instr := List.replicate k .step

/-! ### The textual form -/

/-- A token of a line: the comma, or a run of other characters. -/
inductive Token where
  | comma
  | text (cs : List Char)
  deriving DecidableEq, Repr

/-- The token being read, closed and put before the others. -/
def closeToken (cur : List Char) (rest : List Token) : List Token :=
  if cur.isEmpty then rest else .text cur.reverse :: rest

/-- R93: a line cut at blanks and commas; a comment starts with `;`. `cur` is the token being read, backwards. -/
def tokenise : List Char → List Char → List Token
  | cur, [] => closeToken cur []
  | cur, c :: cs =>
    if c = ';' then closeToken cur []
    else if c = ' ' ∨ c = '\t' then closeToken cur (tokenise [] cs)
    else if c = ',' then closeToken cur (.comma :: tokenise [] cs)
    else tokenise (c :: cur) cs

/-- The value of a digit, a decimal one or a hexadecimal one of either case. -/
def digitValue (c : Char) : Option Nat :=
  if 48 ≤ c.toNat ∧ c.toNat ≤ 57 then some (c.toNat - 48)
  else if 65 ≤ c.toNat ∧ c.toNat ≤ 70 then some (c.toNat - 55)
  else if 97 ≤ c.toNat ∧ c.toNat ≤ 102 then some (c.toNat - 87)
  else none

/-- Digits in the given base, most significant first, onto `acc`. -/
def digitsValue (base : Nat) : Nat → List Char → Option Nat
  | acc, [] => some acc
  | acc, c :: cs =>
    match digitValue c with
    | some d => if d < base then digitsValue base (acc * base + d) cs else none
    | none => none

/-- R93: a number is decimal, or hexadecimal with the prefix 0x. -/
def numberValue : List Char → Option Nat
  | [] => none
  | '0' :: 'x' :: c :: cs => digitsValue 16 0 (c :: cs)
  | cs => digitsValue 10 0 cs

/-- The mnemonics that take no operand, with their commands (form N of R84). -/
def plainCommands : List (List Char × Instr) :=
  [(['N', 'O', 'P'], .nop), (['C', 'L', 'R'], .clr), (['R', 'D', 'S', 'T', 'A', 'T'], .rdstat),
   (['H', 'I', 'N', 'I', 'T'], .hinit), (['M', 'I', 'N', 'I', 'T'], .minit), (['K', 'E', 'N', 'D'], .kend),
   (['F', 'I', 'N', 'A', 'L'], .final), (['R', 'I', 'N', 'I', 'T'], .rinit), (['C', 'O', 'M', 'P'], .comp),
   (['C', 'L', 'O', 'A', 'D'], .cload), (['S', 'T', 'E', 'P'], .step), (['C', 'F', 'I', 'N'], .cfin)]

/-- The mnemonics that take an index and no data, with the command for an index (R84). -/
def indexedCommand (m : List Char) (i : Nat) : Option Instr :=
  if h8 : i < 8 then
    if m = ['R', 'D', 'D', 'I', 'G'] then some (.rddig ⟨i, h8⟩)
    else if m = ['R', 'D', 'H'] then some (.rdh ⟨i, h8⟩)
    else if m = ['R', 'D', 'V'] then some (.rdv ⟨i, h8⟩)
    else if m = ['R', 'D', 'W'] then some (.rdw ⟨i, by omega⟩)
    else if m = ['R', 'D', 'B'] then some (.rdb ⟨i, by omega⟩)
    else none
  else if h16 : i < 16 then
    if m = ['R', 'D', 'W'] then some (.rdw ⟨i, h16⟩)
    else if m = ['R', 'D', 'B'] then some (.rdb ⟨i, h16⟩)
    else none
  else none

/-- The mnemonics that take an argument and data (R84). -/
def dataCommand (m : List Char) (n x : Nat) : Option Instr :=
  if m = ['P', 'U', 'S', 'H'] then
    if legalPushCount n then some (.push n (BitVec.ofNat 32 x)) else none
  else if h8 : n < 8 then
    if m = ['W', 'R', 'H'] then some (.wrh ⟨n, h8⟩ (BitVec.ofNat 32 x))
    else if m = ['W', 'R', 'B'] then some (.wrb ⟨n, by omega⟩ (BitVec.ofNat 32 x))
    else none
  else if h16 : n < 16 then
    if m = ['W', 'R', 'B'] then some (.wrb ⟨n, h16⟩ (BitVec.ofNat 32 x)) else none
  else none

/-- R93: `MNEMONIC`, then the ARG operand if the form has one, then `, data` if the command uses dw. -/
def parseTokens : List Token → Option Instr
  | [.text m] => (plainCommands.find? fun p => p.1 = m).map (·.2)
  | [.text m, .text a] => (numberValue a).bind (indexedCommand m)
  | [.text m, .text a, .comma, .text d] =>
    (numberValue a).bind fun n => (numberValue d).bind fun x => if x < 2 ^ 32 then dataCommand m n x else none
  | _ => none

/-- R93: the (cw, dw) pair of one line of text; none where the line is no command. -/
def assembleLine (line : List Char) : Option (Word × Word) := (parseTokens (tokenise [] line)).map encode

end Sys2Proof.Machine
end

