-- ==== Sys2Proof/Safety.lean ====
section
/-! DEFINITION. The terms claims are stated in: which command is legal where and where MODE goes (R95), which command
touches which element (R39), the invariants between commands (R38), the blocks a command compresses (R198, R320), and runs
over a list of commands. Each is written from its own rule, not from the meanings. -/

namespace Sys2Proof.Machine

/-! ### Sequencing (R95) -/

/-- R95, the column "legal when", but for ERR. -/
def legalNow (i : Instr) (a : Arch) : Prop :=
  match i with
  | .nop | .clr | .rdstat | .hinit | .minit | .rinit => True
  | .push _ _ => a.mode = .hash ∨ a.mode = .key ∨ a.mode = .hmsg
  | .kend => a.mode = .key
  | .final => a.mode = .hash ∨ a.mode = .hmsg
  | .rddig _ => a.mode = .done
  | .wrh _ _ | .wrb _ _ | .comp | .cload => a.mode = .raw ∧ a.cact = false
  | .step => a.mode = .raw ∧ a.cact = true ∧ a.t.toNat < 64
  | .cfin => a.mode = .raw ∧ a.cact = true ∧ a.t.toNat = 64
  | .rdh _ | .rdv _ | .rdw _ | .rdb _ => a.mode = .raw

/-- R95, the column "MODE after". -/
def modeAfter (i : Instr) (m : Mode) : Mode :=
  match i with
  | .clr => .idle
  | .hinit => .hash
  | .minit => .key
  | .rinit => .raw
  | .kend => .hmsg
  | .final => .done
  | .nop | .rdstat | .push _ _ | .rddig _ | .wrh _ _ | .wrb _ _ | .comp | .cload | .step | .cfin | .rdh _ | .rdv _ | .rdw _
  | .rdb _ => m

/-- R273: the three commands that execute while the core is locked. -/
def alwaysExecutes : Instr → Bool
  | .nop | .clr | .rdstat => true
  | .hinit | .minit | .kend | .push _ _ | .final | .rddig _ | .rinit | .wrh _ _ | .wrb _ _ | .comp | .cload | .step | .cfin
  | .rdh _ | .rdv _ | .rdw _ | .rdb _ => false

/-- R85 check 5: a PUSH that would take LEN past 2^64 - 1. -/
def overflowsLength (i : Instr) (a : Arch) : Prop :=
  match i with
  | .push n _ => a.len.toNat + n > 2 ^ 64 - 1
  | .nop | .clr | .rdstat | .hinit | .minit | .kend | .final | .rddig _ | .rinit | .wrh _ _ | .wrb _ _ | .comp | .cload
  | .step | .cfin | .rdh _ | .rdv _ | .rdw _ | .rdb _ => False

/-- R85: all six checks let the command execute. -/
def executesNow (i : Instr) (a : Arch) : Prop :=
  (a.err = false ∨ alwaysExecutes i = true) ∧ i.wellFormed = true ∧ legalNow i a ∧ ¬ overflowsLength i a

/-! ### Malformed command words (R90) -/

/-- R84: the opcodes of form N. -/
def opcodesN : List Nat := [0x00, 0x01, 0x02, 0x10, 0x11, 0x12, 0x14, 0x20, 0x23, 0x24, 0x25, 0x26]

/-- R84: the opcodes of form X8. -/
def opcodesX8 : List Nat := [0x15, 0x21, 0x27, 0x28]

/-- R84: the opcodes of form X16. -/
def opcodesX16 : List Nat := [0x22, 0x29, 0x2A]

/-- R84: the opcode of form P. -/
def opcodeP : Nat := 0x13

/-- R90, R271: the OPC is not one of the 20, or RSV is not zero. -/
def illopWord (cw : Word) : Prop :=
  (opcOf cw).toNat ∉ opcodesN ++ opcodesX8 ++ opcodesX16 ++ [opcodeP] ∨ rsvOf cw ≠ 0#16

/-- R90, R271: ARG is outside the range of the opcode's form. -/
def illargWord (cw : Word) : Prop :=
  ((opcOf cw).toNat ∈ opcodesN ∧ (argOf cw).toNat ≠ 0) ∨ ((opcOf cw).toNat ∈ opcodesX8 ∧ (argOf cw).toNat > 7) ∨
    ((opcOf cw).toNat ∈ opcodesX16 ∧ (argOf cw).toNat > 15) ∨
    ((opcOf cw).toNat = opcodeP ∧ ((argOf cw).toNat = 0 ∨ (argOf cw).toNat > 32))

/-! ### Responses -/

/-- R83: a command that executed and returns no data. -/
def okResponse : Response := { rw := 0#32, er := false }

/-- R83, R270: a rejected command. -/
def rejection : Response := { rw := 0#32, er := true }

/-- R83: a read command that executed. -/
def readResponse (v : Word) : Response := { rw := v, er := false }

/-! ### The access matrix (R39) -/

/-- The columns of R39. -/
inductive Element where
  | h | v | t | win | buf | fill | len | k0 | inner | mode | hm | klong | cact | error
  deriving DecidableEq, Repr

/-- The element holds the same value in both. -/
def Element.same (e : Element) (a b : Arch) : Prop :=
  match e with
  | .h => a.h = b.h
  | .v => a.v = b.v
  | .t => a.t = b.t
  | .win => a.win = b.win
  | .buf => a.buf = b.buf
  | .fill => a.fill = b.fill
  | .len => a.len = b.len
  | .k0 => a.k0 = b.k0
  | .inner => a.inner = b.inner
  | .mode => a.mode = b.mode
  | .hm => a.hm = b.hm
  | .klong => a.klong = b.klong
  | .cact => a.cact = b.cact
  | .error => a.err = b.err ∧ a.ecode = b.ecode

/-- R39: the elements a command that executes in mode `m` may write (w, or C: V, WIN, T, H). The rows HINIT, MINIT, RINIT
have ERR/ECODE read only, as R39 marks them, though R41 has their ClearAll() write both; they execute with ERR = 0 alone, so
with ECODE = 0 exactly when ERR = 0 (R38 item 1) nothing changes. DESIGN CHOICE, log entry 15. -/
def writes (i : Instr) (m : Mode) : List Element :=
  match i with
  | .nop | .rdstat | .rddig _ | .rdh _ | .rdv _ | .rdw _ | .rdb _ => []
  | .clr => [.h, .v, .t, .win, .buf, .fill, .len, .k0, .inner, .mode, .hm, .klong, .cact, .error]
  | .hinit | .minit | .rinit => [.h, .v, .t, .win, .buf, .fill, .len, .k0, .inner, .mode, .hm, .klong, .cact]
  | .push _ _ => [.h, .v, .t, .win, .buf, .fill, .len] ++ if m = .key then [.k0, .klong] else []
  | .kend => [.h, .v, .t, .win, .buf, .fill, .len, .k0, .mode]
  | .final => [.h, .v, .t, .win, .buf, .fill, .len, .mode] ++ if m = .hmsg then [.inner] else []
  | .wrh _ _ => [.h]
  | .wrb _ _ => [.buf]
  | .comp => [.h, .v, .t, .win]
  | .cload => [.v, .t, .win, .cact]
  | .step => [.v, .t, .win]
  | .cfin => [.h, .t, .cact]

/-- R39: the elements a command reads in mode `m` (r, or C: BUF, H). Every command reads ERR. -/
def reads (i : Instr) (m : Mode) : List Element :=
  match i with
  | .nop | .clr | .hinit | .minit | .rinit => [.error]
  | .rdstat => [.t, .fill, .mode, .hm, .klong, .cact, .error]
  | .push _ _ => [.h, .buf, .fill, .len, .mode, .error]
  | .kend => [.h, .buf, .fill, .len, .k0, .mode, .error]
  | .final => [.h, .buf, .fill, .len, .mode, .error] ++ if m = .hmsg then [.k0] else []
  | .rddig _ | .rdh _ => [.h, .mode, .error]
  | .wrh _ _ | .wrb _ _ => [.mode, .cact, .error]
  | .comp | .cload => [.h, .buf, .mode, .cact, .error]
  | .step => [.v, .t, .win, .mode, .cact, .error]
  | .cfin => [.h, .v, .t, .mode, .cact, .error]
  | .rdv _ => [.v, .mode, .error]
  | .rdw _ => [.win, .mode, .error]
  | .rdb _ => [.buf, .mode, .error]

/-! ### The invariants between commands (R38) -/

/-- R25, R146: the window after t steps on the block b: W[t + j] for t + j <= 63, and 0 beyond. -/
def windowAt (b : Block) (t : Nat) : Block :=
  Vector.ofFn fun j => if t + j.val < Config.scheduleWords then scheduleWord b (t + j.val) else 0#32

/-- R38 item 1. (MODE is in 0..5, FILL <= 511 and ECODE <= 4 by their types.) -/
abbrev Arch.countersInRange (a : Arch) : Prop := a.t.toNat ≤ 64 ∧ (a.ecode = .noError ↔ a.err = false)

/-- R38 item 2. -/
abbrev Arch.steppingOnlyInRaw (a : Arch) : Prop := (a.cact = true → a.mode = .raw) ∧ (a.t ≠ 0#7 → a.cact = true)

/-- R38 item 3. -/
abbrev Arch.windowClear (a : Arch) : Prop := a.cact = false → a.win = zeroBlock

/-- R38 item 4. -/
abbrev Arch.noFillOutsideStreaming (a : Arch) : Prop :=
  (a.mode = .idle ∨ a.mode = .raw ∨ a.mode = .done → a.fill = 0#9) ∧ (a.mode = .idle ∨ a.mode = .done → a.buf = zeroBlock)

/-- R38 item 5. (Which bits stand below FILL depends on the bits absorbed before: see the statements about PUSH.) -/
abbrev Arch.fillTracksLen (a : Arch) : Prop :=
  a.mode = .hash ∨ a.mode = .key ∨ a.mode = .hmsg →
    a.fill.toNat = a.len.toNat % 512 ∧ ∀ p : Fin 512, a.fill.toNat ≤ p.val → bitAt a.buf p = false

/-- R38 item 6. (Which bits stand below min(LEN, 512) depends on the key: see the statements about PUSH.) -/
abbrev Arch.keyCaptured (a : Arch) : Prop :=
  a.mode = .key →
    (∀ p : Fin 512, min a.len.toNat 512 ≤ p.val → bitAt a.k0 p = false) ∧ (a.klong = true ↔ a.len.toNat > 512)

/-- R38 item 7; and R31 with R220, R222: HM is set in the modes KEY and HMSG. -/
abbrev Arch.hmacFlags (a : Arch) : Prop :=
  (a.hm = true → a.mode = .key ∨ a.mode = .hmsg ∨ a.mode = .done) ∧ (a.klong = true → a.hm = true) ∧
    (a.mode = .key ∨ a.mode = .hmsg → a.hm = true)

/-- R38 item 8. -/
abbrev Arch.idleIsReset (a : Arch) : Prop :=
  a.mode = .idle → { a with err := false, ecode := .noError } = Arch.reset

/-- R243, R245, R249: in RAW mode LEN, K0 and INNER hold nothing of an earlier computation. -/
abbrev Arch.rawHoldsNoSecret (a : Arch) : Prop :=
  a.mode = .raw → a.len = 0#64 ∧ a.k0 = zeroBlock ∧ a.inner = zeroWords8

/-- R25, R146, R247: while a single-stepped compression is in progress, WIN is the window of BUF's schedule and V is the
working state V_T, at the round T. -/
abbrev Arch.steppedCompression (a : Arch) : Prop :=
  a.cact = true → a.win = windowAt a.buf a.t.toNat ∧ a.v = workingState a.h a.buf a.t.toNat

/-- R38, all eight items, with what RAW mode and a stepped compression hold. -/
structure Arch.Consistent (a : Arch) : Prop where
  countersInRange : a.countersInRange
  steppingOnlyInRaw : a.steppingOnlyInRaw
  windowClear : a.windowClear
  noFillOutsideStreaming : a.noFillOutsideStreaming
  fillTracksLen : a.fillTracksLen
  keyCaptured : a.keyCaptured
  hmacFlags : a.hmacFlags
  idleIsReset : a.idleIsReset
  rawHoldsNoSecret : a.rawHoldsNoSecret
  steppedCompression : a.steppedCompression

/-! ### The blocks handed to Compress (R198, R320) -/

/-- R195: the block PutBit(b) compresses, if it completes one. -/
def blocksOfPutBit (a : Arch) (b : Bool) : List Block :=
  if a.fill.toNat = 511 then [orBitAt a.buf a.fill.toFin b] else []

/-- R196: the blocks Absorb(s) compresses, in order. -/
def blocksOfAbsorb : Arch → Bits → List Block
  | _, [] => []
  | a, b :: s => blocksOfPutBit a b ++ blocksOfAbsorb (a.absorbBit b) s

/-- R197: the blocks Finalise() compresses, in order. -/
def blocksOfFinalise (a : Arch) : List Block :=
  let a2 := a.putBit true
  blocksOfPutBit a true ++
    if a2.fill.toNat > 448 then [a2.buf, (a2.flushBlock.putLength a.len).buf] else [(a2.putLength a.len).buf]

/-- The hash computations an executing command works on, in order: for each the chaining state it stands at and the blocks
the command compresses into it. -/
def chainings (i : Instr) (a : Arch) : List (Words8 × List Block) :=
  match i with
  | .comp => [(a.h, [a.buf])]
  | .push n dw => [(a.h, blocksOfAbsorb a (pushBits n dw))]
  | .kend =>
    (if a.len.toNat > 512 then [(a.h, blocksOfFinalise a)] else []) ++
      [(iv, blocksOfAbsorb a.reduceLongKey.start (wordsBits (maskBlock a.reduceLongKey.k0 ipadWord).toList))]
  | .final =>
    if a.mode = .hmsg then
      let a2 := { a.finalise with inner := a.finalise.h }
      let opad := wordsBits (maskBlock a.k0 opadWord).toList
      let a5 := (a2.start.absorb opad).absorb (wordsBits a2.inner.toList)
      [(a.h, blocksOfFinalise a),
       (iv, blocksOfAbsorb a2.start opad ++ blocksOfAbsorb (a2.start.absorb opad) (wordsBits a2.inner.toList) ++
         blocksOfFinalise a5)]
    else [(a.h, blocksOfFinalise a)]
  | .nop | .clr | .rdstat | .hinit | .minit | .rddig _ | .rinit | .wrh _ _ | .wrb _ _ | .cload | .step | .cfin | .rdh _
  | .rdv _ | .rdw _ | .rdb _ => []

/-- The blocks an executing command compresses, in order. -/
def blocksCompressed (i : Instr) (a : Arch) : List Block := (chainings i a).flatMap fun c => c.2

/-- R169, R192: the chaining state after the blocks. -/
def chain (s : Words8) (bs : List Block) : Words8 := bs.foldl compressBlock s

/-- H after a command that executes and compresses nothing: R41, R194, R243 (IV), R244 (one word), R167 (the feed-forward
alone); every other command leaves it. -/
def hUncompressed (i : Instr) (a : Arch) : Words8 :=
  match i with
  | .clr => zeroWords8
  | .hinit | .minit | .rinit => iv
  | .wrh j dw => a.h.set j dw
  | .cfin => Vector.ofFn fun k => a.h[k] + a.v[k]
  | .nop | .rdstat | .kend | .push _ _ | .final | .rddig _ | .wrb _ _ | .comp | .cload | .step | .rdh _ | .rdv _ | .rdw _
  | .rdb _ => a.h

/-- V after a command that executes and compresses nothing: R41 (zero), R165 (the load alone), R166 (one round); every other
command leaves it. -/
def vUncompressed (i : Instr) (a : Arch) : Words8 :=
  match i with
  | .clr | .hinit | .minit | .rinit => zeroWords8
  | .cload => a.h
  | .step => mixRound a.v (roundConstant a.t.toNat) a.win[0]
  | .nop | .rdstat | .kend | .push _ _ | .final | .rddig _ | .wrh _ _ | .wrb _ _ | .comp | .cfin | .rdh _ | .rdv _ | .rdw _
  | .rdb _ => a.v

/-- R320: the compressions performed, by the table. -/
def compressionCount (i : Instr) (a : Arch) : Nat :=
  match i with
  | .comp => 1
  | .push n _ => if a.fill.toNat + n ≥ 512 then 1 else 0
  | .final => if a.mode = .hmsg then (if a.fill.toNat ≤ 447 then 3 else 4) else if a.fill.toNat ≤ 447 then 1 else 2
  | .kend => if a.len.toNat ≤ 512 then 1 else if a.fill.toNat ≤ 447 then 2 else 3
  | .nop | .clr | .rdstat | .hinit | .minit | .rddig _ | .rinit | .wrh _ _ | .wrb _ _ | .cload | .step | .cfin | .rdh _
  | .rdv _ | .rdw _ | .rdb _ => 0

/-! ### What the tail of a hash computation comes to (R197), at the function level -/

/-- The block with the pad bit: BUF with a 1 at stream position FILL. -/
def padBitBlock (a : Arch) : Block := orBitAt a.buf a.fill.toFin true

/-- R197 step 4: the two length words in the last block. -/
def withLength (b : Block) (l : BitVec 64) : Block := (b.set 14 (l.extractLsb' 32 32)).set 15 (l.extractLsb' 0 32)

/-- R197: the chaining state Finalise() leaves. One compression when FILL <= 447, two otherwise. -/
def finalChaining (a : Arch) : Words8 :=
  if a.fill.toNat ≤ 447 then compressBlock a.h (withLength (padBitBlock a) a.len)
  else compressBlock (compressBlock a.h (padBitBlock a)) (withLength zeroBlock a.len)

/-- R197, R24: the working state of the last compression, which V keeps. -/
def finalWorking (a : Arch) : Words8 :=
  if a.fill.toNat ≤ 447 then workingState a.h (withLength (padBitBlock a) a.len) 64
  else workingState (compressBlock a.h (padBitBlock a)) (withLength zeroBlock a.len) 64

/-- R224 step 6: the second block of the outer hash: INNER, the pad bit, zeros, and the length 768. -/
def outerTailBlock (inner : Words8) : Block :=
  Vector.ofFn fun j =>
    if h : j.val < 8 then inner[j.val] else if j.val = 8 then 0x80000000#32 else if j.val = 15 then 0x00000300#32 else 0#32

/-! ### What a statement says of one command -/

/-- The outcome "the command leaves the registers `a` and returns `r`"; what the host presents next is untouched. -/
def answers (s : State) (a : Arch) (r : Response) : Host.Outcome State Fault Refusal :=
  .next { arch := a, inbox := s.inbox, response := some r }

/-- R270 with ERR = 0: ERR <- 1, ECODE <- code, nothing else changes, and the response is a rejection. -/
def raises (s : State) (code : ErrorCode) : Host.Outcome State Fault Refusal :=
  answers s { s.arch with err := true, ecode := code } rejection

/-- R273: a command other than NOP, CLR, RDSTAT while ERR = 1. -/
def lockedOut (s : State) : Host.Outcome State Fault Refusal := answers s s.arch rejection

/-- Every element outside the list is the same in both. -/
def onlyChanges (es : List Element) (a b : Arch) : Prop := ∀ e : Element, e ∉ es → e.same a b

/-- R83, R270, R273, R285: outside its legal states the command raises SEQ, and while the core is locked it is rejected. -/
def rejectsOutOfSequence (i : Instr) : Prop :=
  (∀ s : State, s.arch.err = false → ¬ legalNow i s.arch → exec i s = raises s .seq) ∧
    ∀ s : State, s.arch.err = true → exec i s = lockedOut s

/-- R85 checks 1 to 3 for the words of one opcode: RSV not zero is ILLOP, an ARG outside low..high is ILLARG; and while the
core is locked either is rejected with ECODE unchanged. -/
def rejectsMalformed (opc : BitVec 8) (low high : Nat) : Prop :=
  ∀ (s : State) (cw dw : Word) (rest : List PortEvent), s.inbox = .command cw dw :: rest → opcOf cw = opc →
    (rsvOf cw ≠ 0#16 →
      step s = if s.arch.err then lockedOut { s with inbox := rest } else raises { s with inbox := rest } .illop) ∧
    (rsvOf cw = 0#16 → ¬ (low ≤ (argOf cw).toNat ∧ (argOf cw).toNat ≤ high) →
      step s = if s.arch.err then lockedOut { s with inbox := rest } else raises { s with inbox := rest } .illarg)

/-- A command that changes no state: legal in RAW mode, it may stand between the steps of a compression (R174). -/
def passiveInRaw : Instr → Bool
  | .nop | .rdstat | .rdh _ | .rdv _ | .rdw _ | .rdb _ => true
  | .clr | .hinit | .minit | .kend | .push _ _ | .final | .rddig _ | .rinit | .wrh _ _ | .wrb _ _ | .comp | .cload | .step
  | .cfin => false

/-! ### Runs over a list of commands -/

/-- The port events of commands issued one after the other. -/
def issue (cmds : List Instr) : List PortEvent := cmds.map fun i => .command (encode i).1 (encode i).2

/-- k steps of the machine. -/
def run (k : Nat) (s : State) : Host.Outcome State Fault Refusal := Host.Core.run Sys2Proof.core k s

/-- The commands that may stand between HINIT and FINAL: legal pushes, and commands that change no state (R199). -/
def streamCommand : Instr → Bool
  | .push n _ => legalPushCount n
  | .nop | .rdstat => true
  | .clr | .hinit | .minit | .kend | .final | .rddig _ | .rinit | .wrh _ _ | .wrb _ _ | .comp | .cload | .step | .cfin
  | .rdh _ | .rdv _ | .rdw _ | .rdb _ => false

/-- The bits a list of commands pushes, in issue order (R63). -/
def messageOf (cmds : List Instr) : Bits :=
  cmds.flatMap fun
    | .push n dw => pushBits n dw
    | .nop | .rdstat | .clr | .hinit | .minit | .kend | .final | .rddig _ | .rinit | .wrh _ _ | .wrb _ _ | .comp | .cload
    | .step | .cfin | .rdh _ | .rdv _ | .rdw _ | .rdb _ => []

end Sys2Proof.Machine
end

