-- ==== Sys2Proof/Certificates/Slice0/Obligations.lean ====
section
/-! DEFINITION. The statements about the core. Each is written from the numbered rules of spec/ in terms of Safety.lean and
of the function level (Machine/Functions.lean); what it cites and quotes stands in OBLIGATIONS.json. -/

open Sys2Proof Sys2Proof.Machine

/-! ### Reset and the port -/

/-- R40: what reset leaves. -/
def Obligations.ResetHoldsTheTableOfValues : Prop :=
  (∀ i : Fin 8, State.reset.arch.h[i] = 0#32 ∧ State.reset.arch.v[i] = 0#32 ∧ State.reset.arch.inner[i] = 0#32) ∧
  (∀ j : Fin 16, State.reset.arch.win[j] = 0#32 ∧ State.reset.arch.buf[j] = 0#32 ∧ State.reset.arch.k0[j] = 0#32) ∧
  State.reset.arch.t = 0#7 ∧ State.reset.arch.fill = 0#9 ∧ State.reset.arch.len = 0#64 ∧
  State.reset.arch.mode = .idle ∧ State.reset.arch.hm = false ∧ State.reset.arch.klong = false ∧
  State.reset.arch.cact = false ∧ State.reset.arch.err = false ∧ State.reset.arch.ecode = .noError ∧
  status State.reset.arch = 0x00000000#32

/-- The reset input, in any state: every register takes its reset value (R300), and a command it interrupts returns no
response (R73). That a reset takes the place of a step, and that the response is none also when it interrupts no command, is
the model's choice (log entry 5). -/
def Obligations.ResetInputRestoresEveryElement : Prop :=
  ∀ (s : State) (interrupted : Option (Word × Word)) (rest : List PortEvent),
    s.inbox = .reset interrupted :: rest →
    step s = .next { arch := State.reset.arch, inbox := rest, response := none }

/-- With nothing presented the core does nothing (70_reset_and_hazards.md section 1, "after reset the core does nothing
until the host issues a command"); that the last response stays too is the model's choice (log entry 3). -/
def Obligations.UnaddressedCoreDoesNothing : Prop :=
  ∀ s : State, s.inbox = [] → step s = .next s

/-- A step runs the decoded command, on the state with that command taken from the port (the model's list, log entry 1). -/
def Obligations.StepRunsTheDecodedCommand : Prop :=
  ∀ (s : State) (cw dw : Word) (rest : List PortEvent) (i : Instr),
    s.inbox = .command cw dw :: rest → decode cw dw = .ok i → step s = exec i { s with inbox := rest }

/-- R85 checks 1 to 3, R90, R270, R272, R273 on raw command words: what step does with a word that is no well-formed
command, and that every other word decodes to one. -/
def Obligations.StepRejectsEveryMalformedWord : Prop :=
  ∀ (s : State) (cw dw : Word) (rest : List PortEvent),
    s.inbox = .command cw dw :: rest →
    (s.arch.err = true → illopWord cw ∨ illargWord cw → step s = lockedOut { s with inbox := rest }) ∧
    (s.arch.err = false → illopWord cw → step s = raises { s with inbox := rest } .illop) ∧
    (s.arch.err = false → ¬ illopWord cw → illargWord cw → step s = raises { s with inbox := rest } .illarg) ∧
    (¬ illopWord cw → ¬ illargWord cw → ∃ i : Instr, decode cw dw = .ok i ∧ i.wellFormed = true)

/-- R72: the core cannot hang; every step has a next state. The spec marks this as derived. -/
def Obligations.EveryStepTerminates : Prop := ∀ s : State, ∃ t : State, step s = .next t

/-! ### Encoding -/

/-- R84 on words written out from the encoding table, one or more of each family. -/
def Obligations.WordsOfTheTableDecode : Prop :=
  decode 0x00000000#32 0xDEADBEEF#32 = .ok .nop ∧
  decode 0x02000000#32 0#32 = .ok .rdstat ∧
  decode 0x12000000#32 0#32 = .ok .kend ∧
  decode 0x13000018#32 0x61626300#32 = .ok (.push 24 0x61626300#32) ∧
  decode 0x15000003#32 0#32 = .ok (.rddig 3) ∧
  decode 0x2200000F#32 0x00000018#32 = .ok (.wrb 15 0x00000018#32) ∧
  decode 0x25000000#32 0#32 = .ok .step ∧
  decode 0x2900000F#32 0#32 = .ok (.rdw 15)

/-- No bit of an encoding is dropped: every well-formed command is the decoding of its encoding. -/
def Obligations.DecodeInvertsEncode : Prop :=
  ∀ i : Instr, i.wellFormed = true → decode (encode i).1 (encode i).2 = .ok i

/-- Every word has one meaning: a pair that decodes is the encoding of what it decodes to, but for an ignored `dw`. -/
def Obligations.EncodeInvertsDecode : Prop :=
  ∀ (cw dw : Word) (i : Instr), decode cw dw = .ok i →
    i.wellFormed = true ∧ (encode i).1 = cw ∧ (encode i).2 = if usesData i then dw else 0#32

/-- R96: the machine-readable table selects a row exactly when the decoder finds that row's command; and a word whose OPC is a
row's but which the row does not select is ILLOP if RSV is not zero, else ILLARG. -/
def Obligations.OpcodeTableAgreesWithDecoder : Prop :=
  ∀ (cw dw : Word) (r : OpcodeRow), r ∈ opcodeTable →
    (r.selects cw = true ↔ ∃ i : Instr, decode cw dw = .ok i ∧ mnemonicOf i = r.mnemonic) ∧
    (opcOf cw = opcOf r.pattern → r.selects cw = false →
      decode cw dw = if rsvOf cw ≠ 0#16 then .error .illop else .error .illarg)

/-- R85: "exactly one command": no word selects two rows of the table. -/
def Obligations.OpcodeTableRowsAreDisjoint : Prop :=
  ∀ (cw : Word) (r r' : OpcodeRow), r ∈ opcodeTable → r' ∈ opcodeTable →
    r.selects cw = true → r'.selects cw = true → r = r'

/-- R91: `dw` of a command that does not use it, and the low 32 - n bits of a PUSH's, change nothing. -/
def Obligations.UnusedDataBitsHaveNoEffect : Prop :=
  ∀ (s s' : State) (cw dw dw' : Word) (rest : List PortEvent),
    s.inbox = .command cw dw :: rest → s' = { s with inbox := .command cw dw' :: rest } →
    (opcOf cw ≠ 0x13#8 ∧ opcOf cw ≠ 0x21#8 ∧ opcOf cw ≠ 0x22#8) ∨
      (opcOf cw = 0x13#8 ∧ ∀ k : Nat, k < (argOf cw).toNat → dw.getLsbD (31 - k) = dw'.getLsbD (31 - k)) →
    step s = step s'

/-! ### Errors and sequencing -/

/-- R95 and R85 check 4, R285: outside the states the sequencing table lists, every command raises SEQ. (The spec
marks R285 as derived from R95.) -/
def Obligations.CommandOutOfSequenceRaisesSeq : Prop :=
  ∀ (i : Instr) (s : State), i.wellFormed = true → s.arch.err = false → ¬ legalNow i s.arch → exec i s = raises s .seq

/-- R95, R85: in the states the sequencing table lists, every command executes, its response says so, and MODE becomes the
table's entry. -/
def Obligations.LegalCommandExecutes : Prop :=
  ∀ (i : Instr) (s : State), executesNow i s.arch →
    ∃ (a : Arch) (v : Word), exec i s = answers s a { rw := v, er := false } ∧ a.mode = modeAfter i s.arch.mode ∧
      (s.arch.err = false → a.err = false)

/-- R201, R272, R274: a PUSH word with a bit count outside 1..32 raises ILLARG in every mode; a legal PUSH raises SEQ outside
the streaming modes, and LENOVF when LEN + n would pass 2^64 - 1; a locked core rejects it. No bit is absorbed. And its
encoding. The clause on exec of the term push n dw with n = 0 or n > 32, which no word decodes to, is the model's choice (log
entry 9), not R201's. -/
def Obligations.PushRejectsInPriorityOrder : Prop :=
  (∀ (n : Nat) (dw : Word), 1 ≤ n → n ≤ 32 → decode (0x13000000#32 + BitVec.ofNat 32 n) dw = .ok (.push n dw)) ∧
  rejectsMalformed 0x13#8 1 32 ∧
  (∀ (s : State) (n : Nat) (dw : Word), s.arch.err = true → exec (.push n dw) s = lockedOut s) ∧
  ∀ (s : State) (n : Nat) (dw : Word), s.arch.err = false →
    (n = 0 ∨ 32 < n → exec (.push n dw) s = raises s .illarg) ∧
    (1 ≤ n → n ≤ 32 → s.arch.mode = .idle ∨ s.arch.mode = .raw ∨ s.arch.mode = .done →
      exec (.push n dw) s = raises s .seq) ∧
    (1 ≤ n → n ≤ 32 → s.arch.mode = .hash ∨ s.arch.mode = .key ∨ s.arch.mode = .hmsg →
      s.arch.len.toNat + n > 2 ^ 64 - 1 → exec (.push n dw) s = raises s .lenovf)

/-- R273: while ERR = 1 every command but NOP, CLR and RDSTAT is rejected and changes nothing, and those three execute. -/
def Obligations.LockedCoreExecutesThreeCommands : Prop :=
  ∀ (i : Instr) (s : State), s.arch.err = true →
    (i ≠ .nop → i ≠ .clr → i ≠ .rdstat → exec i s = lockedOut s) ∧
    (i = .nop → exec i s = answers s s.arch okResponse) ∧
    (i = .clr → exec i s = answers s State.reset.arch okResponse) ∧
    (i = .rdstat → exec i s = answers s s.arch (readResponse (status s.arch)))

/-- R273, R275: once an error is recorded, no sequence of command words without a CLR changes any register: the computation
can be neither continued nor read out. -/
def Obligations.LockHoldsUntilClear : Prop :=
  ∀ (s : State) (words : List (Word × Word)) (rest : List PortEvent), s.arch.err = true →
    (∀ c ∈ words, decode c.1 c.2 ≠ .ok .clr) →
    s.inbox = words.map (fun c => PortEvent.command c.1 c.2) ++ rest →
    ∃ t : State, run words.length s = .next t ∧ t.arch = s.arch ∧ t.inbox = rest

/-- R83, R270: every command gives a response; a rejected one has rw = 0, sets ERR and changes nothing but ERR and ECODE; one
that executed and reads nothing has rw = 0. -/
def Obligations.EveryResponseHasTheStatedShape : Prop :=
  ∀ (i : Instr) (s t : State), exec i s = .next t →
    ∃ r : Response, t.response = some r ∧
      (r.er = true → r.rw = 0#32 ∧ t.arch.err = true ∧ onlyChanges [.error] s.arch t.arch ∧
        (s.arch.err = true → t.arch = s.arch)) ∧
      (r.er = false → (∀ j k, i ≠ .rddig j ∧ i ≠ .rdh j ∧ i ≠ .rdv j ∧ i ≠ .rdw k ∧ i ≠ .rdb k ∧ i ≠ .rdstat) →
        r.rw = 0#32)

/-! ### The control commands -/

/-- R240 NOP: legal always; it changes nothing. -/
def Obligations.NopChangesNothing : Prop :=
  (∀ s : State, exec .nop s = answers s s.arch okResponse) ∧
  (∀ dw : Word, decode 0x00000000#32 dw = .ok .nop) ∧ rejectsMalformed 0x00#8 0 0

/-- R241 CLR: legal always; afterwards the state is the reset state; and no other command clears ERR or ECODE. -/
def Obligations.ClrRestoresTheResetState : Prop :=
  (∀ s : State, exec .clr s = answers s State.reset.arch okResponse) ∧
  (∀ (i : Instr) (s t : State), i ≠ .clr → s.arch.err = true → exec i s = .next t →
    t.arch.err = true ∧ t.arch.ecode = s.arch.ecode) ∧
  (∀ dw : Word, decode 0x01000000#32 dw = .ok .clr) ∧ rejectsMalformed 0x01#8 0 0

/-- R35: STATUS as a number, and its reserved bits. -/
def Obligations.StatusWordIsTheWeightedSum : Prop :=
  ∀ a : Arch,
    (status a).toNat = a.mode.code.toNat + 8 * a.hm.toNat + 16 * a.klong.toNat + 32 * a.cact.toNat + 128 * a.err.toNat +
      256 * a.ecode.code.toNat + 65536 * a.t.toNat + 8388608 * a.fill.toNat ∧
    (a.mode.code.toNat, a.ecode.code.toNat) =
      (match a.mode with | .idle => 0 | .hash => 1 | .key => 2 | .hmsg => 3 | .raw => 4 | .done => 5,
       match a.ecode with | .noError => 0 | .illop => 1 | .illarg => 2 | .seq => 3 | .lenovf => 4) ∧
    (status a).getLsbD 6 = false ∧ (status a).extractLsb' 12 4 = 0#4

/-- R242 RDSTAT: legal always; it returns STATUS and changes nothing. -/
def Obligations.RdstatReturnsStatus : Prop :=
  (∀ s : State, exec .rdstat s = answers s s.arch (readResponse (status s.arch))) ∧
  (∀ dw : Word, decode 0x02000000#32 dw = .ok .rdstat) ∧ rejectsMalformed 0x02#8 0 0

/-! ### The hash engine -/

/-- R200 HINIT: everything cleared, H = IV, MODE = HASH, from any mode; so a computation starts from the same registers
whatever the core did before. -/
def Obligations.HinitStartsAFreshHash : Prop :=
  (∀ s : State, s.arch.err = false →
    exec .hinit s = answers s { State.reset.arch with h := iv, mode := .hash } okResponse) ∧
  status { State.reset.arch with h := iv, mode := .hash } = 0x00000001#32 ∧
  rejectsOutOfSequence .hinit ∧ (∀ dw : Word, decode 0x10000000#32 dw = .ok .hinit) ∧ rejectsMalformed 0x10#8 0 0

/-- R201 PUSH, with R195, R196, R221: the n bits are ORed into BUF from stream position FILL on; when a block fills, it is
compressed and the bits left over start the next; LEN grows by n; in KEY mode the bits also go to K0 and KLONG says
whether the key has passed 512 bits. Everything else stays. -/
def Obligations.PushAbsorbsItsBits : Prop :=
  ∀ (s : State) (n : Nat) (dw : Word), s.arch.err = false → 1 ≤ n → n ≤ 32 →
    s.arch.mode = .hash ∨ s.arch.mode = .key ∨ s.arch.mode = .hmsg → s.arch.len.toNat + n ≤ 2 ^ 64 - 1 →
    ∃ a : Arch, exec (.push n dw) s = answers s a okResponse ∧
      a.len.toNat = s.arch.len.toNat + n ∧
      (s.arch.fill.toNat + n < 512 →
        a.fill.toNat = s.arch.fill.toNat + n ∧
        (∀ p : Fin 512, bitAt a.buf p = (bitAt s.arch.buf p ||
          (decide (s.arch.fill.toNat ≤ p.val ∧ p.val < s.arch.fill.toNat + n) && dw.getLsbD (31 - (p.val - s.arch.fill.toNat))))) ∧
        onlyChanges [.buf, .fill, .len, .k0, .klong] s.arch a) ∧
      (512 ≤ s.arch.fill.toNat + n →
        a.fill.toNat = s.arch.fill.toNat + n - 512 ∧
        (∀ p : Fin 512, bitAt a.buf p =
          (decide (p.val < s.arch.fill.toNat + n - 512) && dw.getLsbD (31 - (p.val + 512 - s.arch.fill.toNat)))) ∧
        ∃ b : Block,
          (∀ p : Fin 512, bitAt b p = (bitAt s.arch.buf p ||
            (decide (s.arch.fill.toNat ≤ p.val) && dw.getLsbD (31 - (p.val - s.arch.fill.toNat))))) ∧
          a.h = compressBlock s.arch.h b ∧ a.v = workingState s.arch.h b 64 ∧ a.win = zeroBlock ∧ a.t = 0#7 ∧
          onlyChanges [.h, .v, .win, .t, .buf, .fill, .len, .k0, .klong] s.arch a) ∧
      (s.arch.mode ≠ .key → a.k0 = s.arch.k0 ∧ a.klong = s.arch.klong) ∧
      (s.arch.mode = .key →
        (∀ p : Fin 512, bitAt a.k0 p = (bitAt s.arch.k0 p ||
          (decide (s.arch.len.toNat ≤ p.val ∧ p.val < s.arch.len.toNat + n) && dw.getLsbD (31 - (p.val - s.arch.len.toNat))))) ∧
        a.klong = (s.arch.klong || decide (s.arch.len.toNat + n > 512)))

/-- R63: consecutive pushes concatenate: n bits and then m bits are the same as n + m bits at once.
The spec marks this as derived. -/
def Obligations.ConsecutivePushesConcatenate : Prop :=
  ∀ (s : State) (n m : Nat) (dw : Word), s.arch.err = false → 1 ≤ n → 1 ≤ m → n + m ≤ 32 →
    s.arch.mode = .hash ∨ s.arch.mode = .key ∨ s.arch.mode = .hmsg → s.arch.len.toNat + (n + m) ≤ 2 ^ 64 - 1 →
    ∃ t u : State, exec (.push n dw) s = .next t ∧ exec (.push m (dw <<< n)) t = .next u ∧
      exec (.push (n + m) dw) s = .next u

/-- R202 FINAL in HASH mode, with R197: the tail is padded and compressed, and the digest is in H. -/
def Obligations.FinalFinishesTheHash : Prop :=
  ∀ s : State, s.arch.err = false → s.arch.mode = .hash →
    ∃ a : Arch, exec .final s = answers s a okResponse ∧ a.mode = .done ∧ a.h = finalChaining s.arch ∧
      a.v = finalWorking s.arch ∧ a.buf = zeroBlock ∧ a.win = zeroBlock ∧ a.fill = 0#9 ∧ a.t = 0#7 ∧
      onlyChanges [.h, .v, .win, .buf, .fill, .t, .mode] s.arch a

/-- R203 RDDIG: in DONE mode it returns H[i] and changes nothing; elsewhere it is rejected. -/
def Obligations.RddigReturnsADigestWord : Prop :=
  ∀ i : Fin 8,
    (∀ s : State, s.arch.err = false → s.arch.mode = .done →
      exec (.rddig i) s = answers s s.arch (readResponse s.arch.h[i])) ∧
    rejectsOutOfSequence (.rddig i) ∧
    (∀ dw : Word, decode (0x15000000#32 + BitVec.ofNat 32 i.val) dw = .ok (.rddig i)) ∧ rejectsMalformed 0x15#8 0 7

/-! ### The HMAC controller -/

/-- R220 MINIT: everything cleared, H = IV, HM = 1, MODE = KEY. -/
def Obligations.MinitStartsTheKeyPhase : Prop :=
  (∀ s : State, s.arch.err = false →
    exec .minit s = answers s { State.reset.arch with h := iv, hm := true, mode := .key } okResponse) ∧
  status { State.reset.arch with h := iv, hm := true, mode := .key } = 0x0000000A#32 ∧
  rejectsOutOfSequence .minit ∧ (∀ dw : Word, decode 0x11000000#32 dw = .ok .minit) ∧ rejectsMalformed 0x11#8 0 0

/-- R222 KEND: K0 is kept for a key of at most 512 bits and is the zero-padded hash of a longer one; then one compression of
K0 masked with ipad opens the inner hash. -/
def Obligations.KendFormsTheKeyAndOpensTheInnerHash : Prop :=
  (∀ s : State, s.arch.err = false → s.arch.mode = .key →
    ∃ a : Arch, exec .kend s = answers s a okResponse ∧
      (s.arch.len.toNat ≤ 512 → a.k0 = s.arch.k0) ∧
      (s.arch.len.toNat > 512 →
        ∀ j : Fin 16, a.k0[j] = if h : j.val < 8 then (finalChaining s.arch)[j.val] else 0#32) ∧
      a.h = compressBlock iv (Vector.ofFn fun j => a.k0[j] ^^^ 0x36363636#32) ∧
      a.v = workingState iv (Vector.ofFn fun j => a.k0[j] ^^^ 0x36363636#32) 64 ∧
      a.win = zeroBlock ∧ a.t = 0#7 ∧ a.buf = zeroBlock ∧ a.fill = 0#9 ∧ a.len = 512#64 ∧ a.mode = .hmsg ∧
      onlyChanges [.h, .v, .win, .t, .buf, .fill, .len, .k0, .mode] s.arch a) ∧
  rejectsOutOfSequence .kend ∧ (∀ dw : Word, decode 0x12000000#32 dw = .ok .kend) ∧ rejectsMalformed 0x12#8 0 0

/-- R224, the body of FINAL in HMSG mode: INNER is the finished inner hash, and H is the outer hash of K0 masked with opad
and of INNER. K0 keeps its value. -/
def Obligations.FinalFinishesTheHmac : Prop :=
  ∀ s : State, s.arch.err = false → s.arch.mode = .hmsg →
    ∃ a : Arch, exec .final s = answers s a okResponse ∧ a.mode = .done ∧
      a.inner = finalChaining s.arch ∧
      a.h = compressBlock (compressBlock iv (Vector.ofFn fun j => s.arch.k0[j] ^^^ 0x5C5C5C5C#32)) (outerTailBlock a.inner) ∧
      a.v = workingState (compressBlock iv (Vector.ofFn fun j => s.arch.k0[j] ^^^ 0x5C5C5C5C#32)) (outerTailBlock a.inner) 64 ∧
      a.len = 768#64 ∧ a.fill = 0#9 ∧ a.buf = zeroBlock ∧ a.win = zeroBlock ∧ a.t = 0#7 ∧
      onlyChanges [.h, .v, .win, .buf, .fill, .t, .len, .inner, .mode] s.arch a

/-- R202: FINAL outside HASH and HMSG is rejected, and its encoding. -/
def Obligations.FinalIsRejectedElsewhere : Prop :=
  rejectsOutOfSequence .final ∧ (∀ dw : Word, decode 0x14000000#32 dw = .ok .final) ∧ rejectsMalformed 0x14#8 0 0

/-! ### RAW mode -/

/-- R243 RINIT: everything cleared, H = IV, MODE = RAW: nothing of an earlier computation is left to read. It is the only
way into RAW mode, and a streaming mode is reached from RAW through HINIT or MINIT alone. -/
def Obligations.RinitEntersRawWithNothingLeft : Prop :=
  (∀ s : State, s.arch.err = false →
    exec .rinit s = answers s { State.reset.arch with h := iv, mode := .raw } okResponse) ∧
  status { State.reset.arch with h := iv, mode := .raw } = 0x00000004#32 ∧
  (∀ (i : Instr) (s t : State), exec i s = .next t → s.arch.mode ≠ .raw → t.arch.mode = .raw → i = .rinit) ∧
  (∀ (i : Instr) (s t : State), exec i s = .next t → s.arch.mode = .raw →
    t.arch.mode = .hash ∨ t.arch.mode = .key ∨ t.arch.mode = .hmsg → i = .hinit ∨ i = .minit) ∧
  rejectsOutOfSequence .rinit ∧ (∀ dw : Word, decode 0x20000000#32 dw = .ok .rinit) ∧ rejectsMalformed 0x20#8 0 0

/-- R244 WRH: H[i] <- dw and nothing else. -/
def Obligations.WrhWritesOneChainingWord : Prop :=
  ∀ (i : Fin 8) (dw : Word),
    (∀ s : State, s.arch.err = false → s.arch.mode = .raw → s.arch.cact = false →
      ∃ a : Arch, exec (.wrh i dw) s = answers s a okResponse ∧
        (∀ j : Fin 8, a.h[j] = if j = i then dw else s.arch.h[j]) ∧ onlyChanges [.h] s.arch a) ∧
    rejectsOutOfSequence (.wrh i dw) ∧
    decode (0x21000000#32 + BitVec.ofNat 32 i.val) dw = .ok (.wrh i dw) ∧ rejectsMalformed 0x21#8 0 7

/-- R245 WRB: BUF[i] <- dw and nothing else; FILL and LEN stay. -/
def Obligations.WrbWritesOneBlockWord : Prop :=
  ∀ (i : Fin 16) (dw : Word),
    (∀ s : State, s.arch.err = false → s.arch.mode = .raw → s.arch.cact = false →
      ∃ a : Arch, exec (.wrb i dw) s = answers s a okResponse ∧
        (∀ j : Fin 16, a.buf[j] = if j = i then dw else s.arch.buf[j]) ∧ onlyChanges [.buf] s.arch a) ∧
    rejectsOutOfSequence (.wrb i dw) ∧
    decode (0x22000000#32 + BitVec.ofNat 32 i.val) dw = .ok (.wrb i dw) ∧ rejectsMalformed 0x22#8 0 15

/-- R150, R246, R247, R248: the four RAW reads return the word and change nothing, with CACT either. -/
def Obligations.RawReadsReturnTheWord : Prop :=
  (∀ s : State, s.arch.err = false → s.arch.mode = .raw →
    (∀ i : Fin 8, exec (.rdh i) s = answers s s.arch (readResponse s.arch.h[i]) ∧
      exec (.rdv i) s = answers s s.arch (readResponse s.arch.v[i])) ∧
    ∀ j : Fin 16, exec (.rdw j) s = answers s s.arch (readResponse s.arch.win[j]) ∧
      exec (.rdb j) s = answers s s.arch (readResponse s.arch.buf[j])) ∧
  (∀ (i : Fin 8) (dw : Word), rejectsOutOfSequence (.rdh i) ∧ rejectsOutOfSequence (.rdv i) ∧
    decode (0x27000000#32 + BitVec.ofNat 32 i.val) dw = .ok (.rdh i) ∧
    decode (0x28000000#32 + BitVec.ofNat 32 i.val) dw = .ok (.rdv i)) ∧
  (∀ (j : Fin 16) (dw : Word), rejectsOutOfSequence (.rdw j) ∧ rejectsOutOfSequence (.rdb j) ∧
    decode (0x29000000#32 + BitVec.ofNat 32 j.val) dw = .ok (.rdw j) ∧
    decode (0x2A000000#32 + BitVec.ofNat 32 j.val) dw = .ok (.rdb j)) ∧
  rejectsMalformed 0x27#8 0 7 ∧ rejectsMalformed 0x28#8 0 7 ∧ rejectsMalformed 0x29#8 0 15 ∧ rejectsMalformed 0x2A#8 0 15

/-- R170 COMP, with R168 and R169: H becomes Compress(H, BUF), V the working state after 64 rounds, which is also H_after -
H_before; WIN ends all zero, T is 0, BUF is kept. What V, WIN and T hold afterwards is R168's, which the spec marks as
derived. -/
def Obligations.CompComputesTheCompressionFunction : Prop :=
  (∀ s : State, s.arch.err = false → s.arch.mode = .raw → s.arch.cact = false →
    ∃ a : Arch, exec .comp s = answers s a okResponse ∧ a.h = compressBlock s.arch.h s.arch.buf ∧
      a.v = workingState s.arch.h s.arch.buf 64 ∧ (∀ i : Fin 8, a.v[i] = a.h[i] - s.arch.h[i]) ∧
      a.win = zeroBlock ∧ a.t = 0#7 ∧ onlyChanges [.h, .v, .win, .t] s.arch a) ∧
  rejectsOutOfSequence .comp ∧ (∀ dw : Word, decode 0x23000000#32 dw = .ok .comp) ∧ rejectsMalformed 0x23#8 0 0

/-- R171 CLOAD, with R165: V <- H, WIN <- BUF, T <- 0, CACT <- 1. -/
def Obligations.CloadLoadsTheWorkingState : Prop :=
  (∀ s : State, s.arch.err = false → s.arch.mode = .raw → s.arch.cact = false →
    ∃ a : Arch, exec .cload s = answers s a okResponse ∧ (∀ i : Fin 8, a.v[i] = s.arch.h[i]) ∧
      (∀ j : Fin 16, a.win[j] = s.arch.buf[j]) ∧ a.t = 0#7 ∧ a.cact = true ∧ onlyChanges [.v, .win, .t, .cact] s.arch a) ∧
  rejectsOutOfSequence .cload ∧ (∀ dw : Word, decode 0x24000000#32 dw = .ok .cload) ∧ rejectsMalformed 0x24#8 0 0

/-- R172 STEP, with R164, R166 and R145: one round of the mixer and one step of the expander, both from the old state, in
plain bit-vector arithmetic. -/
def Obligations.StepCommandRunsOneRound : Prop :=
  (∀ s : State, s.arch.err = false → s.arch.mode = .raw → s.arch.cact = true → s.arch.t.toNat < 64 →
    ∃ r : Arch, exec .step s = answers s r okResponse ∧
      (let a := s.arch.v[0]; let b := s.arch.v[1]; let c := s.arch.v[2]; let d := s.arch.v[3]
       let e := s.arch.v[4]; let f := s.arch.v[5]; let g := s.arch.v[6]; let h := s.arch.v[7]
       let t1 := h + (e.rotateRight 6 ^^^ e.rotateRight 11 ^^^ e.rotateRight 25) + ((e &&& f) ^^^ (~~~e &&& g)) +
         roundConstant s.arch.t.toNat + s.arch.win[0]
       let t2 := (a.rotateRight 2 ^^^ a.rotateRight 13 ^^^ a.rotateRight 22) +
         ((a &&& b) ^^^ (a &&& c) ^^^ (b &&& c))
       r.v = #v[t1 + t2, a, b, c, d + t1, e, f, g]) ∧
      (∀ j : Fin 15, r.win[j.val] = s.arch.win[j.val + 1]) ∧
      r.win[15] = (if s.arch.t.toNat < 48 then
          (s.arch.win[14].rotateRight 17 ^^^ s.arch.win[14].rotateRight 19 ^^^ s.arch.win[14] >>> 10) + s.arch.win[9] +
          (s.arch.win[1].rotateRight 7 ^^^ s.arch.win[1].rotateRight 18 ^^^ s.arch.win[1] >>> 3) + s.arch.win[0]
        else 0#32) ∧
      r.t.toNat = s.arch.t.toNat + 1 ∧ onlyChanges [.v, .win, .t] s.arch r) ∧
  rejectsOutOfSequence .step ∧ (∀ dw : Word, decode 0x25000000#32 dw = .ok .step) ∧ rejectsMalformed 0x25#8 0 0

/-- R173 CFIN, with R167: the feed-forward, and the end of the stepped compression. -/
def Obligations.CfinAddsTheWorkingState : Prop :=
  (∀ s : State, s.arch.err = false → s.arch.mode = .raw → s.arch.cact = true → s.arch.t.toNat = 64 →
    ∃ a : Arch, exec .cfin s = answers s a okResponse ∧ (∀ i : Fin 8, a.h[i] = s.arch.h[i] + s.arch.v[i]) ∧
      a.t = 0#7 ∧ a.cact = false ∧ onlyChanges [.h, .t, .cact] s.arch a) ∧
  rejectsOutOfSequence .cfin ∧ (∀ dw : Word, decode 0x26000000#32 dw = .ok .cfin) ∧ rejectsMalformed 0x26#8 0 0

/-- R146, R150, R247: after CLOAD and t STEPs, RDW j returns W[t + j] of the block's schedule if t + j <= 63 and 0 otherwise,
and RDV i returns word i of V_t. The spec marks this as derived. -/
def Obligations.SteppedCompressionShowsScheduleAndState : Prop :=
  ∀ (s : State) (t : Nat) (rest : List PortEvent), s.arch.err = false → s.arch.mode = .raw → s.arch.cact = false →
    t ≤ 64 → s.inbox = issue (.cload :: stepTimes t) ++ rest →
    ∃ u : State, run (t + 1) s = .next u ∧ u.inbox = rest ∧ u.arch.t.toNat = t ∧ u.arch.cact = true ∧
      u.arch.h = s.arch.h ∧ u.arch.buf = s.arch.buf ∧
      (∀ j : Fin 16, exec (.rdw j) u =
        answers u u.arch (readResponse (if t + j.val ≤ 63 then scheduleWord s.arch.buf (t + j.val) else 0#32))) ∧
      ∀ i : Fin 8, exec (.rdv i) u = answers u u.arch (readResponse (workingState s.arch.h s.arch.buf t)[i])

/-- R174: CLOAD, 64 STEPs and CFIN, with read commands, NOP and RDSTAT interleaved freely, leave the registers exactly as
COMP does from the same state. The spec marks this as derived. -/
def Obligations.SteppedCompressionEqualsComp : Prop :=
  ∀ (s : State) (cmds : List Instr) (rest : List PortEvent), s.arch.err = false → s.arch.mode = .raw →
    s.arch.cact = false → cmds.filter (fun i => !passiveInRaw i) = .cload :: stepTimes 64 ++ [.cfin] →
    s.inbox = issue cmds ++ rest →
    ∃ t u : State, run cmds.length s = .next t ∧ exec .comp s = .next u ∧ t.arch = u.arch ∧ t.inbox = rest

/-- R249: a full SHA-256 in RAW mode: the host pads in software, writes each block and issues COMP.
The spec marks this as derived. -/
def Obligations.RawModeComputesTheHash : Prop :=
  ∀ (s : State) (m : Bits) (rest : List PortEvent), s.arch.err = false → m.length < 2 ^ 64 →
    s.inbox = issue (.rinit :: (blocksOf (pad m)).flatMap fun b => writeBlock b ++ [.comp]) ++ rest →
    ∃ t : State, run (1 + 17 * (blocksOf (pad m)).length) s = .next t ∧ t.arch.mode = .raw ∧
      t.arch.h = sha256 m ∧ t.inbox = rest ∧
      ∀ i : Fin 8, exec (.rdh i) t = answers t t.arch (readResponse (sha256 m)[i])

/-- R249: RAW mode is left only by CLR, HINIT, MINIT (or restarted by RINIT), and no other command executed there touches K0,
INNER, LEN, FILL, HM or KLONG. -/
def Obligations.RawModeIsClosed : Prop :=
  ∀ (i : Instr) (s t : State), s.arch.mode = .raw → exec i s = .next t →
    i = .clr ∨ i = .hinit ∨ i = .minit ∨ i = .rinit ∨
      (t.arch.mode = .raw ∧ ∀ e ∈ [Element.k0, .inner, .len, .fill, .hm, .klong], e.same s.arch t.arch)

/-! ### What the machine computes -/

/-- R199: after HINIT, pushes whose bits concatenate to M, and FINAL, the digest is Hash(M), and RDDIG reads it. NOP and
RDSTAT, which change no state, may stand between. The spec marks this as derived. -/
def Obligations.StreamedMessageHashesToSha256 : Prop :=
  ∀ (s : State) (cmds : List Instr) (rest : List PortEvent), s.arch.err = false →
    (∀ i ∈ cmds, streamCommand i = true) → (messageOf cmds).length ≤ 2 ^ 64 - 1 →
    s.inbox = issue (.hinit :: cmds ++ [.final]) ++ rest →
    ∃ t : State, run (cmds.length + 2) s = .next t ∧ t.inbox = rest ∧ t.arch.mode = .done ∧
      t.arch.h = sha256 (messageOf cmds) ∧ t.arch.hm = false ∧ t.arch.len.toNat = (messageOf cmds).length ∧
      ∀ i : Fin 8, exec (.rddig i) t = answers t t.arch (readResponse (sha256 (messageOf cmds))[i])

/-- R226: after MINIT, pushes of the key, KEND, pushes of the message, and FINAL, the digest is Hmac(message, key), HM is 1,
KLONG says whether the key is longer than 512 bits, and RDDIG reads the MAC. The spec marks this as derived. -/
def Obligations.StreamedKeyAndMessageGiveTheHmac : Prop :=
  ∀ (s : State) (keyCmds msgCmds : List Instr) (rest : List PortEvent), s.arch.err = false →
    (∀ i ∈ keyCmds, streamCommand i = true) → (∀ i ∈ msgCmds, streamCommand i = true) →
    (messageOf keyCmds).length ≤ 2 ^ 64 - 1 → (messageOf msgCmds).length ≤ 2 ^ 64 - 1 - 512 →
    s.inbox = issue (.minit :: keyCmds ++ .kend :: msgCmds ++ [.final]) ++ rest →
    ∃ t : State, run (keyCmds.length + msgCmds.length + 3) s = .next t ∧ t.inbox = rest ∧ t.arch.mode = .done ∧
      t.arch.hm = true ∧ t.arch.klong = decide ((messageOf keyCmds).length > 512) ∧
      t.arch.h = hmacSha256 (messageOf msgCmds) (messageOf keyCmds) ∧
      ∀ i : Fin 8, exec (.rddig i) t =
        answers t t.arch (readResponse (hmacSha256 (messageOf msgCmds) (messageOf keyCmds))[i])

/-- R38 items 5 and 6, with R27, R28 and R29: while a stream is open, LEN is the number of bits absorbed (the 512 of the
masked key first, in HMSG), FILL is LEN mod 512, BUF holds the last FILL of them and zeros after; and in KEY mode K0 holds
the first min(LEN, 512) key bits and zeros after, and KLONG says whether LEN > 512. The spec marks this as derived. -/
def Obligations.OpenStreamHoldsItsBits : Prop :=
  ∀ (s : State) (opening cmds : List Instr) (mode : Mode) (base : Nat) (rest : List PortEvent), s.arch.err = false →
    (opening = [.hinit] ∧ mode = .hash ∧ base = 0 ∨ opening = [.minit] ∧ mode = .key ∧ base = 0 ∨
      ∃ keyCmds : List Instr, (∀ i ∈ keyCmds, streamCommand i = true) ∧ (messageOf keyCmds).length ≤ 2 ^ 64 - 1 ∧
        opening = .minit :: keyCmds ++ [.kend] ∧ mode = .hmsg ∧ base = 512) →
    (∀ i ∈ cmds, streamCommand i = true) → base + (messageOf cmds).length ≤ 2 ^ 64 - 1 →
    s.inbox = issue (opening ++ cmds) ++ rest →
    ∃ t : State, run (opening ++ cmds).length s = .next t ∧ t.inbox = rest ∧ t.arch.mode = mode ∧ t.arch.err = false ∧
      t.arch.len.toNat = base + (messageOf cmds).length ∧ t.arch.fill.toNat = t.arch.len.toNat % 512 ∧
      (∀ p : Fin 512, bitAt t.arch.buf p =
        (decide (p.val < t.arch.fill.toNat) &&
          (messageOf cmds).getD ((messageOf cmds).length - t.arch.fill.toNat + p.val) false)) ∧
      (mode = .key → (∀ p : Fin 512, bitAt t.arch.k0 p = (messageOf cmds).getD p.val false) ∧
        t.arch.klong = decide ((messageOf cmds).length > 512))

/-- R198: the blocks that Absorb(M) and then Finalise() hand to Compress, from Start(), are the blocks of Pad(M), in order;
and H is their chaining from IV. The spec marks this as derived. -/
def Obligations.StreamedBlocksAreTheBlocksOfPad : Prop :=
  ∀ (a : Arch) (m : Bits), m.length < 2 ^ 64 →
    blocksOfAbsorb a.start m ++ blocksOfFinalise (a.start.absorb m) = blocksOf (pad m) ∧
    (a.start.absorb m).finalise.h = (blocksOf (pad m)).foldl compressBlock iv

/-- R320, R72: the compressions each executing command performs, which depend on FILL and LEN only; and that the next state
of exec is what those compressions leave. The blocks of `chainings` are as many as the table says. Where there is none, H
and V are what R320 leaves to the command (CLOAD the load alone, STEP one round, CFIN the feed-forward alone, no change for
the others but CLR, the INIT commands and WRH). Where there are some, H is the chaining of the last computation's blocks from
the value it starts at, and V the working state of its last block. Where there are two computations, the first ends in K0 for
KEND and in INNER for FINAL. The spec marks this as derived. -/
def Obligations.CompressionCountsAreAsTabled : Prop :=
  ∀ (i : Instr) (s : State), executesNow i s.arch →
    ∃ (a : Arch) (r : Response), exec i s = answers s a r ∧
      (blocksCompressed i s.arch).length = compressionCount i s.arch ∧ compressionCount i s.arch ≤ 4 ∧
      (blocksCompressed i s.arch = [] → a.h = hUncompressed i s.arch ∧ a.v = vUncompressed i s.arch) ∧
      (∀ (start : Words8) (bs : List Block) (b : Block), (chainings i s.arch).getLast? = some (start, bs ++ [b]) →
        a.h = chain start (bs ++ [b]) ∧ a.v = workingState (chain start bs) b 64) ∧
      ∀ (start : Words8) (bs : List Block) (last : Words8 × List Block), chainings i s.arch = [(start, bs), last] →
        (i = .kend → ∀ j : Fin 16, a.k0[j] = if h : j.val < 8 then (chain start bs)[j.val] else 0#32) ∧
        (i = .final → a.inner = chain start bs)

/-! ### Invariants and whole-machine rules -/

/-- R38 at reset. The spec marks this as derived. -/
def Obligations.ResetIsConsistent : Prop := State.reset.arch.Consistent

/-- R38, with R25, R146 and R249: every step keeps the invariants. The spec marks this as derived. -/
def Obligations.EveryStepKeepsConsistency : Prop :=
  ∀ s t : State, s.arch.Consistent → step s = .next t → t.arch.Consistent

/-- R39: a command that executes changes no element that the access matrix does not mark as written. The premise is R38 item 1,
of which EveryStepKeepsConsistency and ResetIsConsistent speak; without it HINIT, MINIT and RINIT, whose ERR/ECODE the matrix
marks as read only, would fail in states with ERR = 0 and ECODE not 0, which no run reaches (log entry 15). The spec marks
this as derived. -/
def Obligations.AccessMatrixBoundsWrites : Prop :=
  ∀ (i : Instr) (s : State), s.arch.countersInRange → executesNow i s.arch →
    ∃ (a : Arch) (r : Response), exec i s = answers s a r ∧ onlyChanges (writes i s.arch.mode) s.arch a

/-- R39: what a command does depends only on the elements the access matrix marks as read: two states that agree on those
give the same response, and every element they agree on before they agree on after. The spec marks this as derived. -/
def Obligations.UnreadElementsDoNotFlow : Prop :=
  ∀ (i : Instr) (s s' t t' : State), (∀ e ∈ reads i s.arch.mode, e.same s.arch s'.arch) →
    exec i s = .next t → exec i s' = .next t' →
    t.response = t'.response ∧ ∀ e : Element, e.same s.arch s'.arch → e.same t.arch t'.arch

/-- R67, R43: what a command does depends on the registers alone, not on what the host presents later or was answered before;
and it leaves what the host presents later as it is. (The port's fields are the model's, log entry 1.) -/
def Obligations.CommandsDependOnRegistersAlone : Prop :=
  ∀ (i : Instr) (s s' t : State), s.arch = s'.arch → exec i s = .next t →
    t.inbox = s.inbox ∧ exec i s' = .next { t with inbox := s'.inbox }

/-! ### The function level -/

/-- R110, R111, R112, R114, R162, R163: the operators, bit by bit and as numbers. -/
def Obligations.WordOperatorsMeetTheirRules : Prop :=
  (∀ xs : List Word, (add32 xs).toNat = (xs.map BitVec.toNat).sum % 2 ^ 32) ∧
  (∀ xs ys : List Word, xs.Perm ys → add32 xs = add32 ys) ∧
  (∀ xs ys : List Word, add32 (xs ++ ys) = add32 [add32 xs, add32 ys]) ∧
  (∀ (x : Word) (n i : Nat), 0 < n → n < 32 → i < 32 → (rotr x n).getLsbD i = x.getLsbD ((i + n) % 32)) ∧
  (∀ (x : Word) (n : Nat), (shr x n).toNat = x.toNat / 2 ^ n) ∧
  (∀ x : Word, (~~~x).toNat = 0xFFFFFFFF - x.toNat) ∧
  (∀ (x y z : Word) (i : Nat), i < 32 →
    (ch x y z).getLsbD i = (if x.getLsbD i then y.getLsbD i else z.getLsbD i) ∧
    (maj x y z).getLsbD i = decide (2 ≤ (x.getLsbD i).toNat + (y.getLsbD i).toNat + (z.getLsbD i).toNat))

/-- R130, R131: every K[t] is floor(cbrt(p_t) * 2^32) mod 2^32 and every IV[i] is floor(sqrt(p_i) * 2^32) mod 2^32, where p_t
is the t-th prime. (The spec marks the reading of IV as general knowledge, log entry 7.) -/
def Obligations.TablesAreTheRootsOfThePrimes : Prop :=
  (∀ t : Nat, t < 64 → ∃ q : Nat, q ^ 3 ≤ Nat.nth Nat.Prime t * 2 ^ 96 ∧ Nat.nth Nat.Prime t * 2 ^ 96 < (q + 1) ^ 3 ∧
    (roundConstant t).toNat = q % 2 ^ 32) ∧
  ∀ i : Fin 8, ∃ q : Nat, q ^ 2 ≤ Nat.nth Nat.Prime i.val * 2 ^ 64 ∧ Nat.nth Nat.Prime i.val * 2 ^ 64 < (q + 1) ^ 2 ∧
    iv[i].toNat = q % 2 ^ 32

/-- R142: the schedule is the block and then the recurrence. -/
def Obligations.ScheduleFollowsTheRecurrence : Prop :=
  ∀ b : Block, (sched b).length = 64 ∧ (∀ j : Fin 16, scheduleWord b j.val = b[j]) ∧
    (∀ i : Nat, 16 ≤ i → i < 64 → scheduleWord b i =
      sigma1 (scheduleWord b (i - 2)) + scheduleWord b (i - 7) + sigma0 (scheduleWord b (i - 15)) + scheduleWord b (i - 16))

/-- R190, R191: the padding, its length and the number of blocks. The spec marks this as derived. -/
def Obligations.PaddingFillsWholeBlocks : Prop :=
  ∀ m : Bits, m.length < 2 ^ 64 →
    (∃ k : Nat, k < 512 ∧ (m.length + 1 + k) % 512 = 448 ∧
      pad m = m ++ [true] ++ List.replicate k false ++ beBits 64 m.length) ∧
    (pad m).length = 512 * ((m.length + 64) / 512 + 1) ∧ m.length < (pad m).length ∧
    (blocksOf (pad m)).length = (m.length + 64) / 512 + 1

/-- R193, R62(c): the digest is 256 bits, most significant word and byte first. -/
def Obligations.DigestIs256BitsBigEndian : Prop :=
  ∀ d : Words8, (digestBits d).length = 256 ∧
    (∀ (i : Fin 8) (k : Nat), k < 32 → (digestBits d)[32 * i.val + k]? = some (d[i].getLsbD (31 - k))) ∧
    (∀ (i : Fin 8) (k : Nat), k < 4 →
      (digestBytes d)[4 * i.val + k]? = some (d[i].extractLsb' (24 - 8 * k) 8)) ∧
    digestBits d = bytesBits ((digestBytes d).map BitVec.toNat)

/-- R223: the key block is 512 bits: the key itself, or the hash of one longer than 512 bits, and then zeros. R223 gives it
for keys of fewer than 2^64 bits; for longer ones the statement is about the model's choice (log entry 13). -/
def Obligations.KeyBlockIs512Bits : Prop :=
  ∀ key : Bits, (keyBlock key).length = 512 ∧
    (key.length ≤ 512 → (keyBlock key).take key.length = key ∧ ∀ p, key.length ≤ p → p < 512 → (keyBlock key)[p]? = some false) ∧
    (512 < key.length → keyBlock key = digestBits (sha256 key) ++ List.replicate 256 false)

/-- R94 PUSHBITS: the expansion pushes exactly the bits, in legal commands, 32 at a time. -/
def Obligations.PushbitsExpandsToTheBits : Prop :=
  ∀ s : Bits, messageOf (pushBitString s) = s ∧ (∀ i ∈ pushBitString s, streamCommand i = true) ∧
    (pushBitString s).length = (s.length + 31) / 32
end

