-- ==== Sys2Proof/Laws/Schedule.lean ====
section
/-! SUPPORT. Lemmas about the word operators, the schedule and the window (rules R110, R142 to R147). -/

namespace Sys2Proof.Machine

theorem add32_pair (x y : Word) : add32 [x, y] = x + y := by
  apply BitVec.eq_of_toNat_eq
  simp [add32, BitVec.toNat_add]

/-- Reduction modulo 2^32 commutes with the addition of one more operand (R110). -/
theorem add32_cons (x : Word) (xs : List Word) : add32 (x :: xs) = x + add32 xs := by
  apply BitVec.eq_of_toNat_eq
  simp [add32, BitVec.toNat_add]

@[simp] theorem add32_nil : add32 [] = 0#32 := rfl

@[simp] theorem zeroBlock_getElem (j : Nat) (h : j < 16) : zeroBlock[j] = 0#32 := by
  simp [zeroBlock]

@[simp] theorem zeroWords8_getElem (j : Nat) (h : j < 8) : zeroWords8[j] = 0#32 := by
  simp [zeroWords8]

/-! ### The schedule -/

theorem extendSchedule_length (n : Nat) (ws : List Word) : (extendSchedule n ws).length = ws.length + n := by
  induction n generalizing ws with
  | zero => rfl
  | succ n ih => simp [extendSchedule, ih]; omega

/-- Extending a schedule keeps the words it has. -/
theorem extendSchedule_prefix (n : Nat) (ws : List Word) (i : Nat) (h : i < ws.length) :
    (extendSchedule n ws).getD i 0#32 = ws.getD i 0#32 := by
  induction n generalizing ws with
  | zero => rfl
  | succ n ih =>
    rw [extendSchedule, ih _ (by simp; omega)]
    simp [List.getElem?_append, h]

/-- R142: each word added is the recurrence over the words before it. -/
theorem extendSchedule_recurrence (n : Nat) (ws : List Word) (i : Nat) (h16 : 16 ≤ ws.length) (hlo : ws.length ≤ i)
    (hhi : i < ws.length + n) :
    (extendSchedule n ws).getD i 0#32 =
      add32 [sigma1 ((extendSchedule n ws).getD (i - 2) 0#32), (extendSchedule n ws).getD (i - 7) 0#32,
        sigma0 ((extendSchedule n ws).getD (i - 15) 0#32), (extendSchedule n ws).getD (i - 16) 0#32] := by
  induction n generalizing ws with
  | zero => omega
  | succ n ih =>
    have hlen : (ws ++ [nextScheduleWord ws]).length = ws.length + 1 := by simp
    rcases Nat.lt_or_ge ws.length i with hi | hi
    · exact ih _ (by omega) (by omega) (by omega)
    · obtain rfl : i = ws.length := by omega
      have old : ∀ k, 0 < k → k ≤ 16 →
          (extendSchedule n (ws ++ [nextScheduleWord ws])).getD (ws.length - k) 0#32 = ws.getD (ws.length - k) 0#32 := by
        intro k hk hk'
        rw [extendSchedule_prefix _ _ _ (by omega)]
        simp only [List.getD_eq_getElem?_getD]
        rw [List.getElem?_append_left (by omega)]
      rw [extendSchedule, old 2 (by omega) (by omega), old 7 (by omega) (by omega), old 15 (by omega) (by omega),
        old 16 (by omega) (by omega), extendSchedule_prefix _ _ _ (by omega)]
      simp [nextScheduleWord]

theorem scheduleWord_block (b : Block) (j : Nat) (h : j < 16) : scheduleWord b j = b[j] := by
  rw [scheduleWord, sched, extendSchedule_prefix _ _ _ (by simpa using h)]
  simp [h]

/-- R142, in the form the window step uses: the word 16 places on. -/
theorem scheduleWord_add_sixteen (b : Block) (t : Nat) (h : t < 48) :
    scheduleWord b (t + 16) =
      add32 [sigma1 (scheduleWord b (t + 14)), scheduleWord b (t + 9), sigma0 (scheduleWord b (t + 1)), scheduleWord b t] :=
  extendSchedule_recurrence 48 b.toList (t + 16) (by simp) (by simp) (by simp; omega)

/-! ### The window -/

theorem windowAt_getElem (b : Block) (t j : Nat) (h : j < 16) :
    (windowAt b t)[j] = if t + j < 64 then scheduleWord b (t + j) else 0#32 := by
  simp [windowAt]

/-- R144: the window right after the load. -/
theorem windowAt_zero (b : Block) : windowAt b 0 = b := by
  apply Vector.ext
  intro j h
  rw [windowAt_getElem, if_pos (by omega), Nat.zero_add, scheduleWord_block b j h]

/-- R147: after 64 steps the window is all zero. -/
theorem windowAt_end (b : Block) : windowAt b 64 = zeroBlock := by
  apply Vector.ext
  intro j h
  rw [windowAt_getElem, if_neg (by omega), zeroBlock_getElem _ h]

/-- R146: a window step takes the window of round t to that of round t + 1. -/
theorem windowStep_windowAt (b : Block) (t : Nat) : windowStep (windowAt b t) t = windowAt b (t + 1) := by
  apply Vector.ext
  intro j h
  rw [windowAt_getElem]
  simp only [windowStep, Vector.getElem_ofFn]
  split
  · rename_i hj
    rw [windowAt_getElem]
    simp only [show t + (j + 1) = t + 1 + j by omega]
  · obtain rfl : j = 15 := by omega
    simp only [windowInput, windowAt_getElem, Config.expandRounds, show t + 1 + 15 = t + 16 by omega, Nat.add_zero]
    split
    · rename_i ht
      rw [if_pos (by omega), if_pos (by omega), if_pos (by omega), if_pos (by omega), if_pos (by omega),
        scheduleWord_add_sixteen b t ht]
    · rw [if_neg (by omega)]

end Sys2Proof.Machine
end

