-- ==== Sys2Proof/Laws/Bits.lean ====
section
/-! SUPPORT. Bits of blocks and of bit sequences (rules R7, R26, R62, R82). -/

namespace Sys2Proof.Machine

/-! ### Blocks as 512 bits -/

/-- R195 step 1: ORing a bit into position p changes position p alone. -/
theorem bitAt_orBitAt (b : Block) (p q : Fin 512) (x : Bool) :
    bitAt (orBitAt b p x) q = (bitAt b q || (decide (q = p) && x)) := by
  have hone : ∀ k j : Nat, k < 32 → j < 32 → (1#32 <<< k).getLsbD j = decide (j = k) := by
    intro k j hk hj
    rw [← BitVec.twoPow_eq, BitVec.getLsbD_twoPow]
    by_cases h : k = j <;> simp [h, hk] <;> omega
  unfold bitAt orBitAt
  rw [Vector.getElem_set]
  by_cases hw : p.val / 32 = q.val / 32
  · rw [if_pos hw, BitVec.getLsbD_or]
    simp only [hw]
    congr 1
    cases x
    · simp
    · simp only [if_true, Bool.and_true]
      rw [hone _ _ (by omega) (by omega)]
      by_cases hq : q = p
      · simp [hq]
      · have : q.val ≠ p.val := fun h => hq (Fin.ext h)
        simp only [hq, decide_false, decide_eq_false_iff_not]
        omega
  · rw [if_neg hw]
    have : q ≠ p := fun h => hw (by rw [h])
    simp [this]

/-- Two blocks with the same 512 bits are the same block. -/
theorem block_ext {a b : Block} (h : ∀ p : Fin 512, bitAt a p = bitAt b p) : a = b := by
  apply Vector.ext
  intro j hj
  apply BitVec.eq_of_getLsbD_eq
  intro i hi
  have hp := h ⟨32 * j + (31 - i), by omega⟩
  simp only [bitAt] at hp
  have h1 : (32 * j + (31 - i)) / 32 = j := by omega
  have h2 : 31 - (32 * j + (31 - i)) % 32 = i := by omega
  simpa only [h1, h2] using hp

@[simp] theorem bitAt_zeroBlock (p : Fin 512) : bitAt zeroBlock p = false := by
  simp [bitAt]

/-! ### Bit sequences -/

@[simp] theorem pushBits_length (n : Nat) (dw : Word) : (pushBits n dw).length = n := by simp [pushBits]

@[simp] theorem beBits_length (w x : Nat) : (beBits w x).length = w := by simp [beBits]

@[simp] theorem wordBits_length (w : Word) : (wordBits w).length = 32 := by simp [wordBits]

theorem wordsBits_length (ws : List Word) : (wordsBits ws).length = 32 * ws.length := by
  induction ws with
  | nil => rfl
  | cons w ws ih =>
    rw [wordsBits] at ih ⊢
    rw [List.flatMap_cons, List.length_append, ih, wordBits_length, List.length_cons]
    omega

theorem pushBits_getElem? (n : Nat) (dw : Word) (k : Nat) (h : k < n) :
    (pushBits n dw)[k]? = some (dw.getLsbD (31 - k)) := by
  simp [pushBits, h]

theorem wordBits_getElem? (w : Word) (k : Nat) (h : k < 32) : (wordBits w)[k]? = some (w.getLsbD (31 - k)) := by
  simp [wordBits, beBits, h, BitVec.getLsbD]

/-- R7: bit k of word j of a sequence of words, most significant bit first. -/
theorem wordsBits_getElem? (ws : List Word) (j k : Nat) (hj : j < ws.length) (hk : k < 32) :
    (wordsBits ws)[32 * j + k]? = some ((ws.getD j 0#32).getLsbD (31 - k)) := by
  induction ws generalizing j with
  | nil => simp at hj
  | cons w ws ih =>
    rw [wordsBits] at ih ⊢
    rw [List.flatMap_cons]
    cases j with
    | zero =>
      rw [List.getElem?_append_left (by rw [wordBits_length]; omega), Nat.mul_zero, Nat.zero_add, wordBits_getElem? w k hk]
      rfl
    | succ j =>
      rw [List.getElem?_append_right (by rw [wordBits_length]; omega), wordBits_length,
        show 32 * (j + 1) + k - 32 = 32 * j + k by omega, ih j (by simpa using hj)]
      rfl

/-- A push of n + m bits is a push of n bits and one of the m bits below them (R63, R82). -/
theorem pushBits_append (n m : Nat) (dw : Word) (h : n + m ≤ 32) :
    pushBits (n + m) dw = pushBits n dw ++ pushBits m (dw <<< n) := by
  apply List.ext_getElem?
  intro k
  rcases Nat.lt_or_ge k n with hk | hk
  · rw [List.getElem?_append_left (by simpa using hk), pushBits_getElem? _ _ _ (by omega), pushBits_getElem? _ _ _ hk]
  · rw [List.getElem?_append_right (by simpa using hk), pushBits_length]
    rcases Nat.lt_or_ge k (n + m) with hk' | hk'
    · rw [pushBits_getElem? _ _ _ hk', pushBits_getElem? _ _ _ (by omega), BitVec.getLsbD_shiftLeft]
      congr 1
      have h1 : 31 - (k - n) < 32 := by omega
      have h2 : ¬ 31 - (k - n) < n := by omega
      have h3 : 31 - (k - n) - n = 31 - k := by omega
      simp [h1, h2, h3]
    · rw [List.getElem?_eq_none (by simpa using hk'), List.getElem?_eq_none (by simp; omega)]

end Sys2Proof.Machine
end

