-- ==== Sys2Proof/Laws/State.lean ====
section
/-! SUPPORT. One lemma per field per update, each true by rfl, so that no proof unfolds a record update. -/

namespace Sys2Proof.Machine

/-! ### State: arch, inbox, response -/

@[simp] theorem State.complete_arch (s : State) (a : Arch) : (s.complete a).arch = a := rfl
@[simp] theorem State.complete_inbox (s : State) (a : Arch) : (s.complete a).inbox = s.inbox := rfl
@[simp] theorem State.complete_response (s : State) (a : Arch) : (s.complete a).response = some okResponse := rfl

@[simp] theorem State.respond_arch (s : State) (v : Word) : (s.respond v).arch = s.arch := rfl
@[simp] theorem State.respond_inbox (s : State) (v : Word) : (s.respond v).inbox = s.inbox := rfl
@[simp] theorem State.respond_response (s : State) (v : Word) : (s.respond v).response = some (readResponse v) := rfl

@[simp] theorem State.rejectLocked_arch (s : State) : (s.rejectLocked).arch = s.arch := rfl
@[simp] theorem State.rejectLocked_inbox (s : State) : (s.rejectLocked).inbox = s.inbox := rfl
@[simp] theorem State.rejectLocked_response (s : State) : (s.rejectLocked).response = some rejection := rfl

@[simp] theorem State.raiseError_arch (s : State) (c : ErrorCode) : (s.raiseError c).arch = s.arch.recordError c := rfl
@[simp] theorem State.raiseError_inbox (s : State) (c : ErrorCode) : (s.raiseError c).inbox = s.inbox := rfl
@[simp] theorem State.raiseError_response (s : State) (c : ErrorCode) : (s.raiseError c).response = some rejection := rfl

@[simp] theorem State.resetCore_arch (s : State) : (s.resetCore).arch = Arch.reset := rfl
@[simp] theorem State.resetCore_inbox (s : State) : (s.resetCore).inbox = s.inbox := rfl
@[simp] theorem State.resetCore_response (s : State) : (s.resetCore).response = none := rfl

/-! ### Arch: the direct updates of Ops.lean -/

@[simp] theorem Arch.cloadOp_h (a : Arch) : (a.cloadOp).h = a.h := rfl
@[simp] theorem Arch.cloadOp_v (a : Arch) : (a.cloadOp).v = a.h := rfl
@[simp] theorem Arch.cloadOp_t (a : Arch) : (a.cloadOp).t = 0#7 := rfl
@[simp] theorem Arch.cloadOp_win (a : Arch) : (a.cloadOp).win = a.buf := rfl
@[simp] theorem Arch.cloadOp_buf (a : Arch) : (a.cloadOp).buf = a.buf := rfl
@[simp] theorem Arch.cloadOp_fill (a : Arch) : (a.cloadOp).fill = a.fill := rfl
@[simp] theorem Arch.cloadOp_len (a : Arch) : (a.cloadOp).len = a.len := rfl
@[simp] theorem Arch.cloadOp_k0 (a : Arch) : (a.cloadOp).k0 = a.k0 := rfl
@[simp] theorem Arch.cloadOp_inner (a : Arch) : (a.cloadOp).inner = a.inner := rfl
@[simp] theorem Arch.cloadOp_mode (a : Arch) : (a.cloadOp).mode = a.mode := rfl
@[simp] theorem Arch.cloadOp_hm (a : Arch) : (a.cloadOp).hm = a.hm := rfl
@[simp] theorem Arch.cloadOp_klong (a : Arch) : (a.cloadOp).klong = a.klong := rfl
@[simp] theorem Arch.cloadOp_cact (a : Arch) : (a.cloadOp).cact = a.cact := rfl
@[simp] theorem Arch.cloadOp_err (a : Arch) : (a.cloadOp).err = a.err := rfl
@[simp] theorem Arch.cloadOp_ecode (a : Arch) : (a.cloadOp).ecode = a.ecode := rfl

@[simp] theorem Arch.roundOp_h (a : Arch) : (a.roundOp).h = a.h := rfl
@[simp] theorem Arch.roundOp_v (a : Arch) : (a.roundOp).v = mixRound a.v (roundConstant a.t.toNat) a.win[0] := rfl
@[simp] theorem Arch.roundOp_t (a : Arch) : (a.roundOp).t = a.t + 1#7 := rfl
@[simp] theorem Arch.roundOp_win (a : Arch) : (a.roundOp).win = windowStep a.win a.t.toNat := rfl
@[simp] theorem Arch.roundOp_buf (a : Arch) : (a.roundOp).buf = a.buf := rfl
@[simp] theorem Arch.roundOp_fill (a : Arch) : (a.roundOp).fill = a.fill := rfl
@[simp] theorem Arch.roundOp_len (a : Arch) : (a.roundOp).len = a.len := rfl
@[simp] theorem Arch.roundOp_k0 (a : Arch) : (a.roundOp).k0 = a.k0 := rfl
@[simp] theorem Arch.roundOp_inner (a : Arch) : (a.roundOp).inner = a.inner := rfl
@[simp] theorem Arch.roundOp_mode (a : Arch) : (a.roundOp).mode = a.mode := rfl
@[simp] theorem Arch.roundOp_hm (a : Arch) : (a.roundOp).hm = a.hm := rfl
@[simp] theorem Arch.roundOp_klong (a : Arch) : (a.roundOp).klong = a.klong := rfl
@[simp] theorem Arch.roundOp_cact (a : Arch) : (a.roundOp).cact = a.cact := rfl
@[simp] theorem Arch.roundOp_err (a : Arch) : (a.roundOp).err = a.err := rfl
@[simp] theorem Arch.roundOp_ecode (a : Arch) : (a.roundOp).ecode = a.ecode := rfl

@[simp] theorem Arch.cfinOp_h (a : Arch) : (a.cfinOp).h = Vector.ofFn fun i => add32 [a.h[i], a.v[i]] := rfl
@[simp] theorem Arch.cfinOp_v (a : Arch) : (a.cfinOp).v = a.v := rfl
@[simp] theorem Arch.cfinOp_t (a : Arch) : (a.cfinOp).t = 0#7 := rfl
@[simp] theorem Arch.cfinOp_win (a : Arch) : (a.cfinOp).win = a.win := rfl
@[simp] theorem Arch.cfinOp_buf (a : Arch) : (a.cfinOp).buf = a.buf := rfl
@[simp] theorem Arch.cfinOp_fill (a : Arch) : (a.cfinOp).fill = a.fill := rfl
@[simp] theorem Arch.cfinOp_len (a : Arch) : (a.cfinOp).len = a.len := rfl
@[simp] theorem Arch.cfinOp_k0 (a : Arch) : (a.cfinOp).k0 = a.k0 := rfl
@[simp] theorem Arch.cfinOp_inner (a : Arch) : (a.cfinOp).inner = a.inner := rfl
@[simp] theorem Arch.cfinOp_mode (a : Arch) : (a.cfinOp).mode = a.mode := rfl
@[simp] theorem Arch.cfinOp_hm (a : Arch) : (a.cfinOp).hm = a.hm := rfl
@[simp] theorem Arch.cfinOp_klong (a : Arch) : (a.cfinOp).klong = a.klong := rfl
@[simp] theorem Arch.cfinOp_cact (a : Arch) : (a.cfinOp).cact = a.cact := rfl
@[simp] theorem Arch.cfinOp_err (a : Arch) : (a.cfinOp).err = a.err := rfl
@[simp] theorem Arch.cfinOp_ecode (a : Arch) : (a.cfinOp).ecode = a.ecode := rfl

@[simp] theorem Arch.start_h (a : Arch) : (a.start).h = iv := rfl
@[simp] theorem Arch.start_v (a : Arch) : (a.start).v = a.v := rfl
@[simp] theorem Arch.start_t (a : Arch) : (a.start).t = a.t := rfl
@[simp] theorem Arch.start_win (a : Arch) : (a.start).win = a.win := rfl
@[simp] theorem Arch.start_buf (a : Arch) : (a.start).buf = zeroBlock := rfl
@[simp] theorem Arch.start_fill (a : Arch) : (a.start).fill = 0#9 := rfl
@[simp] theorem Arch.start_len (a : Arch) : (a.start).len = 0#64 := rfl
@[simp] theorem Arch.start_k0 (a : Arch) : (a.start).k0 = a.k0 := rfl
@[simp] theorem Arch.start_inner (a : Arch) : (a.start).inner = a.inner := rfl
@[simp] theorem Arch.start_mode (a : Arch) : (a.start).mode = a.mode := rfl
@[simp] theorem Arch.start_hm (a : Arch) : (a.start).hm = a.hm := rfl
@[simp] theorem Arch.start_klong (a : Arch) : (a.start).klong = a.klong := rfl
@[simp] theorem Arch.start_cact (a : Arch) : (a.start).cact = a.cact := rfl
@[simp] theorem Arch.start_err (a : Arch) : (a.start).err = a.err := rfl
@[simp] theorem Arch.start_ecode (a : Arch) : (a.start).ecode = a.ecode := rfl

@[simp] theorem Arch.putLength_h (a : Arch) (l : BitVec 64) : (a.putLength l).h = a.h := rfl
@[simp] theorem Arch.putLength_v (a : Arch) (l : BitVec 64) : (a.putLength l).v = a.v := rfl
@[simp] theorem Arch.putLength_t (a : Arch) (l : BitVec 64) : (a.putLength l).t = a.t := rfl
@[simp] theorem Arch.putLength_win (a : Arch) (l : BitVec 64) : (a.putLength l).win = a.win := rfl
@[simp] theorem Arch.putLength_buf (a : Arch) (l : BitVec 64) : (a.putLength l).buf = withLength a.buf l := rfl
@[simp] theorem Arch.putLength_fill (a : Arch) (l : BitVec 64) : (a.putLength l).fill = a.fill := rfl
@[simp] theorem Arch.putLength_len (a : Arch) (l : BitVec 64) : (a.putLength l).len = a.len := rfl
@[simp] theorem Arch.putLength_k0 (a : Arch) (l : BitVec 64) : (a.putLength l).k0 = a.k0 := rfl
@[simp] theorem Arch.putLength_inner (a : Arch) (l : BitVec 64) : (a.putLength l).inner = a.inner := rfl
@[simp] theorem Arch.putLength_mode (a : Arch) (l : BitVec 64) : (a.putLength l).mode = a.mode := rfl
@[simp] theorem Arch.putLength_hm (a : Arch) (l : BitVec 64) : (a.putLength l).hm = a.hm := rfl
@[simp] theorem Arch.putLength_klong (a : Arch) (l : BitVec 64) : (a.putLength l).klong = a.klong := rfl
@[simp] theorem Arch.putLength_cact (a : Arch) (l : BitVec 64) : (a.putLength l).cact = a.cact := rfl
@[simp] theorem Arch.putLength_err (a : Arch) (l : BitVec 64) : (a.putLength l).err = a.err := rfl
@[simp] theorem Arch.putLength_ecode (a : Arch) (l : BitVec 64) : (a.putLength l).ecode = a.ecode := rfl

/-! ### Errors -/

/-- R270: an error is recorded only when none is. -/
theorem Arch.recordError_locked (a : Arch) (c : ErrorCode) (h : a.err = true) : a.recordError c = a := by
  simp [Arch.recordError, h]

theorem Arch.recordError_open (a : Arch) (c : ErrorCode) (h : a.err = false) :
    a.recordError c = { a with err := true, ecode := c } := by
  simp [Arch.recordError, h]

@[simp] theorem Arch.recordError_err (a : Arch) (c : ErrorCode) : (a.recordError c).err = true := by
  cases h : a.err <;> simp [Arch.recordError, h]

@[simp] theorem Arch.recordError_h (a : Arch) (c : ErrorCode) : (a.recordError c).h = a.h := by
  cases h : a.err <;> simp [Arch.recordError, h]
@[simp] theorem Arch.recordError_v (a : Arch) (c : ErrorCode) : (a.recordError c).v = a.v := by
  cases h : a.err <;> simp [Arch.recordError, h]
@[simp] theorem Arch.recordError_t (a : Arch) (c : ErrorCode) : (a.recordError c).t = a.t := by
  cases h : a.err <;> simp [Arch.recordError, h]
@[simp] theorem Arch.recordError_win (a : Arch) (c : ErrorCode) : (a.recordError c).win = a.win := by
  cases h : a.err <;> simp [Arch.recordError, h]
@[simp] theorem Arch.recordError_buf (a : Arch) (c : ErrorCode) : (a.recordError c).buf = a.buf := by
  cases h : a.err <;> simp [Arch.recordError, h]
@[simp] theorem Arch.recordError_fill (a : Arch) (c : ErrorCode) : (a.recordError c).fill = a.fill := by
  cases h : a.err <;> simp [Arch.recordError, h]
@[simp] theorem Arch.recordError_len (a : Arch) (c : ErrorCode) : (a.recordError c).len = a.len := by
  cases h : a.err <;> simp [Arch.recordError, h]
@[simp] theorem Arch.recordError_k0 (a : Arch) (c : ErrorCode) : (a.recordError c).k0 = a.k0 := by
  cases h : a.err <;> simp [Arch.recordError, h]
@[simp] theorem Arch.recordError_inner (a : Arch) (c : ErrorCode) : (a.recordError c).inner = a.inner := by
  cases h : a.err <;> simp [Arch.recordError, h]
@[simp] theorem Arch.recordError_mode (a : Arch) (c : ErrorCode) : (a.recordError c).mode = a.mode := by
  cases h : a.err <;> simp [Arch.recordError, h]
@[simp] theorem Arch.recordError_hm (a : Arch) (c : ErrorCode) : (a.recordError c).hm = a.hm := by
  cases h : a.err <;> simp [Arch.recordError, h]
@[simp] theorem Arch.recordError_klong (a : Arch) (c : ErrorCode) : (a.recordError c).klong = a.klong := by
  cases h : a.err <;> simp [Arch.recordError, h]
@[simp] theorem Arch.recordError_cact (a : Arch) (c : ErrorCode) : (a.recordError c).cact = a.cact := by
  cases h : a.err <;> simp [Arch.recordError, h]

end Sys2Proof.Machine
end

