-- ==== Sys2Proof/Laws/Compression.lean ====
section
/-! SUPPORT. What the rounds and Compress() do, once (rules R165 to R169). -/

namespace Sys2Proof.Machine

theorem roundOps_succ (n : Nat) (a : Arch) : Arch.roundOps (n + 1) a = (Arch.roundOps n a).roundOp := by
  induction n generalizing a with
  | zero => rfl
  | succ n ih => rw [Arch.roundOps, ih]; rfl

/-- R146, R169: n rounds after the load, V is V_n, WIN the window of round n, T is n, and nothing else has changed. -/
theorem roundOps_cloadOp (a : Arch) (n : Nat) (h : n ≤ 64) :
    Arch.roundOps n a.cloadOp =
      { a with v := workingState a.h a.buf n, win := windowAt a.buf n, t := BitVec.ofNat 7 n } := by
  induction n with
  | zero => simp [Arch.roundOps, Arch.cloadOp, workingState, windowAt_zero]
  | succ n ih =>
    have ht : (BitVec.ofNat 7 n).toNat = n := by rw [BitVec.toNat_ofNat]; omega
    have hw : (windowAt a.buf n)[0] = scheduleWord a.buf n := by rw [windowAt_getElem, if_pos (by omega), Nat.add_zero]
    have hs : BitVec.ofNat 7 n + 1#7 = BitVec.ofNat 7 (n + 1) := by rw [BitVec.ofNat_add]
    rw [roundOps_succ, ih (by omega)]
    simp only [Arch.roundOp, ht, hw, hs, windowStep_windowAt, workingState]

/-- R168: what Compress() does. -/
theorem compress_eq (a : Arch) :
    a.compress =
      { a with h := compressBlock a.h a.buf, v := workingState a.h a.buf 64, win := zeroBlock, t := 0#7 } := by
  rw [Arch.compress, roundOps_cloadOp a _ (Nat.le_refl 64), windowAt_end]
  rfl

/-- R195, R197: what compressing and emptying BUF does. -/
theorem flushBlock_eq (a : Arch) :
    a.flushBlock =
      { a with h := compressBlock a.h a.buf, v := workingState a.h a.buf 64, win := zeroBlock, t := 0#7,
               buf := zeroBlock, fill := 0#9 } := by
  rw [Arch.flushBlock, compress_eq]

end Sys2Proof.Machine
end

