-- ==== Sys2Proof/Laws/PerInstr.lean ====
section
/-! SUPPORT. A law of every command as syntax, one lemma per constructor of Instr (LAWS.json). -/

namespace Sys2Proof.Laws.EncodeShape

/-- R80, R84: the encoding of a command has the command's OPC, a zero RSV and the command's ARG, and its second word is the
data of a command that uses data and 0 (R93) otherwise. -/
def Statement (i : Instr) : Prop :=
  i.wellFormed = true →
    opcOf (encode i).1 = opcodeOf i ∧ rsvOf (encode i).1 = 0#16 ∧ (argOf (encode i).1).toNat = argumentOf i ∧
      (usesData i = false → (encode i).2 = 0#32)

/-- The three fields of a command word put together from an opcode and an argument below 256. -/
theorem fields_of_word (opc : BitVec 8) (arg : Nat) (h : arg < 256) :
    opcOf (opc ++ 0#16 ++ BitVec.ofNat 8 arg) = opc ∧ rsvOf (opc ++ 0#16 ++ BitVec.ofNat 8 arg) = 0#16 ∧
      (argOf (opc ++ 0#16 ++ BitVec.ofNat 8 arg)).toNat = arg := by
  have hbit (k : Nat) : BitVec.getLsbD (w := 32) (opc ++ 0#16 ++ BitVec.ofNat 8 arg) k =
      if k < 8 then (BitVec.ofNat 8 arg).getLsbD k else if k - 8 < 16 then false else opc.getLsbD (k - 8 - 16) := by
    change BitVec.getLsbD (w := 8 + 16 + 8) _ k = _
    rw [BitVec.getLsbD_append, BitVec.getLsbD_append, BitVec.getLsbD_zero]
  have hopc : opcOf (opc ++ 0#16 ++ BitVec.ofNat 8 arg) = opc := by
    apply BitVec.eq_of_getLsbD_eq
    intro k hk
    rw [opcOf, BitVec.getLsbD_extractLsb', hbit, if_neg (by omega), if_neg (by omega)]
    simp [hk, show 24 + k - 8 - 16 = k by omega]
  have hrsv : rsvOf (opc ++ 0#16 ++ BitVec.ofNat 8 arg) = 0#16 := by
    apply BitVec.eq_of_getLsbD_eq
    intro k hk
    rw [rsvOf, BitVec.getLsbD_extractLsb', hbit, if_neg (by omega), if_pos (by omega)]
    simp
  have harg : argOf (opc ++ 0#16 ++ BitVec.ofNat 8 arg) = BitVec.ofNat 8 arg := by
    apply BitVec.eq_of_getLsbD_eq
    intro k hk
    rw [argOf, BitVec.getLsbD_extractLsb', hbit, if_pos (by omega)]
    simp [hk]
  refine ⟨hopc, hrsv, ?_⟩
  rw [harg, BitVec.toNat_ofNat]
  exact Nat.mod_eq_of_lt h

/-- The law for one command, from the bound on its argument. -/
theorem of_bound (i : Instr) (harg : i.wellFormed = true → argumentOf i < 256)
    (hdata : usesData i = false → dataOf i = 0#32) : Statement i := by
  intro hwf
  obtain ⟨h1, h2, h3⟩ := fields_of_word (opcodeOf i) (argumentOf i) (harg hwf)
  exact ⟨h1, h2, h3, hdata⟩

theorem nop : Statement .nop := of_bound _ (fun _ => by decide) fun _ => rfl
theorem clr : Statement .clr := of_bound _ (fun _ => by decide) fun _ => rfl
theorem rdstat : Statement .rdstat := of_bound _ (fun _ => by decide) fun _ => rfl
theorem hinit : Statement .hinit := of_bound _ (fun _ => by decide) fun _ => rfl
theorem minit : Statement .minit := of_bound _ (fun _ => by decide) fun _ => rfl
theorem kend : Statement .kend := of_bound _ (fun _ => by decide) fun _ => rfl

theorem push (n : Nat) (dw : Word) : Statement (.push n dw) := by
  refine of_bound _ (fun h => ?_) (by simp [usesData])
  simp only [Instr.wellFormed, legalPushCount, Config.pushMax, Bool.and_eq_true, decide_eq_true_eq] at h
  show n < 256
  omega

theorem final : Statement .final := of_bound _ (fun _ => by decide) fun _ => rfl
theorem rddig (i : Fin 8) : Statement (.rddig i) := of_bound _ (fun _ => Nat.lt_trans i.isLt (by decide)) fun _ => rfl
theorem rinit : Statement .rinit := of_bound _ (fun _ => by decide) fun _ => rfl
theorem wrh (i : Fin 8) (dw : Word) : Statement (.wrh i dw) :=
  of_bound _ (fun _ => Nat.lt_trans i.isLt (by decide)) (by simp [usesData])
theorem wrb (i : Fin 16) (dw : Word) : Statement (.wrb i dw) :=
  of_bound _ (fun _ => Nat.lt_trans i.isLt (by decide)) (by simp [usesData])
theorem comp : Statement .comp := of_bound _ (fun _ => by decide) fun _ => rfl
theorem cload : Statement .cload := of_bound _ (fun _ => by decide) fun _ => rfl
theorem step : Statement .step := of_bound _ (fun _ => by decide) fun _ => rfl
theorem cfin : Statement .cfin := of_bound _ (fun _ => by decide) fun _ => rfl
theorem rdh (i : Fin 8) : Statement (.rdh i) := of_bound _ (fun _ => Nat.lt_trans i.isLt (by decide)) fun _ => rfl
theorem rdv (i : Fin 8) : Statement (.rdv i) := of_bound _ (fun _ => Nat.lt_trans i.isLt (by decide)) fun _ => rfl
theorem rdw (i : Fin 16) : Statement (.rdw i) := of_bound _ (fun _ => Nat.lt_trans i.isLt (by decide)) fun _ => rfl
theorem rdb (i : Fin 16) : Statement (.rdb i) := of_bound _ (fun _ => Nat.lt_trans i.isLt (by decide)) fun _ => rfl

end Sys2Proof.Laws.EncodeShape
end

