-- ==== Sys2Proof/Laws/Decode.lean ====
section
/-! SUPPORT. The four argument forms (R81), each with everything it can answer. -/

namespace Sys2Proof

theorem formN_cases (i : Instr) (arg : BitVec 8) :
    (arg.toNat = 0 ∧ formN i arg = .ok i) ∨ (arg.toNat ≠ 0 ∧ formN i arg = .error .illarg) := by
  unfold formN
  split
  · rename_i h; exact .inl ⟨by simp [h], rfl⟩
  · rename_i h; exact .inr ⟨fun e => h (BitVec.eq_of_toNat_eq (by simpa using e)), rfl⟩

theorem formX8_cases (make : Fin 8 → Instr) (arg : BitVec 8) :
    (∃ h : arg.toNat < 8, formX8 make arg = .ok (make ⟨arg.toNat, h⟩)) ∨
      (7 < arg.toNat ∧ formX8 make arg = .error .illarg) := by
  unfold formX8
  split
  · rename_i h; exact .inl ⟨h, rfl⟩
  · exact .inr ⟨by omega, rfl⟩

theorem formX16_cases (make : Fin 16 → Instr) (arg : BitVec 8) :
    (∃ h : arg.toNat < 16, formX16 make arg = .ok (make ⟨arg.toNat, h⟩)) ∨
      (15 < arg.toNat ∧ formX16 make arg = .error .illarg) := by
  unfold formX16
  split
  · rename_i h; exact .inl ⟨h, rfl⟩
  · exact .inr ⟨by omega, rfl⟩

theorem formP_cases (make : Nat → Instr) (arg : BitVec 8) :
    (1 ≤ arg.toNat ∧ arg.toNat ≤ 32 ∧ formP make arg = .ok (make arg.toNat)) ∨
      ((arg.toNat = 0 ∨ 32 < arg.toNat) ∧ formP make arg = .error .illarg) := by
  unfold formP
  split
  · rename_i h
    simp only [legalPushCount, Config.pushMax, Bool.and_eq_true, decide_eq_true_eq] at h
    exact .inl ⟨h.1, h.2, rfl⟩
  · rename_i h
    simp only [legalPushCount, Config.pushMax, Bool.and_eq_true, decide_eq_true_eq] at h
    exact .inr ⟨by omega, rfl⟩

/-- A command word is its three fields (R80). -/
theorem word_of_fields (cw : Word) : opcOf cw ++ rsvOf cw ++ argOf cw = cw := by
  apply BitVec.eq_of_getLsbD_eq
  intro k hk
  rw [BitVec.getLsbD_append, BitVec.getLsbD_append, opcOf, rsvOf, argOf, BitVec.getLsbD_extractLsb',
    BitVec.getLsbD_extractLsb', BitVec.getLsbD_extractLsb']
  by_cases h1 : k < 8
  · simp [h1]
  · by_cases h2 : k - 8 < 16
    · simp [h1, h2, show 8 + (k - 8) = k by omega]
    · simp [h1, h2, show 24 + (k - 8 - 16) = k by omega, show k - 8 - 16 < 8 by omega]

/-- Decoding a word whose RSV is zero is decoding its OPC and ARG. -/
theorem decode_of_rsv_zero (cw dw : Word) (h : rsvOf cw = 0#16) :
    decode cw dw = decodeOpcode (opcOf cw) (argOf cw) dw := by rw [decode, if_pos h]

/-- R85 check 2: a word whose RSV is not zero is ILLOP, whatever else it holds. -/
theorem decode_of_rsv_nonzero (cw dw : Word) (h : rsvOf cw ≠ 0#16) : decode cw dw = .error .illop := by
  rw [decode, if_neg h]

end Sys2Proof
end

