-- ==== Sys2Proof/Laws/Engine.lean ====
section
/-! SUPPORT. What PutBit, Absorb, Finalise and the HMAC controller's sub-sequences do, once (rules R194 to R197, R221 to
R224). -/

namespace Sys2Proof.Machine

/-! ### PutBit -/

/-- R195: the bit that does not complete a block. -/
theorem putBit_within (a : Arch) (b : Bool) (h : a.fill.toNat ≠ 511) :
    a.putBit b = { a with buf := orBitAt a.buf a.fill.toFin b, fill := a.fill + 1#9 } := by
  have : ¬ a.fill.toNat + 1 = Config.blockBits := by show ¬ a.fill.toNat + 1 = 512; omega
  rw [Arch.putBit]
  simp only [if_neg this]

/-- R195 step 2: the bit that completes a block. -/
theorem putBit_completes (a : Arch) (b : Bool) (h : a.fill.toNat = 511) :
    a.putBit b =
      { a with h := compressBlock a.h (orBitAt a.buf a.fill.toFin b)
               v := workingState a.h (orBitAt a.buf a.fill.toFin b) 64
               win := zeroBlock, t := 0#7, buf := zeroBlock, fill := 0#9 } := by
  have : a.fill.toNat + 1 = Config.blockBits := by simp [h]
  rw [Arch.putBit]
  simp only [if_pos this, flushBlock_eq]

/-- R195, R196: the elements PutBit and Absorb leave alone. -/
def sameOutsideDatapath (a b : Arch) : Prop :=
  b.k0 = a.k0 ∧ b.inner = a.inner ∧ b.mode = a.mode ∧ b.hm = a.hm ∧ b.klong = a.klong ∧ b.cact = a.cact ∧ b.err = a.err ∧
    b.ecode = a.ecode

theorem sameOutsideDatapath_refl (a : Arch) : sameOutsideDatapath a a := ⟨rfl, rfl, rfl, rfl, rfl, rfl, rfl, rfl⟩

theorem sameOutsideDatapath_trans {a b c : Arch} (h : sameOutsideDatapath a b) (h' : sameOutsideDatapath b c) :
    sameOutsideDatapath a c := by
  obtain ⟨h1, h2, h3, h4, h5, h6, h7, h8⟩ := h
  obtain ⟨k1, k2, k3, k4, k5, k6, k7, k8⟩ := h'
  exact ⟨k1.trans h1, k2.trans h2, k3.trans h3, k4.trans h4, k5.trans h5, k6.trans h6, k7.trans h7, k8.trans h8⟩

theorem putBit_len (a : Arch) (b : Bool) : (a.putBit b).len = a.len := by
  by_cases h : a.fill.toNat = 511
  · rw [putBit_completes a b h]
  · rw [putBit_within a b h]

theorem putBit_outside (a : Arch) (b : Bool) : sameOutsideDatapath a (a.putBit b) := by
  by_cases h : a.fill.toNat = 511
  · rw [putBit_completes a b h]; exact sameOutsideDatapath_refl a
  · rw [putBit_within a b h]; exact sameOutsideDatapath_refl a

theorem putBit_fill (a : Arch) (b : Bool) : (a.putBit b).fill.toNat = (a.fill.toNat + 1) % 512 := by
  by_cases h : a.fill.toNat = 511
  · rw [putBit_completes a b h, h]; rfl
  · rw [putBit_within a b h, BitVec.toNat_add]; rfl

/-! ### Absorb -/

theorem absorb_nil (a : Arch) : a.absorb [] = a := rfl

theorem absorb_cons (a : Arch) (b : Bool) (s : Bits) : a.absorb (b :: s) = (a.absorbBit b).absorb s := rfl

theorem absorb_append (a : Arch) (s s' : Bits) : a.absorb (s ++ s') = (a.absorb s).absorb s' := by
  simp [Arch.absorb, List.foldl_append]

theorem absorbBit_len (a : Arch) (b : Bool) : (a.absorbBit b).len = a.len + 1#64 := by
  simp only [Arch.absorbBit, putBit_len]

theorem absorbBit_outside (a : Arch) (b : Bool) : sameOutsideDatapath a (a.absorbBit b) := putBit_outside a b

theorem absorbBit_fill (a : Arch) (b : Bool) : (a.absorbBit b).fill.toNat = (a.fill.toNat + 1) % 512 := putBit_fill a b

theorem absorb_outside (a : Arch) (s : Bits) : sameOutsideDatapath a (a.absorb s) := by
  induction s generalizing a with
  | nil => exact sameOutsideDatapath_refl a
  | cons b s ih => exact sameOutsideDatapath_trans (absorbBit_outside a b) (ih _)

/-- R196: after Absorb, LEN has grown by the number of bits. -/
theorem absorb_len (a : Arch) (s : Bits) : (a.absorb s).len = a.len + BitVec.ofNat 64 s.length := by
  induction s generalizing a with
  | nil => simp [absorb_nil]
  | cons b s ih =>
    rw [absorb_cons, ih, absorbBit_len, List.length_cons, BitVec.ofNat_add, BitVec.add_assoc,
      BitVec.add_comm (BitVec.ofNat 64 s.length)]

/-- R196: FILL counts modulo 512. -/
theorem absorb_fill (a : Arch) (s : Bits) : (a.absorb s).fill.toNat = (a.fill.toNat + s.length) % 512 := by
  induction s generalizing a with
  | nil => rw [absorb_nil, List.length_nil, Nat.add_zero, Nat.mod_eq_of_lt a.fill.isLt]
  | cons b s ih => rw [absorb_cons, ih, absorbBit_fill, List.length_cons]; omega

/-- The block with the bits s ORed in from stream position p on; bits past the end are dropped. -/
def orBits : Block → Nat → Bits → Block
  | b, _, [] => b
  | b, p, x :: s => orBits (if h : p < 512 then orBitAt b ⟨p, h⟩ x else b) (p + 1) s

theorem bitAt_orBits (b : Block) (p : Nat) (s : Bits) (q : Fin 512) :
    bitAt (orBits b p s) q = (bitAt b q || (decide (p ≤ q.val) && (s[q.val - p]?).getD false)) := by
  induction s generalizing b p with
  | nil => simp [orBits]
  | cons x s ih =>
    rw [orBits, ih]
    rcases Nat.lt_trichotomy q.val p with h | h | h
    · have hne : ∀ h' : p < 512, q ≠ ⟨p, h'⟩ := fun h' e => by rw [e] at h; simp at h
      have h1 : ¬ p ≤ q.val := by omega
      have h2 : ¬ p + 1 ≤ q.val := by omega
      split <;> simp [bitAt_orBitAt, hne, h1, h2]
    · have hp : p < 512 := h ▸ q.isLt
      have he : q = ⟨p, hp⟩ := Fin.ext h
      simp [hp, bitAt_orBitAt, he]
    · have hp : p < 512 := by omega
      have hne : q ≠ ⟨p, hp⟩ := fun e => by rw [e] at h; simp at h
      have h1 : p ≤ q.val := by omega
      have h2 : p + 1 ≤ q.val := by omega
      have h3 : q.val - p = (q.val - (p + 1)) + 1 := by omega
      rw [dif_pos hp, bitAt_orBitAt]
      simp [hne, h1, h2, h3]

theorem orBits_append (b : Block) (p : Nat) (s s' : Bits) : orBits b p (s ++ s') = orBits (orBits b p s) (p + s.length) s' := by
  induction s generalizing b p with
  | nil => rfl
  | cons x s ih => rw [List.cons_append, orBits, ih, orBits, List.length_cons, Nat.add_assoc, Nat.add_comm 1]

/-- R196: bits that do not complete a block. -/
theorem absorb_within (a : Arch) (s : Bits) (h : a.fill.toNat + s.length < 512) :
    a.absorb s =
      { a with buf := orBits a.buf a.fill.toNat s, fill := a.fill + BitVec.ofNat 9 s.length
               len := a.len + BitVec.ofNat 64 s.length } := by
  induction s generalizing a with
  | nil => simp [absorb_nil, orBits]
  | cons b s ih =>
    simp only [List.length_cons] at h ⊢
    have hb : a.absorbBit b = { a with buf := orBitAt a.buf a.fill.toFin b, fill := a.fill + 1#9, len := a.len + 1#64 } := by
      rw [Arch.absorbBit, putBit_within a b (by omega)]
    have hf : (a.fill + 1#9).toNat = a.fill.toNat + 1 := by rw [BitVec.toNat_add]; simp; omega
    have e1 : a.fill + 1#9 + BitVec.ofNat 9 s.length = a.fill + BitVec.ofNat 9 (s.length + 1) := by
      rw [BitVec.ofNat_add, BitVec.add_assoc, BitVec.add_comm 1#9]
    have e2 : a.len + 1#64 + BitVec.ofNat 64 s.length = a.len + BitVec.ofNat 64 (s.length + 1) := by
      rw [BitVec.ofNat_add, BitVec.add_assoc, BitVec.add_comm 1#64]
    have e3 : orBits a.buf a.fill.toNat (b :: s) = orBits (orBitAt a.buf a.fill.toFin b) (a.fill.toNat + 1) s := by
      rw [orBits, dif_pos a.fill.isLt]
      rfl
    rw [absorb_cons, hb, ih _ (by simp only [hf]; omega)]
    simp only [hf, e1, e2, e3]

/-- R195, R196: bits that complete the block exactly. -/
theorem absorb_completes (a : Arch) (s : Bits) (hs : s ≠ []) (h : a.fill.toNat + s.length = 512) :
    a.absorb s =
      { a with h := compressBlock a.h (orBits a.buf a.fill.toNat s)
               v := workingState a.h (orBits a.buf a.fill.toNat s) 64
               win := zeroBlock, t := 0#7, buf := zeroBlock, fill := 0#9, len := a.len + BitVec.ofNat 64 s.length } := by
  obtain ⟨s', b, rfl⟩ : ∃ s' b, s = s' ++ [b] := ⟨s.dropLast, s.getLast hs, (List.dropLast_append_getLast hs).symm⟩
  simp only [List.length_append, List.length_cons, List.length_nil] at h ⊢
  have hf : (a.absorb s').fill.toNat = 511 := by rw [absorb_fill]; omega
  have hw := absorb_within a s' (by omega)
  have hf' : (a.fill + BitVec.ofNat 9 s'.length).toNat = a.fill.toNat + s'.length := by
    rw [BitVec.toNat_add, BitVec.toNat_ofNat]; omega
  have hp : a.fill.toNat + s'.length < 512 := by omega
  rw [absorb_append, absorb_cons, absorb_nil, Arch.absorbBit, putBit_completes _ _ hf, orBits_append, orBits, orBits,
    dif_pos hp, hw]
  have he : (a.fill + BitVec.ofNat 9 s'.length).toFin = ⟨a.fill.toNat + s'.length, hp⟩ := Fin.ext hf'
  simp only [he, BitVec.add_assoc, ← BitVec.ofNat_add]

/-! ### Finalise -/

theorem putBit_true_fill_gt (a : Arch) : (a.putBit true).fill.toNat > 448 ↔ 448 ≤ a.fill.toNat ∧ a.fill.toNat < 511 := by
  rw [putBit_fill]; have := a.fill.isLt; omega

/-- R197: what Finalise() does: H is the padded tail's chaining state, V the working state of the last block, and BUF, WIN,
FILL and T are zero. LEN is kept. -/
theorem finalise_eq (a : Arch) :
    a.finalise =
      { a with h := finalChaining a, v := finalWorking a, win := zeroBlock, t := 0#7, buf := zeroBlock, fill := 0#9 } := by
  have hlt := a.fill.isLt
  have hgt := putBit_true_fill_gt a
  rw [Arch.finalise]
  simp only [Config.lengthFieldAt]
  rcases Nat.lt_or_ge a.fill.toNat 448 with h | h
  · rw [if_neg (by omega), putBit_within a true (by omega), flushBlock_eq]
    simp only [Arch.putLength, finalChaining, finalWorking, if_pos (show a.fill.toNat ≤ 447 by omega), withLength,
      padBitBlock]
  · have h447 : ¬ a.fill.toNat ≤ 447 := by omega
    rcases Nat.lt_or_ge a.fill.toNat 511 with h' | h'
    · rw [if_pos (by omega), putBit_within a true (by omega), flushBlock_eq, flushBlock_eq]
      simp only [Arch.putLength, finalChaining, finalWorking, if_neg h447, withLength, padBitBlock]
    · rw [if_neg (by omega), putBit_completes a true (by omega), flushBlock_eq]
      simp only [Arch.putLength, finalChaining, finalWorking, if_neg h447, withLength, padBitBlock]

/-- R37: the padded tail depends on H, BUF, FILL and LEN alone. -/
theorem finalChaining_congr {a b : Arch} (h : a.h = b.h) (hb : a.buf = b.buf) (hf : a.fill = b.fill) (hl : a.len = b.len) :
    finalChaining a = finalChaining b := by
  simp only [finalChaining, padBitBlock, h, hb, hf, hl]

/-! ### The HMAC controller -/

/-- R26, R222 step 3: sixteen words absorbed into an empty block are that block. -/
theorem orBits_wordsBits (b : Block) : orBits zeroBlock 0 (wordsBits b.toList) = b := by
  apply block_ext
  intro q
  have hq := q.isLt
  have hs := wordsBits_getElem? b.toList (q.val / 32) (q.val % 32) (by simp; omega) (by omega)
  rw [show 32 * (q.val / 32) + q.val % 32 = q.val by omega] at hs
  rw [bitAt_orBits, bitAt_zeroBlock, Nat.sub_zero, hs]
  simp [bitAt, show q.val / 32 < 16 by omega]

/-- R222 steps 2 and 3, R224 steps 3 and 4: one compression of the masked key block from IV. -/
theorem openKeyedHash_eq (a : Arch) (m : Word) :
    a.openKeyedHash m =
      { a with h := compressBlock iv (maskBlock a.k0 m), v := workingState iv (maskBlock a.k0 m) 64
               win := zeroBlock, t := 0#7, buf := zeroBlock, fill := 0#9, len := 512#64 } := by
  have hl : (wordsBits (maskBlock a.k0 m).toList).length = 512 := by rw [wordsBits_length]; simp
  rw [Arch.openKeyedHash, absorb_completes _ _ (by intro h; rw [h] at hl; simp at hl) (by simp [hl])]
  simp only [Arch.start, BitVec.toNat_ofNat, Nat.zero_mod, orBits_wordsBits, hl]
  rfl

/-- R221: key bits within the first 512. -/
theorem keyCapture_within (a : Arch) (b : Bool) (h : a.len.toNat < 512) :
    a.keyCapture b = { a with k0 := orBitAt a.k0 ⟨a.len.toNat, h⟩ b } := by
  rw [Arch.keyCapture, dif_pos h]

theorem keyCapture_beyond (a : Arch) (b : Bool) (h : 512 ≤ a.len.toNat) : a.keyCapture b = a := by
  rw [Arch.keyCapture, dif_neg (by simpa using h)]

end Sys2Proof.Machine
end

