-- ==== Sys2Proof/Laws/Hmac.lean ====
section
/-! SUPPORT. What the key capture, a whole PUSH, the key reduction and HmacFinish() come to (R201, R221, R222, R224). -/

namespace Sys2Proof.Machine

/-- The hash engine neither reads nor writes K0. -/
theorem absorbBit_k0 (a : Arch) (k : Block) (b : Bool) :
    ({ a with k0 := k } : Arch).absorbBit b = { a.absorbBit b with k0 := k } := by
  by_cases h : a.fill.toNat = 511
  · simp only [Arch.absorbBit, putBit_completes a b h, putBit_completes { a with k0 := k } b h]
  · simp only [Arch.absorbBit, putBit_within a b h, putBit_within { a with k0 := k } b h]

theorem absorb_k0 (a : Arch) (k : Block) (s : Bits) :
    ({ a with k0 := k } : Arch).absorb s = { a.absorb s with k0 := k } := by
  induction s generalizing a with
  | nil => rfl
  | cons b s ih => rw [absorb_cons, absorbBit_k0, ih, absorb_cons]

/-- R221: KeyCapture as one write of K0. -/
theorem keyCapture_eq (a : Arch) (b : Bool) :
    a.keyCapture b = { a with k0 := if h : a.len.toNat < 512 then orBitAt a.k0 ⟨a.len.toNat, h⟩ b else a.k0 } := by
  by_cases h : a.len.toNat < 512
  · rw [keyCapture_within a b h, dif_pos h]
  · rw [keyCapture_beyond a b (by omega), dif_neg h]

theorem foldl_pushBit_other (a : Arch) (s : Bits) (hm : a.mode ≠ .key) : s.foldl Arch.pushBit a = a.absorb s := by
  induction s generalizing a with
  | nil => rfl
  | cons b s ih =>
    have h1 : a.pushBit b = a.absorbBit b := by rw [Arch.pushBit, if_neg hm]
    rw [List.foldl_cons, h1, ih _ (by rw [(absorbBit_outside a b).2.2.1]; exact hm), absorb_cons]

theorem foldl_pushBit_key (a : Arch) (s : Bits) (hm : a.mode = .key) (hl : a.len.toNat + s.length < 2 ^ 64) :
    s.foldl Arch.pushBit a = { a.absorb s with k0 := orBits a.k0 a.len.toNat s } := by
  induction s generalizing a with
  | nil => rfl
  | cons b s ih =>
    rw [List.length_cons] at hl
    have h1 : a.pushBit b =
        { a.absorbBit b with k0 := if h : a.len.toNat < 512 then orBitAt a.k0 ⟨a.len.toNat, h⟩ b else a.k0 } := by
      rw [Arch.pushBit, if_pos hm, keyCapture_eq, absorbBit_k0]
    have hlen : (a.absorbBit b).len.toNat = a.len.toNat + 1 := by
      rw [absorbBit_len, BitVec.toNat_add]
      exact Nat.mod_eq_of_lt (by show a.len.toNat + 1 < 2 ^ 64; omega)
    rw [List.foldl_cons, h1, ih _ (by show (a.absorbBit b).mode = _; rw [(absorbBit_outside a b).2.2.1]; exact hm)
      (by show (a.absorbBit b).len.toNat + _ < _; omega), absorb_k0]
    show ({ (a.absorbBit b).absorb s with k0 := orBits _ (a.absorbBit b).len.toNat s } : Arch) = _
    rw [hlen]
    rfl

/-- R201 with R221: the whole effect of a PUSH is Absorb, and in KEY mode K0 gets the bits from position LEN on, and KLONG is
set when LEN passes 512. -/
theorem pushAll_eq (a : Arch) (s : Bits) (hl : a.len.toNat + s.length < 2 ^ 64) :
    a.pushAll s =
      { a.absorb s with
        k0 := if a.mode = .key then orBits a.k0 a.len.toNat s else a.k0
        klong := a.klong || (decide (a.mode = .key) && decide (512 < a.len.toNat + s.length)) } := by
  obtain ⟨hk0, -, hmode, -, hklong, -⟩ := absorb_outside a s
  have hlen : (a.absorb s).len.toNat = a.len.toNat + s.length := by
    rw [absorb_len, BitVec.toNat_add, BitVec.toNat_ofNat, Nat.mod_eq_of_lt (by omega : s.length < 2 ^ 64)]
    exact Nat.mod_eq_of_lt hl
  by_cases hm : a.mode = .key
  · simp only [Arch.pushAll, foldl_pushBit_key a s hm hl, hmode, hm, hlen, Config.blockBits, if_true, true_and, decide_true,
      Bool.true_and]
    split
    · rename_i h; simp [h]
    · rename_i h; simp [h, hklong]
  · have h1 : a.pushAll s = a.absorb s := by
      simp only [Arch.pushAll, foldl_pushBit_other a s hm, hmode, hm, false_and, if_false]
    rw [h1]
    simp only [hm, if_false, decide_false, Bool.false_and, Bool.or_false, ← hk0, ← hklong]

/-- R222 step 1: a key of at most 512 bits is kept; a longer one is replaced by its digest and zero words. -/
theorem reduceLongKey_short (a : Arch) (h : a.len.toNat ≤ 512) : a.reduceLongKey = a := by
  rw [Arch.reduceLongKey, if_neg (by simpa using h)]

theorem reduceLongKey_long (a : Arch) (h : 512 < a.len.toNat) :
    a.reduceLongKey =
      { a with h := finalChaining a, v := finalWorking a, win := zeroBlock, t := 0#7, buf := zeroBlock, fill := 0#9
               k0 := Vector.ofFn fun j => if h : j.val < 8 then (finalChaining a)[j.val] else 0#32 } := by
  rw [Arch.reduceLongKey, if_pos h, finalise_eq]

/-- R224: HmacFinish() up to its last step: INNER holds the finished inner hash, and the outer hash has absorbed the masked
key and INNER. -/
theorem hmacFinish_eq (a : Arch) :
    a.hmacFinish =
      ((({ a.finalise with inner := a.finalise.h } : Arch).openKeyedHash opadWord).absorb
        (wordsBits (finalChaining a).toList)).finalise := by
  rw [Arch.hmacFinish]
  simp only [openKeyedHash_eq, finalise_eq a]

end Sys2Proof.Machine
end

