-- ==== Sys2Proof/Laws/Ops.lean ====
section
/-! SUPPORT. What the checks of a command do, once (rules R85, R270, R272, R273), and the outcome forms statements use. -/

namespace Sys2Proof.Machine

theorem rejectLocked_eq (s : State) : Host.Outcome.next s.rejectLocked = lockedOut s := rfl

theorem complete_eq (s : State) (a : Arch) : Host.Outcome.next (s.complete a) = answers s a okResponse := rfl

theorem respond_eq (s : State) (v : Word) : Host.Outcome.next (s.respond v) = answers s s.arch (readResponse v) := rfl

theorem raiseError_eq (s : State) (c : ErrorCode) (h : s.arch.err = false) :
    Host.Outcome.next (s.raiseError c) = raises s c := by
  simp only [State.raiseError, Arch.recordError_open _ _ h]; rfl

/-- R273: while the core is locked, no check is made and nothing changes. -/
theorem gate_locked (cs : List (ErrorCode × Bool)) (f : State → State) (s : State) (h : s.arch.err = true) :
    gate cs f s = lockedOut s := by
  rw [gate, if_pos h, rejectLocked_eq]

/-- R85: when every check holds, the command has its effect. -/
theorem gate_pass (cs : List (ErrorCode × Bool)) (f : State → State) (s : State) (h : s.arch.err = false)
    (hc : ∀ c ∈ cs, c.2 = true) : gate cs f s = .next (f s) := by
  have : cs.find? (fun c => !c.2) = none := by simpa using hc
  simp [gate, h, this]

/-- R272: the first check that fails decides the error. -/
theorem gate_fail (cs : List (ErrorCode × Bool)) (f : State → State) (s : State) (c : ErrorCode × Bool)
    (h : s.arch.err = false) (hc : cs.find? (fun c => !c.2) = some c) : gate cs f s = raises s c.1 := by
  simp [gate, h, hc, raiseError_eq]

/-- Everything a gated command can do. -/
theorem gate_cases (cs : List (ErrorCode × Bool)) (f : State → State) (s : State) :
    (s.arch.err = true ∧ gate cs f s = lockedOut s) ∨
    (s.arch.err = false ∧ ∃ c ∈ cs, c.2 = false ∧ gate cs f s = raises s c.1) ∨
    (s.arch.err = false ∧ (∀ c ∈ cs, c.2 = true) ∧ gate cs f s = .next (f s)) := by
  cases h : s.arch.err with
  | true => exact .inl ⟨rfl, gate_locked cs f s h⟩
  | false =>
    cases hc : cs.find? (fun c => !c.2) with
    | none =>
      have hc' : ∀ c ∈ cs, c.2 = true := by simpa using hc
      exact .inr (.inr ⟨rfl, hc', gate_pass cs f s h hc'⟩)
    | some c =>
      have h2 : c.2 = false := by simpa using List.find?_some hc
      exact .inr (.inl ⟨rfl, c, List.mem_of_find?_eq_some hc, h2, gate_fail cs f s c h hc⟩)

/-- A command with one check raises its error where the check fails. -/
theorem gate_single_fail (e : ErrorCode) (b : Bool) (f : State → State) (s : State) (h : s.arch.err = false)
    (hb : b = false) : gate [(e, b)] f s = raises s e :=
  gate_fail [(e, b)] f s (e, b) h (by simp [hb])

theorem gate_single_pass (e : ErrorCode) (b : Bool) (f : State → State) (s : State) (h : s.arch.err = false)
    (hb : b = true) : gate [(e, b)] f s = .next (f s) :=
  gate_pass [(e, b)] f s h (by simp [hb])

theorem gate_nil (f : State → State) (s : State) (h : s.arch.err = false) : gate [] f s = .next (f s) :=
  gate_pass [] f s h (by simp)

end Sys2Proof.Machine
end

