-- ==== Sys2Proof/Laws/Step.lean ====
section
/-! SUPPORT. Everything one step can do, by what stands at the port. -/

namespace Sys2Proof.Machine

theorem takeEvent_nil (s : State) (h : s.inbox = []) : takeEvent s = none := by rw [takeEvent, h]

theorem takeEvent_cons (s : State) (e : PortEvent) (rest : List PortEvent) (h : s.inbox = e :: rest) :
    takeEvent s = some (e, { s with inbox := rest }) := by rw [takeEvent, h]

/-- R85: a word that is no well-formed command: locked out while ERR = 1, else its error is raised. -/
theorem rejectUndecodable_cases (e : DecodeError) (s : State) :
    (s.arch.err = true ∧ Host.Outcome.next (rejectUndecodable e s) = lockedOut s) ∨
    (s.arch.err = false ∧ Host.Outcome.next (rejectUndecodable e s) =
      raises s (match e with | .illop => .illop | .illarg => .illarg)) := by
  by_cases h : s.arch.err = true
  · refine .inl ⟨h, ?_⟩
    cases e <;> simp only [rejectUndecodable, State.raiseError, Arch.recordError_locked _ _ h] <;> rfl
  · have h' : s.arch.err = false := by simpa using h
    refine .inr ⟨h', ?_⟩
    cases e
    · exact raiseError_eq s .illop h'
    · exact raiseError_eq s .illarg h'

/-- R10, R67, R85, R300: the step, by cases on the port. -/
theorem step_cases (s : State) :
    (s.inbox = [] ∧ step s = .next s) ∨
    (∃ i rest, s.inbox = .reset i :: rest ∧ step s = .next ({ s with inbox := rest } : State).resetCore) ∨
    (∃ cw dw rest i, s.inbox = .command cw dw :: rest ∧ decode cw dw = .ok i ∧ step s = exec i { s with inbox := rest }) ∨
    ∃ cw dw rest e, s.inbox = .command cw dw :: rest ∧ decode cw dw = .error e ∧
      step s = .next (rejectUndecodable e { s with inbox := rest }) := by
  match h : s.inbox with
  | [] => exact .inl ⟨rfl, by rw [step, takeEvent_nil s h]⟩
  | .reset i :: rest => exact .inr (.inl ⟨i, rest, rfl, by rw [step, takeEvent_cons s _ _ h]⟩)
  | .command cw dw :: rest =>
    match hd : decode cw dw with
    | .ok i => exact .inr (.inr (.inl ⟨cw, dw, rest, i, rfl, hd, by simp only [step, takeEvent_cons s _ _ h, hd]⟩))
    | .error e => exact .inr (.inr (.inr ⟨cw, dw, rest, e, rfl, hd, by simp only [step, takeEvent_cons s _ _ h, hd]⟩))

end Sys2Proof.Machine
end

