-- ==== Sys2Proof/Laws/Streaming.lean ====
section
/-! SUPPORT. What Absorb does to a whole message from an empty block: the full blocks are compressed in order and the rest
stands in BUF (R192, R195, R196, R38 item 5). -/

namespace Sys2Proof.Machine

/-! ### Words and blocks of a bit sequence -/

theorem testBit_foldl_bits (s : Bits) (acc k : Nat) :
    (s.foldl (fun acc b => 2 * acc + b.toNat) acc).testBit k =
      if k < s.length then s.getD (s.length - 1 - k) false else acc.testBit (k - s.length) := by
  induction s generalizing acc with
  | nil => simp
  | cons b s ih =>
    rw [List.foldl_cons, ih, List.length_cons]
    by_cases h1 : k < s.length
    · rw [if_pos h1, if_pos (by omega), show s.length + 1 - 1 - k = (s.length - 1 - k) + 1 by omega, List.getD_cons_succ]
    · rw [if_neg h1]
      by_cases h2 : k = s.length
      · subst h2
        rw [if_pos (by omega), Nat.sub_self, show s.length + 1 - 1 - s.length = 0 by omega, List.getD_cons_zero,
          Nat.testBit_zero]
        cases b <;> simp
      · rw [if_neg (by omega), show k - s.length = (k - (s.length + 1)) + 1 by omega, Nat.testBit_succ]
        congr 1
        cases b
        · simp
        · simp; omega

/-- R7: the bits of word j of a sequence, most significant first. -/
theorem getLsbD_wordAt (s : Bits) (j i : Nat) (hi : i < 32) (hs : 32 * j + 32 ≤ s.length) :
    (wordAt s j).getLsbD (31 - i) = s.getD (32 * j + i) false := by
  have hlen : ((s.drop (32 * j)).take 32).length = 32 := by simp; omega
  rw [wordAt, BitVec.getLsbD_ofNat, bitsValue, testBit_foldl_bits, hlen, if_pos (by omega)]
  simp only [show 31 - i < 32 by omega, decide_true, Bool.true_and]
  rw [show 32 - 1 - (31 - i) = i by omega]
  simp [List.getD_eq_getElem?_getD, hi]

/-- R192: stream position q of block n is bit 512 n + q of the sequence. -/
theorem bitAt_blockAt (s : Bits) (n : Nat) (q : Fin 512) (hs : 512 * n + 512 ≤ s.length) :
    bitAt (blockAt s n) q = s.getD (512 * n + q.val) false := by
  have hq := q.isLt
  rw [bitAt, blockAt, Vector.getElem_ofFn, getLsbD_wordAt _ _ _ (by omega) (by simp only; omega)]
  congr 1
  simp only
  omega

/-- The first block of a sequence is its first 512 bits in an empty block. -/
theorem blockAt_zero (s : Bits) (hs : 512 ≤ s.length) : blockAt s 0 = orBits zeroBlock 0 (s.take 512) := by
  apply block_ext
  intro q
  have hq := q.isLt
  rw [bitAt_blockAt s 0 q (by omega), bitAt_orBits, bitAt_zeroBlock]
  simp [List.getD_eq_getElem?_getD, hq]

theorem blockAt_succ (s : Bits) (n : Nat) (hs : 512 * (n + 1) + 512 ≤ s.length) :
    blockAt s (n + 1) = blockAt (s.drop 512) n := by
  apply block_ext
  intro q
  rw [bitAt_blockAt s (n + 1) q hs, bitAt_blockAt _ n q (by simp; omega)]
  simp only [List.getD_eq_getElem?_getD, List.getElem?_drop]
  congr 2
  omega

theorem blocksOf_short (s : Bits) (hs : s.length < 512) : blocksOf s = [] := by
  rw [blocksOf, Nat.div_eq_of_lt hs]
  rfl

/-- R192: a sequence of at least 512 bits is its first block and the blocks of the rest. -/
theorem blocksOf_cons (s : Bits) (hs : 512 ≤ s.length) : blocksOf s = blockAt s 0 :: blocksOf (s.drop 512) := by
  have hlen : (s.drop 512).length = s.length - 512 := by simp
  rw [blocksOf, blocksOf, hlen, show s.length / Config.blockBits = (s.length - 512) / Config.blockBits + 1 by
    show s.length / 512 = (s.length - 512) / 512 + 1; omega, List.range_succ_eq_map, List.map_cons, List.map_map]
  congr 1
  apply List.map_congr_left
  intro n hn
  have hn' : n < (s.length - 512) / 512 := List.mem_range.mp hn
  exact blockAt_succ s n (by omega)

/-! ### Absorbing a message -/

/-- R195, R196: from an empty block, Absorb(m) leaves H the chaining of the full blocks of m, in order, and BUF the bits of
m after them, followed by zeros. -/
theorem absorb_from_empty (a : Arch) (m : Bits) (hf : a.fill = 0#9) (hb : a.buf = zeroBlock) :
    (a.absorb m).h = (blocksOf m).foldl compressBlock a.h ∧
      (a.absorb m).buf = orBits zeroBlock 0 (m.drop (512 * (m.length / 512))) := by
  induction hn : m.length using Nat.strongRecOn generalizing a m with
  | ind n ih =>
    subst hn
    have hf0 : a.fill.toNat = 0 := by rw [hf]; rfl
    rcases Nat.lt_or_ge m.length 512 with h | h
    · rw [absorb_within a m (by omega), blocksOf_short m h, Nat.div_eq_of_lt h]
      exact ⟨rfl, by rw [hb, hf0]; rfl⟩
    · have htake : (m.take 512).length = 512 := by simp; omega
      have hsplit : a.absorb m = (a.absorb (m.take 512)).absorb (m.drop 512) := by
        rw [← absorb_append, List.take_append_drop]
      have hc := absorb_completes a (m.take 512) (by intro e; rw [e] at htake; simp at htake) (by omega)
      have hlen : (m.drop 512).length = m.length - 512 := by simp
      obtain ⟨ih1, ih2⟩ := ih (m.length - 512) (by omega) (a.absorb (m.take 512)) (m.drop 512) (by rw [hc]) (by rw [hc]) hlen
      rw [hsplit, ih1, ih2, blocksOf_cons m h, List.foldl_cons, blockAt_zero m h, List.drop_drop]
      refine ⟨by rw [hc, hf0, hb], ?_⟩
      congr 2
      omega

/-- R38 item 5: the bits of BUF after Absorb(m) from an empty block. -/
theorem bitAt_absorb_from_empty (a : Arch) (m : Bits) (hf : a.fill = 0#9) (hb : a.buf = zeroBlock) (q : Fin 512) :
    bitAt (a.absorb m).buf q = m.getD (512 * (m.length / 512) + q.val) false := by
  rw [(absorb_from_empty a m hf hb).2, bitAt_orBits, bitAt_zeroBlock]
  simp [List.getD_eq_getElem?_getD]

/-! ### The blocks handed to Compress, and H (R195 to R197) -/

theorem chain_append (s : Words8) (bs bs' : List Block) : chain s (bs ++ bs') = chain (chain s bs) bs' := by
  simp [chain, List.foldl_append]

theorem putBit_chain (a : Arch) (b : Bool) : (a.putBit b).h = chain a.h (blocksOfPutBit a b) := by
  by_cases h : a.fill.toNat = 511
  · rw [putBit_completes a b h, blocksOfPutBit, if_pos h]
    rfl
  · rw [putBit_within a b h, blocksOfPutBit, if_neg h]
    rfl

/-- H after Absorb(s) is the chaining of the blocks it hands to Compress. -/
theorem absorb_chain (a : Arch) (s : Bits) : (a.absorb s).h = chain a.h (blocksOfAbsorb a s) := by
  induction s generalizing a with
  | nil => rfl
  | cons b s ih =>
    rw [absorb_cons, ih, blocksOfAbsorb, chain_append, ← putBit_chain]
    rfl

/-- H after Finalise() is the chaining of the blocks it hands to Compress. -/
theorem finalise_chain (a : Arch) : a.finalise.h = chain a.h (blocksOfFinalise a) := by
  rw [Arch.finalise, blocksOfFinalise, chain_append, ← putBit_chain]
  by_cases h : (a.putBit true).fill.toNat > 448
  · simp only [Config.lengthFieldAt, if_pos h, flushBlock_eq]
    rfl
  · simp only [Config.lengthFieldAt, if_neg h, flushBlock_eq]
    rfl

end Sys2Proof.Machine
end

