-- ==== Sys2Proof/Tests/Slice0.lean ====
section
/-! SUPPORT. Tests of the model on values the spec prints (spec/95_test_vectors.md, spec/96_trace_abc_block.md,
spec/30_encoding.md, spec/41_constant_tables.md), and for every statement with hypotheses a witness that meets them. -/

namespace Sys2Proof.Tests

open Sys2Proof Sys2Proof.Machine

/-! ### Helpers -/

/-- A state with the command (cw, dw) at the port. -/
def atPort (a : Arch) (cw dw : Word) : State := { arch := a, inbox := [.command cw dw], response := none }

/-- A state with nothing at the port. -/
def quiet (a : Arch) : State := { arch := a, inbox := [], response := none }

/-- What the host sees of a step: `rw`, `er`, and the STATUS word afterwards. -/
def seen (o : Host.Outcome State Fault Refusal) : Option (Word × Bool × Word) :=
  match o with
  | .next t => t.response.map fun r => (r.rw, r.er, status t.arch)
  | .fault _ => none
  | .refused _ => none

/-- What one register holds after a step. -/
def after {α : Type} (f : Arch → α) (o : Host.Outcome State Fault Refusal) : Option α :=
  match o with
  | .next t => some (f t.arch)
  | .fault _ => none
  | .refused _ => none

def hinitA : Arch := { Arch.reset with h := iv, mode := .hash }
def minitA : Arch := { Arch.reset with h := iv, hm := true, mode := .key }
def hmsgA : Arch := { Arch.reset with h := iv, hm := true, len := 512#64, mode := .hmsg }
def rinitA : Arch := { Arch.reset with h := iv, mode := .raw }
def lockedA : Arch := { Arch.reset with err := true, ecode := .illop }

/-- E2: the padded block of "abc". -/
def abcBlock : Block := (zeroBlock.set 0 0x61626380#32).set 15 0x00000018#32

/-- E2: the digest of "abc". -/
def abcDigest : Words8 :=
  #v[0xba7816bf#32, 0x8f01cfea#32, 0x414140de#32, 0x5dae2223#32, 0xb00361a3#32, 0x96177a9c#32, 0xb410ff61#32, 0xf20015ad#32]

def doneA : Arch := { Arch.reset with h := abcDigest, len := 24#64, mode := .done }
def rawAbcA : Arch := { rinitA with buf := abcBlock }
def cloadA : Arch := { rawAbcA with v := iv, win := abcBlock, cact := true }

/-- P3 after command 91 (spec/96_trace_abc_block.md, round 63): 64 rounds done, the window empty. -/
def steppedA : Arch :=
  { rawAbcA with
    v := #v[0x506e3058#32, 0xd39a2165#32, 0x04d24d6c#32, 0xb85e2ce9#32, 0x5ef50f24#32, 0xfb121210#32, 0x948d25b6#32,
      0x961f4894#32]
    t := 64#7
    cact := true }

/-- X64: LEN = 2^64 - 16, FILL = 496. -/
def nearlyFullA : Arch := { hinitA with len := 0xfffffffffffffff0#64, fill := 496#9 }

/-! ### Well-formedness: the one check, and an ill-formed term on each side of it -/

theorem test_wellFormed_push_zero : (Instr.push 0 0xFFFFFFFF#32).wellFormed = false := by decide
theorem test_wellFormed_push_33 : (Instr.push 33 0#32).wellFormed = false := by decide
theorem test_wellFormed_push_bounds : (Instr.push 1 0#32).wellFormed = true ∧ (Instr.push 32 0#32).wellFormed = true := by
  decide

/-! ### Decoding: words written out from R80, R84, R93 -/

theorem test_decode_control :
    decode 0x00000000#32 0xDEADBEEF#32 = .ok .nop ∧ decode 0x01000000#32 0#32 = .ok .clr ∧
      decode 0x02000000#32 0#32 = .ok .rdstat := by decide

theorem test_decode_hash :
    decode 0x10000000#32 0#32 = .ok .hinit ∧ decode 0x13000018#32 0x61626300#32 = .ok (.push 24 0x61626300#32) ∧
      decode 0x14000000#32 0#32 = .ok .final ∧ decode 0x15000003#32 0#32 = .ok (.rddig 3) := by decide

theorem test_decode_hmac : decode 0x11000000#32 0#32 = .ok .minit ∧ decode 0x12000000#32 0#32 = .ok .kend := by decide

theorem test_decode_raw_write :
    decode 0x20000000#32 0#32 = .ok .rinit ∧ decode 0x21000007#32 0x11111111#32 = .ok (.wrh 7 0x11111111#32) ∧
      decode 0x2200000F#32 0x00000018#32 = .ok (.wrb 15 0x00000018#32) := by decide

theorem test_decode_raw_compress :
    decode 0x23000000#32 0#32 = .ok .comp ∧ decode 0x24000000#32 0#32 = .ok .cload ∧ decode 0x25000000#32 0#32 = .ok .step ∧
      decode 0x26000000#32 0#32 = .ok .cfin := by decide

theorem test_decode_raw_read :
    decode 0x27000007#32 0#32 = .ok (.rdh 7) ∧ decode 0x28000004#32 0#32 = .ok (.rdv 4) ∧
      decode 0x2900000F#32 0#32 = .ok (.rdw 15) ∧ decode 0x2A000008#32 0#32 = .ok (.rdb 8) := by decide

/-- R90: reserved opcodes and a non-zero RSV, which wins over a bad ARG (X3 to X8, X12). -/
theorem test_decode_illop :
    decode 0x03000000#32 0#32 = .error .illop ∧ decode 0xFF000000#32 0#32 = .error .illop ∧
      decode 0x16000000#32 0#32 = .error .illop ∧ decode 0x2B000000#32 0#32 = .error .illop ∧
      decode 0x00000100#32 0#32 = .error .illop ∧ decode 0x10800000#32 0#32 = .error .illop ∧
      decode 0x13010000#32 0#32 = .error .illop := by decide

/-- R81: the first ARG outside each form (X9, X11, X18, X29, X43, X44). -/
theorem test_decode_illarg :
    decode 0x10000001#32 0#32 = .error .illarg ∧ decode 0x13000000#32 0#32 = .error .illarg ∧
      decode 0x13000021#32 0#32 = .error .illarg ∧ decode 0x15000008#32 0#32 = .error .illarg ∧
      decode 0x21000008#32 0#32 = .error .illarg ∧ decode 0x22000010#32 0#32 = .error .illarg := by decide

/-- The table's numbering: the command word is the first word, the data word the second. -/
theorem test_decodeTableWord :
    decodeTableWord 32 0x2700000A = none ∧ decodeTableWord 32 0x27000005 = some (.rdh 5) ∧
      decodeTableWord 64 0x6162630013000018 = some (.push 24 0x61626300#32) ∧
      decodeTableWord 32 0x13000018 = some (.push 24 0#32) := by decide

/-- R93's examples of the textual form. -/
theorem test_assemble :
    assembleLine "HINIT".toList = some (0x10000000#32, 0#32) ∧
      assembleLine "PUSH 24, 0x61626300 ; abc".toList = some (0x13000018#32, 0x61626300#32) ∧
      assembleLine "RDDIG 3".toList = some (0x15000003#32, 0#32) ∧
      assembleLine "WRB 15, 0x00000018".toList = some (0x2200000F#32, 0x00000018#32) := by decide

/-- R94: PUSHBYTES of "abc" is one PUSH 24, and 33 bits are a PUSH 32 and a PUSH 1. -/
theorem test_pseudo_commands :
    pushBytes [0x61, 0x62, 0x63] = [.push 24 0x61626300#32] ∧
      pushBitString (List.replicate 33 true) = [.push 32 0xFFFFFFFF#32, .push 1 0x80000000#32] ∧
      pushByte 0x61#8 = [.push 8 0x61000000#32] := by decide

/-! ### The operators and tables (95_test_vectors.md section 2) -/

theorem test_add32 :
    add32 [0xffffffff#32, 0x00000001#32] = 0#32 ∧ add32 [0x12345678#32, 0x9abcdef0#32] = 0xacf13568#32 ∧
      add32 [0xffffffff#32, 0xffffffff#32, 0xffffffff#32, 0xffffffff#32, 0xffffffff#32] = 0xfffffffb#32 := by decide

theorem test_rotr_shr :
    rotr 0x00000001#32 1 = 0x80000000#32 ∧ rotr 0x80000000#32 31 = 0x00000001#32 ∧ rotr 0x12345678#32 7 = 0xf02468ac#32 ∧
      shr 0x80000000#32 3 = 0x10000000#32 ∧ shr 0x12345678#32 10 = 0x00048d15#32 := by decide

theorem test_small_and_big_sigma :
    sigma0 0x12345678#32 = 0xe7fce6ee#32 ∧ sigma1 0x12345678#32 = 0xa1f78649#32 ∧ bigSigma0 0x12345678#32 = 0x66146474#32 ∧
      bigSigma1 0x12345678#32 = 0x3561abda#32 ∧ sigma0 0x00000001#32 = 0x02004000#32 ∧ sigma1 0x00000018#32 = 0x000f0000#32 := by
  decide

theorem test_ch_maj :
    ch 0xf0f0f0f0#32 0x12345678#32 0x9abcdef0#32 = 0x1a3c5e70#32 ∧ maj 0xf0f0f0f0#32 0x12345678#32 0x9abcdef0#32 = 0x92b4d6f0#32 := by
  decide

/-- The checksums of K and IV. -/
theorem test_tables :
    add32 roundConstants = 0x941d1755#32 ∧ roundConstants.foldl (· ^^^ ·) 0#32 = 0x95c49cf5#32 ∧
      add32 iv.toList = 0x6ea8df67#32 ∧ iv.toList.foldl (· ^^^ ·) 0#32 = 0xc62760eb#32 ∧ roundConstants.length = 64 := by
  decide

/-- R190 (section 5, rows L = 447, 448): k = 0 and k = 511. -/
theorem test_padZeros : padZeros 0 = 447 ∧ padZeros 24 = 423 ∧ padZeros 447 = 0 ∧ padZeros 448 = 511 ∧ padZeros 960 = 511 := by
  decide

/-- E2 at the function level: one block. -/
theorem test_compress_abc : compressBlock iv abcBlock = abcDigest := by decide +kernel

/-- E2 as CL prints it (R62(c)). -/
theorem test_digestHex_abc :
    digestHex abcDigest = "ba7816bf8f01cfea414140de5dae2223b00361a396177a9cb410ff61f20015ad".toList := by decide

/-! ### Reset and the port -/

/-- X2; and the reset input during a command (R300, R73). -/
theorem test_reset_input :
    after id (step { arch := doneA, inbox := [.reset (some (0x15000000#32, 0#32))], response := some okResponse }) =
      some Arch.reset := by decide

/-- R67: the earliest command is taken first. -/
theorem test_commands_in_order :
    after (·.mode) (step { quiet Arch.reset with inbox := [.command 0x10000000#32 0#32, .command 0x20000000#32 0#32] }) =
      some Mode.hash := by decide

/-! ### One step of each command (section 8) -/

theorem test_nop : seen (step (atPort Arch.reset 0x00000000#32 0xDEADBEEF#32)) = some (0#32, false, 0#32) := by decide
theorem test_nop_locked :
    seen (step (atPort lockedA 0x00000000#32 0#32)) = some (0#32, false, 0x180#32) ∧
      seen (step (atPort lockedA 0x00000001#32 0#32)) = some (0#32, true, 0x180#32) := by decide

theorem test_clr : after id (step (atPort doneA 0x01000000#32 0#32)) = some Arch.reset := by decide
theorem test_clr_locked : seen (step (atPort lockedA 0x01000000#32 0#32)) = some (0#32, false, 0#32) := by decide

theorem test_rdstat :
    seen (step (atPort { hinitA with fill := 24#9 } 0x02000000#32 0#32)) = some (0x0C000001#32, false, 0x0C000001#32) := by decide
theorem test_rdstat_locked : seen (step (atPort lockedA 0x02000000#32 0#32)) = some (0x180#32, false, 0x180#32) := by decide

theorem test_hinit :
    seen (step (atPort doneA 0x10000000#32 0#32)) = some (0#32, false, 1#32) ∧
      after (·.h) (step (atPort doneA 0x10000000#32 0#32)) = some iv := by decide
theorem test_hinit_rejected :
    seen (step (atPort lockedA 0x10000000#32 0#32)) = some (0#32, true, 0x180#32) ∧
      seen (step (atPort Arch.reset 0x10000001#32 0#32)) = some (0#32, true, 0x280#32) := by decide

theorem test_minit : seen (step (atPort doneA 0x11000000#32 0#32)) = some (0#32, false, 0xA#32) := by decide

/-- X36 and section 7, M1: the first inner block of the empty key. -/
theorem test_kend :
    seen (step (atPort minitA 0x12000000#32 0#32)) = some (0#32, false, 0xB#32) ∧
      after (fun a => (a.h[0], a.h[7], a.len)) (step (atPort minitA 0x12000000#32 0#32)) =
        some (0xf454dead#32, 0xf8e04e32#32, 512#64) := by decide +kernel
theorem test_kend_rejected : seen (step (atPort hinitA 0x12000000#32 0#32)) = some (0#32, true, 0x381#32) := by decide

/-- X38: the bits go to BUF and, in KEY mode, to K0. -/
theorem test_push :
    seen (step (atPort minitA 0x13000020#32 0x4A656665#32)) = some (0#32, false, 0x1000000A#32) ∧
      after (fun a => (a.k0[0], a.buf[0], a.len)) (step (atPort minitA 0x13000020#32 0x4A656665#32)) =
        some (0x4a656665#32, 0x4a656665#32, 32#64) := by decide +kernel
/-- X64, X65: the length overflow, and the last length that fits. -/
theorem test_push_lenovf :
    seen (step (atPort nearlyFullA 0x13000010#32 0xFFFF0000#32)) = some (0#32, true, 0xF8000481#32) ∧
      seen (step (atPort nearlyFullA 0x1300000F#32 0xFFFF0000#32)) = some (0#32, false, 0xFF800001#32) := by decide +kernel

/-- P1: FINAL after HINIT and PUSH 24 "abc". -/
theorem test_final_hash :
    after (fun a => (a.h, a.mode, a.len))
      (step (atPort { hinitA with buf := zeroBlock.set 0 0x61626300#32, fill := 24#9, len := 24#64 } 0x14000000#32 0#32)) =
      some (abcDigest, .done, 24#64) := by decide +kernel
/-- P2, M1: FINAL of the HMAC of the empty message under the empty key. -/
theorem test_final_hmac :
    after (fun a => (a.h[0], a.inner[0], status a))
      (step (atPort
        { hmsgA with
          h := #v[0xf454dead#32, 0x9725214f#32, 0x90daf2a0#32, 0xdf1228ea#32, 0x64e5750f#32, 0xa3924181#32, 0x824a932b#32,
            0xf8e04e32#32] } 0x14000000#32 0#32)) =
      some (0xb613679a#32, 0xe72bbd4d#32, 0xD#32) := by decide +kernel

theorem test_rddig :
    seen (step (atPort doneA 0x15000000#32 0#32)) = some (0xBA7816BF#32, false, 5#32) ∧
      seen (step (atPort doneA 0x15000007#32 0#32)) = some (0xF20015AD#32, false, 5#32) := by decide
theorem test_rddig_rejected :
    seen (step (atPort doneA 0x15000008#32 0#32)) = some (0#32, true, 0x285#32) ∧
      seen (step (atPort hinitA 0x15000000#32 0#32)) = some (0#32, true, 0x381#32) := by decide

theorem test_rinit :
    seen (step (atPort doneA 0x20000000#32 0#32)) = some (0#32, false, 4#32) ∧
      after (fun a => (a.h, a.len)) (step (atPort doneA 0x20000000#32 0#32)) = some (iv, 0#64) := by decide

theorem test_wrh : after (fun a => (a.h[7], a.h[6])) (step (atPort rinitA 0x21000007#32 0x11111111#32)) =
    some (0x11111111#32, 0x1f83d9ab#32) := by decide
theorem test_wrh_cact : seen (step (atPort cloadA 0x21000000#32 0x11111111#32)) = some (0#32, true, 0x3A4#32) := by decide

theorem test_wrb : seen (step (atPort rinitA 0x2200000F#32 0x18#32)) = some (0#32, false, 4#32) ∧
    after (fun a => (a.buf[15], a.buf[14])) (step (atPort rinitA 0x2200000F#32 0x18#32)) = some (0x18#32, 0#32) := by decide
theorem test_wrb_cact : seen (step (atPort cloadA 0x22000000#32 0x11111111#32)) = some (0#32, true, 0x3A4#32) := by decide

theorem test_comp :
    after (fun a => (a.h, a.v[0], a.buf, a.win)) (step (atPort rawAbcA 0x23000000#32 0#32)) =
      some (abcDigest, 0x506e3058#32, abcBlock, zeroBlock) := by decide +kernel
theorem test_comp_rejected : seen (step (atPort Arch.reset 0x23000000#32 0#32)) = some (0#32, true, 0x380#32) := by decide

theorem test_cload : seen (step (atPort rawAbcA 0x24000000#32 0#32)) = some (0#32, false, 0x24#32) ∧
    after id (step (atPort rawAbcA 0x24000000#32 0#32)) = some cloadA := by decide
theorem test_cload_cact : seen (step (atPort cloadA 0x24000000#32 0#32)) = some (0#32, true, 0x3A4#32) := by decide

/-- P3 commands 20 to 24: round 0 of "abc", and W[16] shifted in. -/
theorem test_step :
    seen (step (atPort cloadA 0x25000000#32 0#32)) = some (0#32, false, 0x00010024#32) ∧
      after (fun a => (a.v[0], a.v[4], a.win[15], a.win[0])) (step (atPort cloadA 0x25000000#32 0#32)) =
        some (0x5D6AEBCD#32, 0xFA2A4622#32, 0x61626380#32, 0#32) := by decide +kernel
theorem test_step_rejected :
    seen (step (atPort steppedA 0x25000000#32 0#32)) = some (0#32, true, 0x004003A4#32) ∧
      seen (step (atPort rinitA 0x25000000#32 0#32)) = some (0#32, true, 0x384#32) := by decide

theorem test_cfin : seen (step (atPort steppedA 0x26000000#32 0#32)) = some (0#32, false, 4#32) ∧
    after (·.h) (step (atPort steppedA 0x26000000#32 0#32)) = some abcDigest := by decide +kernel
theorem test_cfin_rejected : seen (step (atPort cloadA 0x26000000#32 0#32)) = some (0#32, true, 0x3A4#32) := by decide

theorem test_rdh : seen (step (atPort rinitA 0x27000007#32 0#32)) = some (0x5BE0CD19#32, false, 4#32) := by decide
theorem test_rdh_rejected : seen (step (atPort doneA 0x27000000#32 0#32)) = some (0#32, true, 0x385#32) := by decide
theorem test_rdv : seen (step (atPort steppedA 0x28000007#32 0#32)) = some (0x961F4894#32, false, 0x00400024#32) := by decide
theorem test_rdv_rejected : seen (step (atPort hinitA 0x28000000#32 0#32)) = some (0#32, true, 0x381#32) := by decide
theorem test_rdw : seen (step (atPort cloadA 0x2900000F#32 0#32)) = some (0x18#32, false, 0x24#32) := by decide
theorem test_rdb : seen (step (atPort rawAbcA 0x2A000000#32 0#32)) = some (0x61626380#32, false, 4#32) := by decide

/-- Log entry 2: withFetchWord presents the table word's command next. -/
theorem test_withFetchWord :
    seen (step (State.reset.withFetchWord 32 0x10000000)) = some (0#32, false, 1#32) ∧
      seen (step (State.reset.withFetchWord 64 0x6162630013000018)) = some (0#32, true, 0x380#32) := by decide

/-! ### Witnesses: for every statement with hypotheses, a state and operands that meet them -/

theorem witness_ResetInputRestoresEveryElement :
    ({ quiet doneA with inbox := [.reset none] } : State).inbox = .reset none :: [] ∧
      ({ quiet doneA with inbox := [.reset (some (0x14000000#32, 0#32))] } : State).inbox =
        .reset (some (0x14000000#32, 0#32)) :: [] := ⟨rfl, rfl⟩

theorem witness_UnaddressedCoreDoesNothing : State.reset.inbox = [] ∧ (quiet steppedA).inbox = [] := ⟨rfl, rfl⟩

theorem witness_StepRunsTheDecodedCommand :
    (atPort hinitA 0x13000018#32 0x61626300#32).inbox = .command 0x13000018#32 0x61626300#32 :: [] ∧
      decode 0x13000018#32 0x61626300#32 = .ok (.push 24 0x61626300#32) := by decide

/-- One word for each clause, at the bounds of OPC, RSV and ARG. -/
theorem witness_StepRejectsEveryMalformedWord :
    (∀ cw dw : Word, (atPort lockedA cw dw).inbox = .command cw dw :: [] ∧ (atPort lockedA cw dw).arch.err = true) ∧
    (∀ cw dw : Word, (atPort hinitA cw dw).inbox = .command cw dw :: [] ∧ (atPort hinitA cw dw).arch.err = false) ∧
    illopWord 0x03000000#32 ∧ illopWord 0x2B000000#32 ∧ illopWord 0x00000100#32 ∧ illopWord 0x15800008#32 ∧
    (¬ illopWord 0x00000001#32 ∧ illargWord 0x00000001#32) ∧ (¬ illopWord 0x27000008#32 ∧ illargWord 0x27000008#32) ∧
    (¬ illopWord 0x2A000010#32 ∧ illargWord 0x2A000010#32) ∧ (¬ illopWord 0x13000000#32 ∧ illargWord 0x13000000#32) ∧
    (¬ illopWord 0x13000021#32 ∧ illargWord 0x13000021#32) ∧ (¬ illopWord 0x13000020#32 ∧ ¬ illargWord 0x13000020#32) ∧
    (¬ illopWord 0x2A00000F#32 ∧ ¬ illargWord 0x2A00000F#32) ∧ (¬ illopWord 0x27000007#32 ∧ ¬ illargWord 0x27000007#32) := by
  refine ⟨fun _ _ => ⟨rfl, rfl⟩, fun _ _ => ⟨rfl, rfl⟩, ?_, ?_, ?_, ?_, ?_, ?_, ?_, ?_, ?_, ?_, ?_, ?_⟩ <;>
    (unfold illopWord; try unfold illargWord) <;> decide

theorem witness_DecodeInvertsEncode :
    (Instr.push 32 0x12345678#32).wellFormed = true ∧ (Instr.push 1 0#32).wellFormed = true ∧
      (Instr.wrb 15 0xFFFFFFFF#32).wellFormed = true := by decide

theorem witness_EncodeInvertsDecode :
    decode 0x2200000F#32 0x18#32 = .ok (.wrb 15 0x18#32) ∧ decode 0x14000000#32 0xFFFFFFFF#32 = .ok .final := by decide

/-- A row and words it selects, one whose RSV is not zero, and one whose ARG is out of range. -/
theorem witness_OpcodeTableAgreesWithDecoder :
    ∃ r ∈ opcodeTable, r.selects 0x13000020#32 = true ∧
      (opcOf 0x13000120#32 = opcOf r.pattern ∧ r.selects 0x13000120#32 = false) ∧
      (opcOf 0x13000021#32 = opcOf r.pattern ∧ r.selects 0x13000021#32 = false) ∧
      (opcOf 0x13000000#32 = opcOf r.pattern ∧ r.selects 0x13000000#32 = false) :=
  ⟨{ mnemonic := "PUSH", pattern := 0x13000000#32, mask := 0xFFFFFFC0#32, countLow := 1, countHigh := 32 }, by decide,
    by decide, by decide, by decide, by decide⟩

theorem witness_OpcodeTableRowsAreDisjoint :
    ∃ r ∈ opcodeTable, r.selects 0x2A00000F#32 = true := ⟨{ mnemonic := "RDB", pattern := 0x2A000000#32, mask := 0xFFFFFFF0#32 },
  by decide, by decide⟩

/-- A command that ignores `dw`, and a PUSH of 8 bits whose other 24 differ. -/
theorem witness_UnusedDataBitsHaveNoEffect :
    (opcOf 0x00000000#32 ≠ 0x13#8 ∧ opcOf 0x00000000#32 ≠ 0x21#8 ∧ opcOf 0x00000000#32 ≠ 0x22#8) ∧
    (opcOf 0x13000008#32 = 0x13#8 ∧ ∀ k : Nat, k < (argOf 0x13000008#32).toNat →
      (0x61FFFFFF#32).getLsbD (31 - k) = (0x61000000#32).getLsbD (31 - k)) ∧
    (atPort hinitA 0x13000008#32 0x61FFFFFF#32).inbox = .command 0x13000008#32 0x61FFFFFF#32 :: [] ∧
    atPort hinitA 0x13000008#32 0x61000000#32 =
      { atPort hinitA 0x13000008#32 0x61FFFFFF#32 with inbox := .command 0x13000008#32 0x61000000#32 :: [] } := by
  refine ⟨by decide, ⟨by decide, ?_⟩, rfl, rfl⟩
  have : (argOf 0x13000008#32).toNat = 8 := by decide
  rw [this]
  decide

/-- The bounds of STEP and CFIN, and a command out of its mode. -/
theorem witness_CommandOutOfSequenceRaisesSeq :
    ((quiet steppedA).arch.err = false ∧ ¬ legalNow .step steppedA) ∧ ¬ legalNow .cfin { steppedA with t := 63#7 } ∧
      ¬ legalNow (.wrh 0 0#32) cloadA ∧ ¬ legalNow .final minitA ∧ ¬ legalNow (.rddig 0) hinitA ∧ ¬ legalNow .kend Arch.reset ∧
      ¬ legalNow (.push 1 0#32) doneA ∧ Instr.wellFormed (.push 1 0#32) = true := by
  simp only [legalNow]
  decide

/-- For every command a state in which it executes. -/
theorem witness_LegalCommandExecutes (j : Fin 8) (k : Fin 16) (dw : Word) :
    executesNow .nop lockedA ∧ executesNow .clr lockedA ∧ executesNow .rdstat lockedA ∧ executesNow .hinit doneA ∧
    executesNow .minit doneA ∧ executesNow .kend minitA ∧ executesNow (.push 32 dw) hinitA ∧ executesNow .final hinitA ∧
    executesNow .final hmsgA ∧ executesNow (.rddig j) doneA ∧ executesNow .rinit doneA ∧ executesNow (.wrh j dw) rinitA ∧
    executesNow (.wrb k dw) rinitA ∧ executesNow .comp rinitA ∧ executesNow .cload rinitA ∧ executesNow .step cloadA ∧
    executesNow .cfin steppedA ∧ executesNow (.rdh j) rinitA ∧ executesNow (.rdv j) cloadA ∧ executesNow (.rdw k) cloadA ∧
    executesNow (.rdb k) rinitA := by
  simp only [executesNow, alwaysExecutes, Instr.wellFormed, legalNow, overflowsLength]
  and_intros <;> decide

/-- The clauses meet at n = 0, 1, 32, 33 and at LEN + n = 2^64. -/
theorem witness_PushRejectsInPriorityOrder :
    (quiet lockedA).arch.err = true ∧ (quiet Arch.reset).arch.err = false ∧ (quiet Arch.reset).arch.mode = .idle ∧
      (quiet rinitA).arch.mode = .raw ∧ (quiet doneA).arch.mode = .done ∧ (quiet nearlyFullA).arch.err = false ∧
      (quiet nearlyFullA).arch.mode = .hash ∧ (quiet nearlyFullA).arch.len.toNat + 16 = 2 ^ 64 ∧
      ¬ (quiet nearlyFullA).arch.len.toNat + 15 > 2 ^ 64 - 1 := by decide

theorem witness_LockedCoreExecutesThreeCommands :
    (quiet lockedA).arch.err = true ∧ Instr.hinit ≠ .nop ∧ Instr.hinit ≠ .clr ∧ Instr.hinit ≠ .rdstat := by decide

/-- A locked core, and words none of which is CLR: an INIT, a status read, a malformed word. -/
theorem witness_LockHoldsUntilClear :
    ({ quiet lockedA with inbox := [.command 0x10000000#32 0#32, .command 0x02000000#32 0#32, .command 0x01000001#32 0#32] } :
      State).arch.err = true ∧
    ∀ c ∈ [((0x10000000#32 : Word), (0#32 : Word)), (0x02000000#32, 0#32), (0x01000001#32, 0#32)],
      decode c.1 c.2 ≠ .ok .clr := by
  simp only [List.forall_mem_cons]
  refine ⟨rfl, by decide, by decide, by decide, by simp⟩

/-- A rejected command and one that executes. -/
theorem witness_EveryResponseHasTheStatedShape :
    exec .kend (quiet Arch.reset) = .next ((quiet Arch.reset).raiseError .seq) ∧
      exec .nop (quiet Arch.reset) = .next ((quiet Arch.reset).complete Arch.reset) := ⟨rfl, rfl⟩

/-- An open core and an INIT command (HINIT, MINIT, RINIT). -/
theorem witness_init_commands : (quiet doneA).arch.err = false := rfl

/-- FILL + n at 511, 512 and 513; LEN + n at 512 and 513 in KEY mode; LEN + n = 2^64 - 1. -/
theorem witness_PushAbsorbsItsBits :
    (hinitA.err = false ∧ hinitA.mode = .hash ∧ hinitA.len.toNat + 1 ≤ 2 ^ 64 - 1) ∧
    (let a : Arch := { minitA with fill := 480#9, len := 480#64 }
     a.err = false ∧ a.mode = .key ∧ a.fill.toNat + 31 < 512 ∧ a.fill.toNat + 32 = 512 ∧ a.len.toNat + 32 = 512) ∧
    (let a : Arch := { minitA with fill := 481#9, len := 481#64 }
     a.err = false ∧ a.mode = .key ∧ a.fill.toNat + 32 = 513 ∧ a.len.toNat + 32 > 512) ∧
    (nearlyFullA.err = false ∧ nearlyFullA.len.toNat + 15 = 2 ^ 64 - 1) := by decide

theorem witness_ConsecutivePushesConcatenate :
    hinitA.err = false ∧ hinitA.mode = .hash ∧ 1 ≤ 1 ∧ 1 ≤ 31 ∧ 1 + 31 ≤ 32 ∧ hinitA.len.toNat + (1 + 31) ≤ 2 ^ 64 - 1 := by
  decide

theorem witness_FinalFinishesTheHash :
    hinitA.err = false ∧ hinitA.mode = .hash ∧ ({ hinitA with fill := 447#9 } : Arch).mode = .hash ∧
      ({ hinitA with fill := 448#9 } : Arch).mode = .hash := by decide

theorem witness_RddigReturnsADigestWord : doneA.err = false ∧ doneA.mode = .done := by decide

/-- Keys of 512 and of 513 bits. -/
theorem witness_KendFormsTheKeyAndOpensTheInnerHash :
    minitA.err = false ∧ minitA.mode = .key ∧ ({ minitA with len := 512#64 } : Arch).len.toNat ≤ 512 ∧
      ({ minitA with len := 513#64, fill := 1#9, klong := true } : Arch).len.toNat > 512 := by decide

theorem witness_FinalFinishesTheHmac : hmsgA.err = false ∧ hmsgA.mode = .hmsg := by decide

/-- WRH, WRB, COMP, CLOAD; and the four reads. -/
theorem witness_raw_commands : rinitA.err = false ∧ rinitA.mode = .raw ∧ rinitA.cact = false := by decide

/-- Both sides of the expander's bound, T = 47 and T = 48, and the last round. -/
theorem witness_StepCommandRunsOneRound :
    cloadA.err = false ∧ cloadA.mode = .raw ∧ cloadA.cact = true ∧ cloadA.t.toNat < 64 ∧
      ({ cloadA with t := 47#7 } : Arch).t.toNat < 48 ∧ ¬ ({ cloadA with t := 48#7 } : Arch).t.toNat < 48 ∧
      ({ cloadA with t := 63#7 } : Arch).t.toNat < 64 := by decide

theorem witness_CfinAddsTheWorkingState :
    steppedA.err = false ∧ steppedA.mode = .raw ∧ steppedA.cact = true ∧ steppedA.t.toNat = 64 := by decide

/-- No STEP and all 64. -/
theorem witness_SteppedCompressionShowsScheduleAndState :
    rawAbcA.err = false ∧ rawAbcA.mode = .raw ∧ rawAbcA.cact = false ∧
      ({ quiet rawAbcA with inbox := issue (.cload :: stepTimes 64) } : State).inbox = issue (.cload :: stepTimes 64) ++ [] ∧
      ({ quiet rawAbcA with inbox := issue (.cload :: stepTimes 0) } : State).inbox = issue (.cload :: stepTimes 0) ++ [] := by
  simp
  decide

/-- A status read and a read of WIN between the steps. -/
theorem witness_SteppedCompressionEqualsComp :
    let cmds : List Instr := [.cload, .rdstat, .rdw 15] ++ stepTimes 64 ++ [.rdv 0, .cfin, .nop]
    rawAbcA.err = false ∧ rawAbcA.mode = .raw ∧ rawAbcA.cact = false ∧
      cmds.filter (fun i => !passiveInRaw i) = .cload :: stepTimes 64 ++ [.cfin] ∧
      ({ quiet rawAbcA with inbox := issue cmds } : State).inbox = issue cmds ++ [] := by
  refine ⟨rfl, rfl, rfl, by decide, by simp⟩

theorem witness_RawModeComputesTheHash :
    let cmds : List Instr := .rinit :: (blocksOf (pad [true])).flatMap fun b => writeBlock b ++ [.comp]
    doneA.err = false ∧ [true].length < 2 ^ 64 ∧ ({ quiet doneA with inbox := issue cmds } : State).inbox = issue cmds ++ [] := by
  refine ⟨rfl, by decide, by simp⟩

theorem witness_RawModeIsClosed :
    rinitA.mode = .raw ∧ exec (.rdb 0) (quiet rinitA) = .next ((quiet rinitA).respond 0#32) := ⟨rfl, rfl⟩

/-- "abc" in two pushes with a status read between. -/
theorem witness_StreamedMessageHashesToSha256 :
    let cmds : List Instr := [.push 8 0x61000000#32, .rdstat, .push 16 0x62630000#32]
    doneA.err = false ∧ (∀ i ∈ cmds, streamCommand i = true) ∧ (messageOf cmds).length ≤ 2 ^ 64 - 1 ∧
      messageOf cmds = bytesBits [0x61, 0x62, 0x63] ∧
      ({ quiet doneA with inbox := issue (.hinit :: cmds ++ [.final]) } : State).inbox =
        issue (.hinit :: cmds ++ [.final]) ++ [] := by
  refine ⟨rfl, by decide, by decide, by decide, by simp⟩

/-- M9: a key of three bits and a message of one; and a key of more than 512 bits. -/
theorem witness_StreamedKeyAndMessageGiveTheHmac :
    let keyCmds : List Instr := [.push 3 0xA0000000#32]
    let longKey : List Instr := List.replicate 16 (.push 32 0#32) ++ [.push 1 0#32]
    let msgCmds : List Instr := [.nop, .push 1 0x80000000#32]
    doneA.err = false ∧ (∀ i ∈ keyCmds, streamCommand i = true) ∧ (∀ i ∈ msgCmds, streamCommand i = true) ∧
      (messageOf keyCmds).length ≤ 2 ^ 64 - 1 ∧ (messageOf msgCmds).length ≤ 2 ^ 64 - 1 - 512 ∧
      (∀ i ∈ longKey, streamCommand i = true) ∧ 512 < (messageOf longKey).length ∧
      ({ quiet doneA with inbox := issue (.minit :: keyCmds ++ .kend :: msgCmds ++ [.final]) } : State).inbox =
        issue (.minit :: keyCmds ++ .kend :: msgCmds ++ [.final]) ++ [] := by
  refine ⟨rfl, by decide, by decide, by decide, by decide, by decide, by decide +kernel, by simp⟩

/-- Each of the three openings, with 513 bits pushed after MINIT. -/
theorem witness_OpenStreamHoldsItsBits :
    let cmds : List Instr := List.replicate 16 (.push 32 0xFFFFFFFF#32) ++ [.push 1 0#32]
    let keyCmds : List Instr := [.push 3 0xA0000000#32]
    doneA.err = false ∧ (∀ i ∈ cmds, streamCommand i = true) ∧ (∀ i ∈ keyCmds, streamCommand i = true) ∧
      (messageOf keyCmds).length ≤ 2 ^ 64 - 1 ∧ 512 + (messageOf cmds).length ≤ 2 ^ 64 - 1 ∧ 512 < (messageOf cmds).length ∧
      ({ quiet doneA with inbox := issue ([.minit] ++ cmds) } : State).inbox = issue ([.minit] ++ cmds) ++ [] ∧
      ({ quiet doneA with inbox := issue ((.minit :: keyCmds ++ [.kend]) ++ cmds) } : State).inbox =
        issue ((.minit :: keyCmds ++ [.kend]) ++ cmds) ++ [] := by
  have hlen : (messageOf (List.replicate 16 (.push 32 0xFFFFFFFF#32) ++ [.push 1 0#32])).length = 513 := by decide +kernel
  refine ⟨rfl, by decide, by decide, by decide, ?_, ?_, by simp, by simp⟩
  · rw [hlen]; decide
  · rw [hlen]; decide

theorem witness_StreamedBlocksAreTheBlocksOfPad : ([] : Bits).length < 2 ^ 64 ∧ (List.replicate 448 true).length < 2 ^ 64 := by
  simp only [List.length_replicate, List.length_nil]
  decide

/-- A command with no compression, one whose one computation ends in a block, and two with two computations. -/
theorem witness_CompressionCountsAreAsTabled_clauses :
    (executesNow .cload rawAbcA ∧ blocksCompressed .cload rawAbcA = []) ∧
    (executesNow .comp rawAbcA ∧ (chainings .comp rawAbcA).getLast? = some (iv, [] ++ [abcBlock])) ∧
    (∃ start bs last, chainings .kend { minitA with len := 513#64, fill := 1#9 } = [(start, bs), last]) ∧
    ∃ start bs last, chainings .final hmsgA = [(start, bs), last] := by
  refine ⟨⟨?_, rfl⟩, ⟨?_, rfl⟩, ⟨_, _, _, rfl⟩, ⟨_, _, _, rfl⟩⟩ <;>
    (simp only [executesNow, alwaysExecutes, Instr.wellFormed, legalNow, overflowsLength]; and_intros <;> decide)

/-- The bounds of the table: FILL = 447, 448 for FINAL; LEN = 512, 513 for KEND; FILL + n = 511, 512 for PUSH. -/
theorem witness_CompressionCountsAreAsTabled :
    executesNow .final { hinitA with fill := 447#9 } ∧ executesNow .final { hmsgA with fill := 448#9 } ∧
    executesNow .kend { minitA with len := 512#64 } ∧ executesNow .kend { minitA with len := 513#64, fill := 1#9 } ∧
    executesNow (.push 31 0#32) { hinitA with fill := 480#9 } ∧ executesNow (.push 32 0#32) { hinitA with fill := 480#9 } := by
  simp only [executesNow, alwaysExecutes, Instr.wellFormed, legalNow, overflowsLength]
  and_intros <;> decide

/-- The invariants hold in a state that is not the reset state, and a step leaves it. -/
theorem witness_EveryStepKeepsConsistency :
    cloadA.Consistent ∧ hinitA.Consistent ∧ (step (atPort hinitA 0x14000000#32 0#32) matches .next _) = true := by
  refine ⟨⟨?_, ?_, ?_, ?_, ?_, ?_, ?_, ?_, ?_, ?_⟩, ⟨?_, ?_, ?_, ?_, ?_, ?_, ?_, ?_, ?_, ?_⟩, rfl⟩ <;>
    decide +kernel

/-- The INIT commands, whose ERR/ECODE the matrix marks as read only, CLR on a locked core, and three that work. -/
theorem witness_AccessMatrixBoundsWrites :
    (doneA.countersInRange ∧ executesNow .hinit doneA ∧ executesNow .minit doneA ∧ executesNow .rinit doneA) ∧
    (lockedA.countersInRange ∧ executesNow .clr lockedA) ∧ (minitA.countersInRange ∧ executesNow .kend minitA) ∧
    (hmsgA.countersInRange ∧ executesNow .final hmsgA) ∧ (steppedA.countersInRange ∧ executesNow .cfin steppedA) := by
  simp only [executesNow, alwaysExecutes, Instr.wellFormed, legalNow, overflowsLength]
  and_intros <;> decide

/-- RDDIG in two DONE states that differ in K0, INNER and V. -/
theorem witness_UnreadElementsDoNotFlow :
    let b : Arch := { doneA with k0 := abcBlock, inner := iv, v := iv }
    (∀ e ∈ reads (.rddig 0) doneA.mode, e.same doneA b) ∧
      exec (.rddig 0) (quiet doneA) = .next ((quiet doneA).respond 0xba7816bf#32) ∧
      exec (.rddig 0) (quiet b) = .next ((quiet b).respond 0xba7816bf#32) := by
  refine ⟨?_, rfl, rfl⟩
  simp [reads, Element.same]

theorem witness_CommandsDependOnRegistersAlone :
    (quiet doneA).arch = (atPort doneA 0x01000000#32 0#32).arch ∧
      exec .clr (quiet doneA) = .next ((quiet doneA).complete Arch.reset) := ⟨rfl, rfl⟩

theorem witness_PaddingFillsWholeBlocks : (List.replicate 447 true).length < 2 ^ 64 ∧ (List.replicate 448 true).length < 2 ^ 64 := by
  simp only [List.length_replicate]
  decide

/-- Keys of 512 and of 513 bits. -/
theorem witness_KeyBlockIs512Bits : (List.replicate 512 true).length ≤ 512 ∧ 512 < (List.replicate 513 true).length := by
  simp only [List.length_replicate]
  decide

end Sys2Proof.Tests
end

/-! PROOFS. The reset state and the STATUS word (rules R35, R40). -/

namespace Sys2Proof.Machine

/-! ### STATUS (R35) -/

/-- The number of a concatenation: the left part weighs 2 to the width of the right part. -/
theorem toNat_append_eq_mul_add {m n : Nat} (x : BitVec m) (y : BitVec n) :
    (x ++ y).toNat = x.toNat * 2 ^ n + y.toNat := by
  rw [BitVec.toNat_append, ← Nat.shiftLeft_add_eq_or_of_lt y.isLt, Nat.shiftLeft_eq]

theorem status_toNat (a : Arch) :
    (status a).toNat = a.mode.code.toNat + 8 * a.hm.toNat + 16 * a.klong.toNat + 32 * a.cact.toNat + 128 * a.err.toNat +
      256 * a.ecode.code.toNat + 65536 * a.t.toNat + 8388608 * a.fill.toNat := by
  simp only [status, toNat_append_eq_mul_add, BitVec.toNat_ofBool, BitVec.toNat_ofNat]
  omega

/-- Below bit 6 lie MODE, HM, KLONG and CACT, six bits; the field above them is a zero bit. -/
theorem status_bit_6 (a : Arch) : (status a).getLsbD 6 = false := by
  simp only [status, BitVec.getLsbD_append]
  simp

/-- Below bit 12 lie the fields from ECODE down, twelve bits; the field above them is four zero bits. -/
theorem status_bits_15_12 (a : Arch) : (status a).extractLsb' 12 4 = 0#4 := by
  simp only [status, BitVec.extractLsb'_append_eq_of_le, BitVec.extractLsb'_append_eq_right, Nat.reduceLeDiff, Nat.reduceSub]

theorem status_reset : status Arch.reset = 0#32 := by decide

/-! ### The obligations -/

/-- Settles O1, element by element of R40's table. -/
theorem resetHoldsTheTableOfValues : Obligations.ResetHoldsTheTableOfValues := by
  have words8 (i : Fin 8) : zeroWords8[i] = 0#32 := zeroWords8_getElem i i.isLt
  have block (j : Fin 16) : zeroBlock[j] = 0#32 := zeroBlock_getElem j j.isLt
  exact ⟨fun i => ⟨words8 i, words8 i, words8 i⟩, fun j => ⟨block j, block j, block j⟩,
    rfl, rfl, rfl, rfl, rfl, rfl, rfl, rfl, rfl, status_reset⟩

/-- Settles O21: the weighted sum from the widths of the fields, the codes name by name, the reserved bits by position. -/
theorem statusWordIsTheWeightedSum : Obligations.StatusWordIsTheWeightedSum := by
  intro a
  refine ⟨status_toNat a, Prod.ext ?modeCode ?ecodeCode, status_bit_6 a, status_bits_15_12 a⟩
  case modeCode => cases a.mode <;> rfl
  case ecodeCode => cases a.ecode <;> rfl

end Sys2Proof.Machine

/-! PROOFS. Command words as the decoder and the step see them (rules R81 to R85, R90, R91, R270, R273). -/

namespace Sys2Proof

/-! ### The opcode map, form by form (R84) -/

theorem decodeOpcode_of_mem_opcodesN {opc : BitVec 8} (h : opc.toNat ∈ Machine.opcodesN) (arg : BitVec 8) (dw : Word) :
    ∃ i : Instr, i.wellFormed = true ∧ decodeOpcode opc arg dw = formN i arg := by
  simp only [Machine.opcodesN, List.mem_cons, List.not_mem_nil, or_false] at h
  rcases h with h | h | h | h | h | h | h | h | h | h | h | h <;> rw [decodeOpcode, h] <;> exact ⟨_, rfl, rfl⟩

theorem decodeOpcode_of_mem_opcodesX8 {opc : BitVec 8} (h : opc.toNat ∈ Machine.opcodesX8) (arg : BitVec 8) (dw : Word) :
    ∃ make : Fin 8 → Instr, (∀ j, (make j).wellFormed = true) ∧ decodeOpcode opc arg dw = formX8 make arg := by
  simp only [Machine.opcodesX8, List.mem_cons, List.not_mem_nil, or_false] at h
  rcases h with h | h | h | h <;> rw [decodeOpcode, h] <;> exact ⟨_, fun _ => rfl, rfl⟩

theorem decodeOpcode_of_mem_opcodesX16 {opc : BitVec 8} (h : opc.toNat ∈ Machine.opcodesX16) (arg : BitVec 8) (dw : Word) :
    ∃ make : Fin 16 → Instr, (∀ j, (make j).wellFormed = true) ∧ decodeOpcode opc arg dw = formX16 make arg := by
  simp only [Machine.opcodesX16, List.mem_cons, List.not_mem_nil, or_false] at h
  rcases h with h | h | h <;> rw [decodeOpcode, h] <;> exact ⟨_, fun _ => rfl, rfl⟩

theorem decodeOpcode_of_eq_opcodeP {opc : BitVec 8} (h : opc.toNat = Machine.opcodeP) (arg : BitVec 8) (dw : Word) :
    decodeOpcode opc arg dw = formP (fun n => .push n dw) arg := by
  rw [decodeOpcode, h]
  rfl

/-- R85 check 2: an OPC that is none of the 20 is ILLOP. -/
theorem decodeOpcode_of_reserved {opc : BitVec 8}
    (h : opc.toNat ∉ Machine.opcodesN ++ Machine.opcodesX8 ++ Machine.opcodesX16 ++ [Machine.opcodeP])
    (arg : BitVec 8) (dw : Word) : decodeOpcode opc arg dw = .error .illop := by
  unfold decodeOpcode
  split
  case h_21 => rfl
  all_goals (rename_i hopc; exact absurd (by rw [hopc]; decide) h)

/-- R91: of the 20 opcodes only those of PUSH, WRH and WRB pass the data word on. -/
theorem decodeOpcode_ignores_data {opc : BitVec 8} (hpush : opc ≠ 0x13#8) (hwrh : opc ≠ 0x21#8) (hwrb : opc ≠ 0x22#8)
    (arg : BitVec 8) (dw dw' : Word) : decodeOpcode opc arg dw = decodeOpcode opc arg dw' := by
  unfold decodeOpcode
  split
  case h_7 h => exact absurd (BitVec.eq_of_toNat_eq h) hpush
  case h_11 h => exact absurd (BitVec.eq_of_toNat_eq h) hwrh
  case h_12 h => exact absurd (BitVec.eq_of_toNat_eq h) hwrb
  all_goals rfl

theorem decode_ignores_data {cw : Word} (hpush : opcOf cw ≠ 0x13#8) (hwrh : opcOf cw ≠ 0x21#8) (hwrb : opcOf cw ≠ 0x22#8)
    (dw dw' : Word) : decode cw dw = decode cw dw' := by
  rw [decode, decode, decodeOpcode_ignores_data hpush hwrh hwrb]

/-- A word with PUSH's OPC is PUSH of its ARG, whatever the data word, or an error that does not depend on the data word. -/
theorem decode_push_cases {cw : Word} (hopc : opcOf cw = 0x13#8) :
    (∀ dw, decode cw dw = .ok (.push (argOf cw).toNat dw)) ∨ ∃ e, ∀ dw, decode cw dw = .error e := by
  by_cases hrsv : rsvOf cw = 0#16
  · have hform (dw : Word) : decode cw dw = formP (fun n => .push n dw) (argOf cw) := by
      rw [decode_of_rsv_zero cw dw hrsv, decodeOpcode_of_eq_opcodeP (by rw [hopc]; rfl)]
    simp only [hform, formP]
    split
    · exact .inl fun _ => rfl
    · exact .inr ⟨_, fun _ => rfl⟩
  · exact .inr ⟨_, fun dw => decode_of_rsv_nonzero cw dw hrsv⟩

end Sys2Proof

namespace Sys2Proof.Machine

/-! ### ARG out of range, form by form (R81, R90) -/

theorem illargWord_iff_of_mem_opcodesN {cw : Word} (h : (opcOf cw).toNat ∈ opcodesN) :
    illargWord cw ↔ (argOf cw).toNat ≠ 0 := by
  have disjoint : ∀ n ∈ opcodesN, n ∉ opcodesX8 ∧ n ∉ opcodesX16 ∧ n ≠ opcodeP := by decide
  obtain ⟨h8, h16, hp⟩ := disjoint _ h
  simp [illargWord, h, h8, h16, hp]

theorem illargWord_iff_of_mem_opcodesX8 {cw : Word} (h : (opcOf cw).toNat ∈ opcodesX8) :
    illargWord cw ↔ 7 < (argOf cw).toNat := by
  have disjoint : ∀ n ∈ opcodesX8, n ∉ opcodesN ∧ n ∉ opcodesX16 ∧ n ≠ opcodeP := by decide
  obtain ⟨hn, h16, hp⟩ := disjoint _ h
  simp [illargWord, h, hn, h16, hp]

theorem illargWord_iff_of_mem_opcodesX16 {cw : Word} (h : (opcOf cw).toNat ∈ opcodesX16) :
    illargWord cw ↔ 15 < (argOf cw).toNat := by
  have disjoint : ∀ n ∈ opcodesX16, n ∉ opcodesN ∧ n ∉ opcodesX8 ∧ n ≠ opcodeP := by decide
  obtain ⟨hn, h8, hp⟩ := disjoint _ h
  simp [illargWord, h, hn, h8, hp]

theorem illargWord_iff_of_eq_opcodeP {cw : Word} (h : (opcOf cw).toNat = opcodeP) :
    illargWord cw ↔ (argOf cw).toNat = 0 ∨ 32 < (argOf cw).toNat := by
  have disjoint : opcodeP ∉ opcodesN ∧ opcodeP ∉ opcodesX8 ∧ opcodeP ∉ opcodesX16 := by decide
  obtain ⟨hn, h8, h16⟩ := disjoint
  simp [illargWord, h, hn, h8, h16]

/-! ### What decode answers, in the terms of R90 -/

theorem decode_of_illopWord {cw : Word} (h : illopWord cw) (dw : Word) : decode cw dw = .error .illop := by
  by_cases hrsv : rsvOf cw = 0#16
  · rw [decode_of_rsv_zero cw dw hrsv]
    exact decodeOpcode_of_reserved (h.resolve_right (not_not_intro hrsv)) _ _
  · exact decode_of_rsv_nonzero cw dw hrsv

/-- R85 check 3: with a known OPC and RSV zero, ARG alone decides between ILLARG and a well-formed command. -/
theorem decode_of_not_illopWord {cw : Word} (h : ¬ illopWord cw) (dw : Word) :
    (illargWord cw ∧ decode cw dw = .error .illarg) ∨
      (¬ illargWord cw ∧ ∃ i : Instr, decode cw dw = .ok i ∧ i.wellFormed = true) := by
  obtain ⟨hopc, hrsv⟩ := not_or.mp h
  rw [not_not] at hopc hrsv
  simp only [List.mem_append, List.mem_singleton] at hopc
  rw [decode_of_rsv_zero cw dw hrsv]
  rcases hopc with ((hN | hX8) | hX16) | hP
  · obtain ⟨i, hwf, hform⟩ := decodeOpcode_of_mem_opcodesN hN (argOf cw) dw
    rw [illargWord_iff_of_mem_opcodesN hN, hform]
    rcases formN_cases i (argOf cw) with ⟨harg, hok⟩ | hbad
    · exact .inr ⟨not_not_intro harg, i, hok, hwf⟩
    · exact .inl hbad
  · obtain ⟨make, hwf, hform⟩ := decodeOpcode_of_mem_opcodesX8 hX8 (argOf cw) dw
    rw [illargWord_iff_of_mem_opcodesX8 hX8, hform]
    rcases formX8_cases make (argOf cw) with ⟨harg, hok⟩ | hbad
    · exact .inr ⟨by omega, _, hok, hwf _⟩
    · exact .inl hbad
  · obtain ⟨make, hwf, hform⟩ := decodeOpcode_of_mem_opcodesX16 hX16 (argOf cw) dw
    rw [illargWord_iff_of_mem_opcodesX16 hX16, hform]
    rcases formX16_cases make (argOf cw) with ⟨harg, hok⟩ | hbad
    · exact .inr ⟨by omega, _, hok, hwf _⟩
    · exact .inl hbad
  · rw [illargWord_iff_of_eq_opcodeP hP, decodeOpcode_of_eq_opcodeP hP]
    rcases formP_cases (fun n => .push n dw) (argOf cw) with ⟨hlow, hhigh, hok⟩ | hbad
    · exact .inr ⟨by omega, _, hok, by simp [Instr.wellFormed, legalPushCount, hlow, hhigh]⟩
    · exact .inl hbad

theorem decode_of_illargWord {cw : Word} (hop : ¬ illopWord cw) (harg : illargWord cw) (dw : Word) :
    decode cw dw = .error .illarg := by
  obtain ⟨-, hdec⟩ | ⟨hgood, -⟩ := decode_of_not_illopWord hop dw
  · exact hdec
  · exact absurd harg hgood

theorem decode_of_malformed {cw : Word} (h : illopWord cw ∨ illargWord cw) (dw : Word) :
    ∃ e, decode cw dw = .error e := by
  by_cases hop : illopWord cw
  · exact ⟨_, decode_of_illopWord hop dw⟩
  · exact ⟨_, decode_of_illargWord hop (h.resolve_left hop) dw⟩

/-! ### The step on a command at the port -/

theorem step_of_decode_ok {s : State} {cw dw : Word} {rest : List PortEvent} {i : Instr}
    (hin : s.inbox = .command cw dw :: rest) (hdec : decode cw dw = .ok i) : step s = exec i { s with inbox := rest } := by
  simp only [step, takeEvent_cons s _ _ hin, hdec]

theorem step_of_decode_error {s : State} {cw dw : Word} {rest : List PortEvent} {e : DecodeError}
    (hin : s.inbox = .command cw dw :: rest) (hdec : decode cw dw = .error e) :
    step s = .next (rejectUndecodable e { s with inbox := rest }) := by
  simp only [step, takeEvent_cons s _ _ hin, hdec]

theorem rejectUndecodable_locked (e : DecodeError) {s : State} (h : s.arch.err = true) :
    Host.Outcome.next (rejectUndecodable e s) = lockedOut s := by
  rcases rejectUndecodable_cases e s with ⟨-, hlocked⟩ | ⟨hopen, -⟩
  · exact hlocked
  · simp [h] at hopen

/-- A command word that decodes to one error with either data word is rejected alike. -/
theorem step_eq_of_decode_error {s s' : State} {cw dw dw' : Word} {rest : List PortEvent} {e : DecodeError}
    (hin : s.inbox = .command cw dw :: rest) (hs' : s' = { s with inbox := .command cw dw' :: rest })
    (hdec : decode cw dw = .error e) (hdec' : decode cw dw' = .error e) : step s = step s' := by
  subst hs'
  rw [step_of_decode_error hin hdec, step_of_decode_error rfl hdec']

/-- Two commands with the same effect in every state, presented instead of each other. -/
theorem step_eq_of_decode_ok {s s' : State} {cw dw dw' : Word} {rest : List PortEvent} {i i' : Instr}
    (hin : s.inbox = .command cw dw :: rest) (hs' : s' = { s with inbox := .command cw dw' :: rest })
    (hdec : decode cw dw = .ok i) (hdec' : decode cw dw' = .ok i') (hexec : exec i = exec i') : step s = step s' := by
  subst hs'
  rw [step_of_decode_ok hin hdec, step_of_decode_ok rfl hdec', hexec]

/-- R82: the bits a PUSH streams are the top n bits of its data word. -/
theorem pushBits_congr {n : Nat} {dw dw' : Word} (h : ∀ k < n, dw.getLsbD (31 - k) = dw'.getLsbD (31 - k)) :
    pushBits n dw = pushBits n dw' :=
  List.map_congr_left fun k hk => h k (List.mem_range.mp hk)

/-- R91: a PUSH depends on its data word through the bits it streams. -/
theorem exec_push_congr {n : Nat} {dw dw' : Word} (h : pushBits n dw = pushBits n dw') :
    exec (.push n dw) = exec (.push n dw') := by
  funext s
  show execPush n dw s = execPush n dw' s
  rw [execPush, execPush, h]

/-! ### The obligations -/

/-- Settles O5, from decode's answer in each of R90's classes and the error lock. -/
theorem stepRejectsEveryMalformedWord : Obligations.StepRejectsEveryMalformedWord := by
  intro s cw dw rest hin
  refine ⟨fun hlocked hbad => ?locked, fun hopen hop => ?illop, fun hopen hop harg => ?illarg, fun hop harg => ?wellFormed⟩
  case locked =>
    obtain ⟨e, hdec⟩ := decode_of_malformed hbad dw
    rw [step_of_decode_error hin hdec]
    exact rejectUndecodable_locked e hlocked
  case illop =>
    rw [step_of_decode_error hin (decode_of_illopWord hop dw)]
    exact raiseError_eq _ _ hopen
  case illarg =>
    rw [step_of_decode_error hin (decode_of_illargWord hop harg dw)]
    exact raiseError_eq _ _ hopen
  case wellFormed =>
    obtain ⟨hbad, -⟩ | ⟨-, hok⟩ := decode_of_not_illopWord hop dw
    · exact absurd hbad harg
    · exact hok

/-- Settles O12: decode drops the data word of a command that does not use it, and PUSH takes the bits it streams. -/
theorem unusedDataBitsHaveNoEffect : Obligations.UnusedDataBitsHaveNoEffect := by
  intro s s' cw dw dw' rest hin hs' hunused
  rcases hunused with ⟨hpush, hwrh, hwrb⟩ | ⟨hpush, hbits⟩
  · have hsame : decode cw dw' = decode cw dw := decode_ignores_data hpush hwrh hwrb dw' dw
    cases hdec : decode cw dw with
    | ok i => exact step_eq_of_decode_ok hin hs' hdec (hsame.trans hdec) rfl
    | error e => exact step_eq_of_decode_error hin hs' hdec (hsame.trans hdec)
  · obtain hok | ⟨e, hbad⟩ := decode_push_cases hpush
    · exact step_eq_of_decode_ok hin hs' (hok dw) (hok dw') (exec_push_congr (pushBits_congr hbits))
    · exact step_eq_of_decode_error hin hs' (hbad dw) (hbad dw')

end Sys2Proof.Machine

/-! PROOFS. The message schedule, by the recurrence itself (rules R110, R142). -/

namespace Sys2Proof.Machine

/-- R110: the sum of four operands, as word addition. -/
theorem add32_quad (w x y z : Word) : add32 [w, x, y, z] = w + x + y + z := by
  rw [add32_cons, add32_cons, add32_pair]
  simp only [BitVec.add_assoc]

theorem sched_length (b : Block) : (sched b).length = 64 := by
  rw [sched, extendSchedule_length, Vector.length_toList]

/-- R142, at the position i of the new word: the block's 16 words come before it. -/
theorem scheduleWord_recurrence (b : Block) {i : Nat} (hlo : 16 ≤ i) (hhi : i < 64) :
    scheduleWord b i =
      add32 [sigma1 (scheduleWord b (i - 2)), scheduleWord b (i - 7), sigma0 (scheduleWord b (i - 15)),
        scheduleWord b (i - 16)] :=
  have hblock : b.toList.length = 16 := Vector.length_toList
  extendSchedule_recurrence 48 b.toList i (by omega) (by omega) (by omega)

/-- Settles O56: the extension keeps the block's words, and each word it adds is the recurrence. -/
theorem scheduleFollowsTheRecurrence : Obligations.ScheduleFollowsTheRecurrence := by
  intro b
  refine ⟨sched_length b, fun j => scheduleWord_block b j.val j.isLt, fun i hlo hhi => ?recurrence⟩
  case recurrence => rw [scheduleWord_recurrence b hlo hhi, add32_quad]

end Sys2Proof.Machine

/-! PROOFS. The commands of a single-stepped compression: CLOAD, STEP, CFIN (rules R145, R164 to R167, R171 to R173). -/

namespace Sys2Proof.Machine

/-! ### A form N opcode with RSV or ARG not zero (R85, R90) -/

theorem illopWord_iff_of_mem_opcodesN {cw : Word} (h : (opcOf cw).toNat ∈ opcodesN) : illopWord cw ↔ rsvOf cw ≠ 0#16 := by
  simp [illopWord, h]

theorem rejectsMalformed_of_mem_opcodesN {opc : BitVec 8} (h : opc.toNat ∈ opcodesN) : rejectsMalformed opc 0 0 := by
  intro s cw dw rest hin hopc
  subst hopc
  obtain ⟨hlocked, hillop, hillarg, -⟩ := stepRejectsEveryMalformedWord s cw dw rest hin
  rw [illopWord_iff_of_mem_opcodesN h] at hlocked hillop hillarg
  rw [illargWord_iff_of_mem_opcodesN h] at hlocked hillarg
  cases herr : s.arch.err with
  | true => exact ⟨fun hrsv => hlocked herr (.inl hrsv), fun _ harg => hlocked herr (.inr (by omega))⟩
  | false => exact ⟨fun hrsv => hillop herr hrsv, fun hrsv harg => hillarg herr (not_not_intro hrsv) (by omega)⟩

/-! ### A command whose only check is SEQ (R85 check 4, R95) -/

/-- SEQ is the one check of the command, and it passes exactly in the command's legal states. -/
def GuardedBySeq (i : Instr) (effect : State → State) : Prop :=
  ∃ legal : State → Bool, (∀ s, exec i s = gate [(.seq, legal s)] effect s) ∧ ∀ s, legal s = true ↔ legalNow i s.arch

theorem GuardedBySeq.exec_of_legalNow {i : Instr} {effect : State → State} (hi : GuardedBySeq i effect) {s : State}
    (herr : s.arch.err = false) (h : legalNow i s.arch) : exec i s = .next (effect s) := by
  obtain ⟨legal, hexec, hlegal⟩ := hi
  rw [hexec, gate_single_pass _ _ _ _ herr ((hlegal s).mpr h)]

theorem GuardedBySeq.rejectsOutOfSequence {i : Instr} {effect : State → State} (hi : GuardedBySeq i effect) :
    rejectsOutOfSequence i := by
  obtain ⟨legal, hexec, hlegal⟩ := hi
  refine ⟨fun s herr h => ?outOfSequence, fun s herr => ?locked⟩
  case outOfSequence => rw [hexec, gate_single_fail _ _ _ _ herr (Bool.eq_false_iff.mpr (mt (hlegal s).mp h))]
  case locked => rw [hexec, gate_locked _ _ _ herr]

theorem cload_guardedBySeq : GuardedBySeq .cload fun s => s.complete { s.arch.cloadOp with cact := true } :=
  ⟨_, fun _ => rfl, fun _ => decide_eq_true_iff⟩

theorem step_guardedBySeq : GuardedBySeq .step fun s => s.complete s.arch.roundOp :=
  ⟨_, fun _ => rfl, fun _ => decide_eq_true_iff⟩

theorem cfin_guardedBySeq : GuardedBySeq .cfin fun s => s.complete { s.arch.cfinOp with cact := false } :=
  ⟨_, fun _ => rfl, fun _ => decide_eq_true_iff⟩

/-! ### What the three micro-operations leave unchanged (R39) -/

theorem cloadOp_onlyChanges (a : Arch) : onlyChanges [.v, .win, .t, .cact] a { a.cloadOp with cact := true } := by
  intro e he
  cases e
  case v | win | t | cact => exact absurd he (by decide)
  case error => exact ⟨rfl, rfl⟩
  all_goals rfl

theorem roundOp_onlyChanges (a : Arch) : onlyChanges [.v, .win, .t] a a.roundOp := by
  intro e he
  cases e
  case v | win | t => exact absurd he (by decide)
  case error => exact ⟨rfl, rfl⟩
  all_goals rfl

theorem cfinOp_onlyChanges (a : Arch) : onlyChanges [.h, .t, .cact] a { a.cfinOp with cact := false } := by
  intro e he
  cases e
  case h | t | cact => exact absurd he (by decide)
  case error => exact ⟨rfl, rfl⟩
  all_goals rfl

/-! ### The word functions as bit-vector rotations (R111, R140, R141, R160, R161) -/

theorem rotr_eq_rotateRight (x : Word) {n : Nat} (h : n < 32) : rotr x n = x.rotateRight n := by
  rw [rotr, BitVec.rotateRight_def, Nat.mod_eq_of_lt h]

theorem sigma0_eq (x : Word) : sigma0 x = x.rotateRight 7 ^^^ x.rotateRight 18 ^^^ x >>> 3 := by
  simp only [sigma0, shr, rotr_eq_rotateRight, Nat.reduceLT]

theorem sigma1_eq (x : Word) : sigma1 x = x.rotateRight 17 ^^^ x.rotateRight 19 ^^^ x >>> 10 := by
  simp only [sigma1, shr, rotr_eq_rotateRight, Nat.reduceLT]

theorem bigSigma0_eq (x : Word) : bigSigma0 x = x.rotateRight 2 ^^^ x.rotateRight 13 ^^^ x.rotateRight 22 := by
  simp only [bigSigma0, rotr_eq_rotateRight, Nat.reduceLT]

theorem bigSigma1_eq (x : Word) : bigSigma1 x = x.rotateRight 6 ^^^ x.rotateRight 11 ^^^ x.rotateRight 25 := by
  simp only [bigSigma1, rotr_eq_rotateRight, Nat.reduceLT]

/-! ### The round (R164) and the window step (R145), word by word -/

/-- R110: the sum of five operands, as word addition. -/
theorem add32_quint (w x y z u : Word) : add32 [w, x, y, z, u] = w + x + y + z + u := by
  rw [add32_cons, add32_quad]
  simp only [BitVec.add_assoc]

theorem windowStep_getElem_of_lt (win : Block) (t : Nat) {j : Nat} (h : j + 1 < 16) :
    (windowStep win t)[j] = win[j + 1] := by
  simp [windowStep, h]

theorem windowStep_getElem_last (win : Block) (t : Nat) : (windowStep win t)[15] = windowInput win t := by
  simp [windowStep]

theorem windowInput_eq (win : Block) (t : Nat) :
    windowInput win t = if t < 48 then
        (win[14].rotateRight 17 ^^^ win[14].rotateRight 19 ^^^ win[14] >>> 10) + win[9] +
          (win[1].rotateRight 7 ^^^ win[1].rotateRight 18 ^^^ win[1] >>> 3) + win[0]
      else 0#32 := by
  rw [windowInput, add32_quad, sigma0_eq, sigma1_eq]

/-- R166: T, a 7-bit register, counts the round without wrapping. -/
theorem roundOp_t_toNat (a : Arch) (h : a.t.toNat < 64) : a.roundOp.t.toNat = a.t.toNat + 1 := by
  rw [Arch.roundOp_t]
  bv_omega

/-- R167: the feed-forward, as word addition. -/
theorem cfinOp_h_getElem (a : Arch) (i : Fin 8) : a.cfinOp.h[i] = a.h[i] + a.v[i] := by
  rw [Arch.cfinOp_h, Fin.getElem_fin, Vector.getElem_ofFn, add32_pair]

/-! ### The obligations -/

/-- Settles O38: ROUNDop's effect on V and on WIN, word by word, with its frame. -/
theorem stepCommandRunsOneRound : Obligations.StepCommandRunsOneRound := by
  refine ⟨fun s herr hraw hcact ht => ?round, step_guardedBySeq.rejectsOutOfSequence, fun _ => rfl,
    rejectsMalformed_of_mem_opcodesN (by decide)⟩
  case round =>
    refine ⟨s.arch.roundOp, step_guardedBySeq.exec_of_legalNow herr ⟨hraw, hcact, ht⟩, ?v, fun j => ?shift, ?input,
      roundOp_t_toNat _ ht, roundOp_onlyChanges _⟩
    case v => simp only [Arch.roundOp_v, mixRound, add32_quint, add32_pair, bigSigma0_eq, bigSigma1_eq, ch, maj]
    case shift => exact windowStep_getElem_of_lt _ _ _
    case input => exact (windowStep_getElem_last _ _).trans (windowInput_eq _ _)

/-- Settles O37: CLOADop's registers are copies of H and BUF. -/
theorem cloadLoadsTheWorkingState : Obligations.CloadLoadsTheWorkingState := by
  refine ⟨fun s herr hraw hcact => ?load, cload_guardedBySeq.rejectsOutOfSequence, fun _ => rfl,
    rejectsMalformed_of_mem_opcodesN (by decide)⟩
  case load =>
    exact ⟨{ s.arch.cloadOp with cact := true }, cload_guardedBySeq.exec_of_legalNow herr ⟨hraw, hcact⟩,
      fun _ => rfl, fun _ => rfl, rfl, rfl, cloadOp_onlyChanges _⟩

/-- Settles O39: CFINop's feed-forward, word by word, with its frame. -/
theorem cfinAddsTheWorkingState : Obligations.CfinAddsTheWorkingState := by
  refine ⟨fun s herr hraw hcact ht => ?feedForward, cfin_guardedBySeq.rejectsOutOfSequence, fun _ => rfl,
    rejectsMalformed_of_mem_opcodesN (by decide)⟩
  case feedForward =>
    exact ⟨{ s.arch.cfinOp with cact := false }, cfin_guardedBySeq.exec_of_legalNow herr ⟨hraw, hcact, ht⟩,
      cfinOp_h_getElem _, rfl, rfl, cfinOp_onlyChanges _⟩

end Sys2Proof.Machine

/-! PROOFS. The hash engine's commands HINIT and RDDIG (rules R41, R85, R90, R95, R200, R203). -/

namespace Sys2Proof.Machine

/-! ### Malformed words of a known opcode (R85 checks 1 to 3, R90) -/

/-- For a known opcode RSV alone decides ILLOP, so it is enough to say which ARGs are ILLARG. -/
theorem rejectsMalformed_of_illargWord_iff {opc : BitVec 8} {low high : Nat}
    (known : opc.toNat ∈ opcodesN ++ opcodesX8 ++ opcodesX16 ++ [opcodeP])
    (hillarg : ∀ cw, opcOf cw = opc → (illargWord cw ↔ ¬ (low ≤ (argOf cw).toNat ∧ (argOf cw).toNat ≤ high))) :
    rejectsMalformed opc low high := by
  intro s cw dw rest hin hopc
  have hop : illopWord cw ↔ rsvOf cw ≠ 0#16 := by
    rw [illopWord, hopc, or_iff_right (not_not_intro known)]
  obtain ⟨locked, illop, illarg, -⟩ := stepRejectsEveryMalformedWord s cw dw rest hin
  rw [hop, hillarg cw hopc] at locked illarg
  rw [hop] at illop
  cases herr : s.arch.err with
  | true => exact ⟨fun hrsv => locked herr (.inl hrsv), fun _ harg => locked herr (.inr harg)⟩
  | false => exact ⟨illop herr, fun hrsv => illarg herr (not_not_intro hrsv)⟩

/-- R81 form X8: a word is rejected for an element index above 7. -/
theorem rejectsMalformed_of_mem_opcodesX8 {opc : BitVec 8} (h : opc.toNat ∈ opcodesX8) : rejectsMalformed opc 0 7 := by
  refine rejectsMalformed_of_illargWord_iff (by simp [h]) fun cw hopc => ?_
  rw [illargWord_iff_of_mem_opcodesX8 (hopc ▸ h)]
  omega

/-! ### The checks of the two commands (R95) -/

/-- A command that R95 lists as legal in every mode: its SEQ check always passes. -/
theorem GuardedBySeq.of_no_check {i : Instr} {effect : State → State} (hexec : ∀ s, exec i s = gate [] effect s)
    (hlegal : ∀ a, legalNow i a) : GuardedBySeq i effect :=
  ⟨fun _ => true, hexec, fun s => iff_of_true rfl (hlegal s.arch)⟩

theorem hinit_guardedBySeq :
    GuardedBySeq .hinit fun s => s.complete { s.arch.clearAll.start with mode := .hash } :=
  .of_no_check (fun _ => rfl) fun _ => trivial

theorem rddig_guardedBySeq (i : Fin 8) : GuardedBySeq (.rddig i) fun s => s.respond s.arch.h[i] :=
  ⟨_, fun _ => rfl, fun _ => decide_eq_true_iff⟩

/-! ### Registers and encoding -/

/-- R41, R194: after ClearAll(), Start() has only H left to write. -/
theorem start_clearAll (a : Arch) : a.clearAll.start = { Arch.reset with h := iv } := rfl

theorem decode_rddig (i : Fin 8) (dw : Word) : decode (0x15000000#32 + BitVec.ofNat 32 i.val) dw = .ok (.rddig i) := by
  fin_cases i <;> rfl

/-! ### The obligations -/

/-- Settles O23: ClearAll() and then Start() leave the reset registers with H = IV, whatever stood in them. -/
theorem hinitStartsAFreshHash : Obligations.HinitStartsAFreshHash := by
  refine ⟨fun s herr => ?fresh, by decide, hinit_guardedBySeq.rejectsOutOfSequence, fun _ => rfl,
    rejectsMalformed_of_mem_opcodesN (by decide)⟩
  case fresh => rw [hinit_guardedBySeq.exec_of_legalNow herr trivial, complete_eq, start_clearAll, State.reset]

/-- Settles O27: in DONE mode the one check passes and the response is H[i], the registers untouched. -/
theorem rddigReturnsADigestWord : Obligations.RddigReturnsADigestWord := by
  intro i
  refine ⟨fun s herr hdone => ?read, (rddig_guardedBySeq i).rejectsOutOfSequence, decode_rddig i,
    rejectsMalformed_of_mem_opcodesX8 (by decide)⟩
  case read => rw [(rddig_guardedBySeq i).exec_of_legalNow herr hdone, respond_eq]

end Sys2Proof.Machine

/-! PROOFS. The digest as bits and as bytes (rules R7, R62, R193). -/

namespace Sys2Proof.Machine

/-! ### Numbers as bit sequences (R7) -/

/-- The upper m of m + n bits are those of the number shifted right by n. -/
theorem beBits_add (m n x : Nat) : beBits (m + n) x = beBits m (x >>> n) ++ beBits n x := by
  apply List.ext_getElem (by simp)
  intro k _ _
  simp only [beBits, List.getElem_append, List.getElem_map, List.getElem_range, List.length_map, List.length_range,
    Nat.testBit_shiftRight]
  split
  case isTrue hupper => rw [show m + n - 1 - k = n + (m - 1 - k) by omega]
  case isFalse hlower => rw [show m + n - 1 - k = n - 1 - (k - m) by omega]

theorem beBits_mod_two_pow (n x : Nat) : beBits n (x % 2 ^ n) = beBits n x := by
  apply List.map_congr_left
  intro k hk
  have hk : k < n := List.mem_range.mp hk
  rw [Nat.testBit_mod_two_pow, decide_eq_true (by omega : n - 1 - k < n), Bool.true_and]

/-- The bits of a byte of a word, as the bits of the shifted word. -/
theorem beBits_toNat_extractLsb' (w : Word) (start : Nat) :
    beBits 8 (w.extractLsb' start 8).toNat = beBits 8 (w.toNat >>> start) := by
  rw [BitVec.extractLsb'_toNat, beBits_mod_two_pow]

/-! ### The bytes of a word and of a digest (R62(c)) -/

/-- The four bytes of a word, most significant first. -/
def wordBytes (w : Word) : List (BitVec 8) :=
  [w.extractLsb' 24 8, w.extractLsb' 16 8, w.extractLsb' 8 8, w.extractLsb' 0 8]

theorem digestBytes_eq (d : Words8) : digestBytes d = d.toList.flatMap wordBytes := rfl

@[simp] theorem wordBytes_length (w : Word) : (wordBytes w).length = 4 := rfl

theorem wordBytes_getElem? (w : Word) {k : Nat} (h : k < 4) : (wordBytes w)[k]? = some (w.extractLsb' (24 - 8 * k) 8) := by
  match k, h with
  | 0, _ | 1, _ | 2, _ | 3, _ => rfl

/-- Byte k of word j of a sequence of words. -/
theorem flatMap_wordBytes_getElem? (ws : List Word) {j k : Nat} (hj : j < ws.length) (hk : k < 4) :
    (ws.flatMap wordBytes)[4 * j + k]? = some (ws[j].extractLsb' (24 - 8 * k) 8) := by
  induction ws generalizing j with
  | nil => exact absurd hj (Nat.not_lt_zero j)
  | cons w ws ih =>
    rw [List.flatMap_cons]
    cases j with
    | zero =>
      rw [Nat.mul_zero, Nat.zero_add, List.getElem?_append_left hk, wordBytes_getElem? w hk, List.getElem_cons_zero]
    | succ j =>
      rw [List.getElem?_append_right (by rw [wordBytes_length]; omega), wordBytes_length,
        show 4 * (j + 1) + k - 4 = 4 * j + k by omega, ih (Nat.lt_of_succ_lt_succ hj), List.getElem_cons_succ]

/-- R7: be_32 of a word is be_8 of each of its bytes, most significant first. -/
theorem wordBits_eq_bytesBits (w : Word) : wordBits w = bytesBits ((wordBytes w).map BitVec.toNat) :=
  calc beBits (8 + (8 + (8 + 8))) w.toNat
    _ = beBits 8 (w.toNat >>> 24) ++ (beBits 8 (w.toNat >>> 16) ++ (beBits 8 (w.toNat >>> 8) ++ beBits 8 w.toNat)) := by
      rw [beBits_add, beBits_add, beBits_add]
    _ = bytesBits ((wordBytes w).map BitVec.toNat) := by
      simp only [bytesBits, wordBytes, List.map_cons, List.map_nil, List.flatMap_cons, List.flatMap_nil, List.append_nil,
        beBits_toNat_extractLsb', Nat.shiftRight_zero]

theorem wordsBits_eq_bytesBits (ws : List Word) :
    wordsBits ws = bytesBits ((ws.flatMap wordBytes).map BitVec.toNat) := by
  rw [wordsBits, funext wordBits_eq_bytesBits]
  simp only [bytesBits, List.map_flatMap, List.flatMap_assoc]

/-! ### The obligation -/

/-- Settles O58: word i of the digest lies at bit 32 i and at byte 4 i, and each word's bits are its bytes' bits. -/
theorem digestIs256BitsBigEndian : Obligations.DigestIs256BitsBigEndian := by
  intro d
  have hlen : d.toList.length = 8 := Vector.length_toList
  refine ⟨?length, fun i k hk => ?bit, fun i k hk => ?byte, wordsBits_eq_bytesBits d.toList⟩
  case length => rw [digestBits, wordsBits_length, hlen]
  case bit =>
    rw [digestBits, wordsBits_getElem? d.toList i k (by omega) hk]
    simp
  case byte =>
    rw [digestBytes_eq, flatMap_wordBytes_getElem? d.toList (by omega) hk]
    simp

end Sys2Proof.Machine

/-! PROOFS. The HMAC controller's command MINIT (rules R41, R85, R90, R95, R220). -/

namespace Sys2Proof.Machine

/-- R95: MINIT is legal in every mode. -/
theorem minit_guardedBySeq :
    GuardedBySeq .minit fun s => s.complete { s.arch.clearAll.start with hm := true, mode := .key } :=
  .of_no_check (fun _ => rfl) fun _ => trivial

/-- Settles O28: after ClearAll() and Start() only HM and MODE are left to write, whatever stood in the registers. -/
theorem minitStartsTheKeyPhase : Obligations.MinitStartsTheKeyPhase := by
  refine ⟨fun s herr => ?keyPhase, by decide, minit_guardedBySeq.rejectsOutOfSequence, fun _ => rfl,
    rejectsMalformed_of_mem_opcodesN (by decide)⟩
  case keyPhase => rw [minit_guardedBySeq.exec_of_legalNow herr trivial, complete_eq, start_clearAll, State.reset]

end Sys2Proof.Machine

/-! PROOFS. The control commands and RAW mode's entry and writes: NOP, CLR, RDSTAT, RINIT, WRH, WRB (rules R22, R85, R95,
R240 to R245, R273). -/

namespace Sys2Proof.Machine

/-! ### Malformed words of form X16 (R81, R85) -/

/-- R81 form X16: a word is rejected for an element index above 15. -/
theorem rejectsMalformed_of_mem_opcodesX16 {opc : BitVec 8} (h : opc.toNat ∈ opcodesX16) : rejectsMalformed opc 0 15 := by
  refine rejectsMalformed_of_illargWord_iff (by simp [h]) fun cw hopc => ?_
  rw [illargWord_iff_of_mem_opcodesX16 (hopc ▸ h)]
  omega

/-! ### The checks of the other commands with SEQ as their one check (R95) -/

theorem kend_guardedBySeq :
    GuardedBySeq .kend fun s => s.complete { s.arch.reduceLongKey.openKeyedHash ipadWord with mode := .hmsg } :=
  ⟨_, fun _ => rfl, fun _ => decide_eq_true_iff⟩

theorem final_guardedBySeq :
    GuardedBySeq .final fun s =>
      s.complete { (if s.arch.mode = .hmsg then s.arch.hmacFinish else s.arch.finalise) with mode := .done } :=
  ⟨_, fun _ => rfl, fun _ => decide_eq_true_iff⟩

/-- R95: RINIT is legal in every mode. -/
theorem rinit_guardedBySeq :
    GuardedBySeq .rinit fun s => s.complete { s.arch.clearAll with h := iv, mode := .raw } :=
  .of_no_check (fun _ => rfl) fun _ => trivial

theorem wrh_guardedBySeq (i : Fin 8) (dw : Word) :
    GuardedBySeq (.wrh i dw) fun s => s.complete { s.arch with h := s.arch.h.set i dw } :=
  ⟨_, fun _ => rfl, fun _ => decide_eq_true_iff⟩

theorem wrb_guardedBySeq (i : Fin 16) (dw : Word) :
    GuardedBySeq (.wrb i dw) fun s => s.complete { s.arch with buf := s.arch.buf.set i dw } :=
  ⟨_, fun _ => rfl, fun _ => decide_eq_true_iff⟩

theorem comp_guardedBySeq : GuardedBySeq .comp fun s => s.complete s.arch.compress :=
  ⟨_, fun _ => rfl, fun _ => decide_eq_true_iff⟩

theorem rdh_guardedBySeq (i : Fin 8) : GuardedBySeq (.rdh i) fun s => s.respond s.arch.h[i] :=
  ⟨_, fun _ => rfl, fun _ => decide_eq_true_iff⟩

theorem rdv_guardedBySeq (i : Fin 8) : GuardedBySeq (.rdv i) fun s => s.respond s.arch.v[i] :=
  ⟨_, fun _ => rfl, fun _ => decide_eq_true_iff⟩

theorem rdw_guardedBySeq (i : Fin 16) : GuardedBySeq (.rdw i) fun s => s.respond s.arch.win[i] :=
  ⟨_, fun _ => rfl, fun _ => decide_eq_true_iff⟩

theorem rdb_guardedBySeq (i : Fin 16) : GuardedBySeq (.rdb i) fun s => s.respond s.arch.buf[i] :=
  ⟨_, fun _ => rfl, fun _ => decide_eq_true_iff⟩

/-! ### Every command with its checks (R85, R95) -/

/-- R85: every command but NOP, CLR and RDSTAT is PUSH, which has two checks more, or has SEQ as its one check and an effect
that takes MODE where R95's table says. -/
theorem gated_cases {i : Instr} (h : alwaysExecutes i = false) :
    (∃ n dw, i = .push n dw) ∨
      ∃ effect, GuardedBySeq i effect ∧ ∀ s, (effect s).arch.mode = modeAfter i s.arch.mode := by
  cases i with
  | nop | clr | rdstat => exact absurd h (by decide)
  | push n dw => exact .inl ⟨n, dw, rfl⟩
  | hinit => exact .inr ⟨_, hinit_guardedBySeq, fun _ => rfl⟩
  | minit => exact .inr ⟨_, minit_guardedBySeq, fun _ => rfl⟩
  | kend => exact .inr ⟨_, kend_guardedBySeq, fun _ => rfl⟩
  | final => exact .inr ⟨_, final_guardedBySeq, fun _ => rfl⟩
  | rddig j => exact .inr ⟨_, rddig_guardedBySeq j, fun _ => rfl⟩
  | rinit => exact .inr ⟨_, rinit_guardedBySeq, fun _ => rfl⟩
  | wrh j dw => exact .inr ⟨_, wrh_guardedBySeq j dw, fun _ => rfl⟩
  | wrb j dw => exact .inr ⟨_, wrb_guardedBySeq j dw, fun _ => rfl⟩
  | comp => exact .inr ⟨_, comp_guardedBySeq, fun s => by rw [State.complete_arch, compress_eq]; rfl⟩
  | cload => exact .inr ⟨_, cload_guardedBySeq, fun _ => rfl⟩
  | step => exact .inr ⟨_, step_guardedBySeq, fun _ => rfl⟩
  | cfin => exact .inr ⟨_, cfin_guardedBySeq, fun _ => rfl⟩
  | rdh j => exact .inr ⟨_, rdh_guardedBySeq j, fun _ => rfl⟩
  | rdv j => exact .inr ⟨_, rdv_guardedBySeq j, fun _ => rfl⟩
  | rdw j => exact .inr ⟨_, rdw_guardedBySeq j, fun _ => rfl⟩
  | rdb j => exact .inr ⟨_, rdb_guardedBySeq j, fun _ => rfl⟩

theorem alwaysExecutes_cases {i : Instr} (h : alwaysExecutes i = true) : i = .nop ∨ i = .clr ∨ i = .rdstat := by
  cases i
  case nop => exact .inl rfl
  case clr => exact .inr (.inl rfl)
  case rdstat => exact .inr (.inr rfl)
  all_goals exact absurd h Bool.false_ne_true

/-! ### The error lock (R273) -/

/-- R273: while ERR = 1 the gate is shut for every command but NOP, CLR and RDSTAT. -/
theorem exec_locked {i : Instr} {s : State} (hi : alwaysExecutes i = false) (herr : s.arch.err = true) :
    exec i s = lockedOut s := by
  obtain ⟨n, dw, rfl⟩ | ⟨effect, hguarded, -⟩ := gated_cases hi
  · exact (gate_locked _ _ _ herr : execPush n dw s = lockedOut s)
  · exact hguarded.rejectsOutOfSequence.2 s herr

/-- R241, R273: while the core is locked, a command other than CLR changes no register. -/
theorem arch_eq_of_exec_locked {i : Instr} {s t : State} (hi : i ≠ .clr) (herr : s.arch.err = true)
    (h : exec i s = .next t) : t.arch = s.arch := by
  cases halways : alwaysExecutes i with
  | false =>
    rw [exec_locked halways herr] at h
    cases h
    rfl
  | true =>
    obtain rfl | rfl | rfl := alwaysExecutes_cases halways
    · cases h; rfl
    · exact absurd rfl hi
    · cases h; rfl

/-! ### Where a command takes MODE (R22, R95) -/

/-- A gated command leaves MODE alone, or all its checks hold and it has its effect. -/
theorem gate_mode_cases {cs : List (ErrorCode × Bool)} {f : State → State} {s t : State} (h : gate cs f s = .next t) :
    t.arch.mode = s.arch.mode ∨ (∀ c ∈ cs, c.2 = true) ∧ t = f s := by
  obtain ⟨-, heq⟩ | ⟨-, c, -, -, heq⟩ | ⟨-, hchecks, heq⟩ := gate_cases cs f s <;> rw [heq] at h <;> cases h
  · exact .inl rfl
  · exact .inl rfl
  · exact .inr ⟨hchecks, rfl⟩

/-- R201: PUSH stays in its mode. -/
theorem push_mode {n : Nat} {dw : Word} {s t : State} (h : exec (.push n dw) s = .next t) :
    t.arch.mode = s.arch.mode := by
  obtain hsame | ⟨hchecks, rfl⟩ := gate_mode_cases (show execPush n dw s = .next t from h)
  · exact hsame
  · have hlen : s.arch.len.toNat + n ≤ 2 ^ 64 - 1 :=
      of_decide_eq_true (hchecks (.lenovf, _) (.tail _ (.tail _ (.head _))))
    have hbound : s.arch.len.toNat + (pushBits n dw).length < 2 ^ 64 := by rw [pushBits_length]; omega
    obtain ⟨-, -, hmode, -⟩ := absorb_outside s.arch (pushBits n dw)
    rw [State.complete_arch, pushAll_eq _ _ hbound]
    exact hmode

/-- R22, R95: everything a command can do to MODE: it stays, or the command is legal and R95's table says where MODE goes. -/
theorem exec_mode_cases {i : Instr} {s t : State} (h : exec i s = .next t) :
    t.arch.mode = s.arch.mode ∨ legalNow i s.arch ∧ t.arch.mode = modeAfter i s.arch.mode := by
  cases halways : alwaysExecutes i with
  | true =>
    obtain rfl | rfl | rfl := alwaysExecutes_cases halways <;> cases h
    · exact .inl rfl
    · exact .inr ⟨trivial, rfl⟩
    · exact .inl rfl
  | false =>
    obtain ⟨n, dw, rfl⟩ | ⟨effect, ⟨legal, hexec, hlegal⟩, hmode⟩ := gated_cases halways
    · exact .inl (push_mode h)
    · rw [hexec] at h
      obtain hsame | ⟨hcheck, rfl⟩ := gate_mode_cases h
      · exact .inl hsame
      · exact .inr ⟨(hlegal s).mp (hcheck _ (List.mem_singleton_self _)), hmode s⟩

/-- R95: RINIT's is the one row of the table that leads into RAW. -/
theorem eq_rinit_of_modeAfter_raw {i : Instr} {m : Mode} (hm : m ≠ .raw) (h : modeAfter i m = .raw) : i = .rinit := by
  cases i
  case rinit => rfl
  case clr | hinit | minit | kend | final => exact nomatch h
  all_goals exact absurd h hm

/-- R95: from RAW, where KEND is not legal, the table leads into a streaming mode by HINIT and MINIT alone. -/
theorem eq_hinit_or_minit_of_modeAfter_streaming {i : Instr} {a : Arch} (hraw : a.mode = .raw) (hlegal : legalNow i a)
    (h : (modeAfter i a.mode).streaming = true) : i = .hinit ∨ i = .minit := by
  rw [hraw] at h
  cases i
  case hinit => exact .inl rfl
  case minit => exact .inr rfl
  case kend => exact nomatch hraw.symm.trans hlegal
  all_goals exact nomatch h

theorem Mode.streaming_iff (m : Mode) : m.streaming = true ↔ m = .hash ∨ m = .key ∨ m = .hmsg := by
  cases m <;> decide

/-! ### The two writes (R244, R245): the word, the frame, the encoding -/

theorem getElem_set_fin {α : Type} {n : Nat} (xs : Vector α n) (i j : Fin n) (x : α) :
    (xs.set i x)[j] = if j = i then x else xs[j] := by
  simp only [Fin.getElem_fin, Vector.getElem_set, Fin.ext_iff, eq_comm (a := i.val)]

theorem set_h_onlyChanges (a : Arch) (h' : Words8) : onlyChanges [.h] a { a with h := h' } := by
  intro e he
  cases e
  case h => exact absurd he (by decide)
  case error => exact ⟨rfl, rfl⟩
  all_goals rfl

theorem set_buf_onlyChanges (a : Arch) (b : Block) : onlyChanges [.buf] a { a with buf := b } := by
  intro e he
  cases e
  case buf => exact absurd he (by decide)
  case error => exact ⟨rfl, rfl⟩
  all_goals rfl

theorem decode_wrh (i : Fin 8) (dw : Word) : decode (0x21000000#32 + BitVec.ofNat 32 i.val) dw = .ok (.wrh i dw) := by
  fin_cases i <;> rfl

theorem decode_wrb (i : Fin 16) (dw : Word) : decode (0x22000000#32 + BitVec.ofNat 32 i.val) dw = .ok (.wrb i dw) := by
  fin_cases i <;> rfl

/-! ### The obligations -/

/-- Settles O19: NOP completes with the registers it found. -/
theorem nopChangesNothing : Obligations.NopChangesNothing :=
  ⟨fun s => complete_eq s s.arch, fun _ => rfl, rejectsMalformed_of_mem_opcodesN (by decide)⟩

/-- Settles O20: CLR completes with the reset registers; while the core is locked every other command keeps them all. -/
theorem clrRestoresTheResetState : Obligations.ClrRestoresTheResetState := by
  refine ⟨fun s => complete_eq s s.arch.clearAll, fun i s t hi herr h => ?keepsError, fun _ => rfl,
    rejectsMalformed_of_mem_opcodesN (by decide)⟩
  case keepsError =>
    rw [arch_eq_of_exec_locked hi herr h]
    exact ⟨herr, rfl⟩

/-- Settles O22: RDSTAT only responds. -/
theorem rdstatReturnsStatus : Obligations.RdstatReturnsStatus :=
  ⟨fun s => respond_eq s (status s.arch), fun _ => rfl, rejectsMalformed_of_mem_opcodesN (by decide)⟩

/-- Settles O32: ClearAll() leaves H and MODE to write, and R95's table has one row into RAW and two from it to streaming. -/
theorem rinitEntersRawWithNothingLeft : Obligations.RinitEntersRawWithNothingLeft := by
  refine ⟨fun s herr => ?entry, by decide, fun i s t h hm hraw => ?onlyWayIn, fun i s t h hraw hstream => ?onlyWayOut,
    rinit_guardedBySeq.rejectsOutOfSequence, fun _ => rfl, rejectsMalformed_of_mem_opcodesN (by decide)⟩
  case entry => rw [rinit_guardedBySeq.exec_of_legalNow herr trivial, complete_eq, Arch.clearAll, State.reset]
  case onlyWayIn =>
    obtain hsame | ⟨-, hafter⟩ := exec_mode_cases h
    · exact absurd (hsame.symm.trans hraw) hm
    · exact eq_rinit_of_modeAfter_raw hm (hafter.symm.trans hraw)
  case onlyWayOut =>
    rw [← Mode.streaming_iff] at hstream
    obtain hsame | ⟨hlegal, hafter⟩ := exec_mode_cases h
    · rw [hsame, hraw] at hstream
      exact absurd hstream Bool.false_ne_true
    · exact eq_hinit_or_minit_of_modeAfter_streaming hraw hlegal (hafter ▸ hstream)

/-- Settles O33: where the one check passes, H with its word i replaced is the only change. -/
theorem wrhWritesOneChainingWord : Obligations.WrhWritesOneChainingWord := by
  intro i dw
  refine ⟨fun s herr hraw hcact => ?write, (wrh_guardedBySeq i dw).rejectsOutOfSequence, decode_wrh i dw,
    rejectsMalformed_of_mem_opcodesX8 (by decide)⟩
  case write =>
    exact ⟨_, (wrh_guardedBySeq i dw).exec_of_legalNow herr ⟨hraw, hcact⟩,
      fun j => getElem_set_fin s.arch.h i j dw, set_h_onlyChanges _ _⟩

/-- Settles O34: where the one check passes, BUF with its word i replaced is the only change. -/
theorem wrbWritesOneBlockWord : Obligations.WrbWritesOneBlockWord := by
  intro i dw
  refine ⟨fun s herr hraw hcact => ?write, (wrb_guardedBySeq i dw).rejectsOutOfSequence, decode_wrb i dw,
    rejectsMalformed_of_mem_opcodesX16 (by decide)⟩
  case write =>
    exact ⟨_, (wrb_guardedBySeq i dw).exec_of_legalNow herr ⟨hraw, hcact⟩,
      fun j => getElem_set_fin s.arch.buf i j dw, set_buf_onlyChanges _ _⟩

end Sys2Proof.Machine

/-! PROOFS. The encoding in both directions, and the machine-readable opcode table (rules R80 to R85, R93, R96). -/

namespace Sys2Proof

open Machine

/-! ### The argument forms, forwards and backwards (R81) -/

theorem legalPushCount_iff (n : Nat) : legalPushCount n = true ↔ 1 ≤ n ∧ n ≤ 32 := by
  simp [legalPushCount]

theorem formN_of_toNat (i : Instr) {arg : BitVec 8} (h : arg.toNat = 0) : formN i arg = .ok i := by
  obtain ⟨-, hok⟩ | ⟨hne, -⟩ := formN_cases i arg
  · exact hok
  · exact absurd h hne

theorem formX8_of_toNat (make : Fin 8 → Instr) {arg : BitVec 8} {j : Fin 8} (h : arg.toNat = j.val) :
    formX8 make arg = .ok (make j) := by
  obtain ⟨hlt, hok⟩ | ⟨hgt, -⟩ := formX8_cases make arg
  · rw [hok, Fin.ext (a := ⟨arg.toNat, hlt⟩) h]
  · omega

theorem formX16_of_toNat (make : Fin 16 → Instr) {arg : BitVec 8} {j : Fin 16} (h : arg.toNat = j.val) :
    formX16 make arg = .ok (make j) := by
  obtain ⟨hlt, hok⟩ | ⟨hgt, -⟩ := formX16_cases make arg
  · rw [hok, Fin.ext (a := ⟨arg.toNat, hlt⟩) h]
  · omega

theorem formP_of_toNat (make : Nat → Instr) {arg : BitVec 8} {n : Nat} (h : arg.toNat = n)
    (hn : legalPushCount n = true) : formP make arg = .ok (make n) := by
  subst h
  rw [formP, if_pos hn]

theorem formN_ok {i j : Instr} {arg : BitVec 8} (h : formN i arg = .ok j) : j = i ∧ arg.toNat = 0 := by
  obtain ⟨harg, hok⟩ | ⟨-, hbad⟩ := formN_cases i arg
  · rw [hok] at h; cases h; exact ⟨rfl, harg⟩
  · rw [hbad] at h; cases h

theorem formX8_ok {make : Fin 8 → Instr} {i : Instr} {arg : BitVec 8} (h : formX8 make arg = .ok i) :
    ∃ j : Fin 8, i = make j ∧ arg.toNat = j.val := by
  obtain ⟨_, hok⟩ | ⟨-, hbad⟩ := formX8_cases make arg
  · rw [hok] at h; cases h; exact ⟨_, rfl, rfl⟩
  · rw [hbad] at h; cases h

theorem formX16_ok {make : Fin 16 → Instr} {i : Instr} {arg : BitVec 8} (h : formX16 make arg = .ok i) :
    ∃ j : Fin 16, i = make j ∧ arg.toNat = j.val := by
  obtain ⟨_, hok⟩ | ⟨-, hbad⟩ := formX16_cases make arg
  · rw [hok] at h; cases h; exact ⟨_, rfl, rfl⟩
  · rw [hbad] at h; cases h

theorem formP_ok {make : Nat → Instr} {i : Instr} {arg : BitVec 8} (h : formP make arg = .ok i) :
    i = make arg.toNat ∧ legalPushCount arg.toNat = true := by
  obtain ⟨hlow, hhigh, hok⟩ | ⟨-, hbad⟩ := formP_cases make arg
  · rw [hok] at h; cases h; exact ⟨rfl, (legalPushCount_iff _).mpr ⟨hlow, hhigh⟩⟩
  · rw [hbad] at h; cases h

/-! ### The opcode map, forwards and backwards (R84) -/

/-- R84: the OPC of a well-formed command, its ARG and its data word decode to the command. -/
theorem decodeOpcode_opcodeOf {i : Instr} (hwf : i.wellFormed = true) {arg : BitVec 8} (harg : arg.toNat = argumentOf i) :
    decodeOpcode (opcodeOf i) arg (dataOf i) = .ok i := by
  cases i with
  | push n dw => exact formP_of_toNat (fun n => .push n dw) harg hwf
  | wrh j dw => exact formX8_of_toNat (fun j => .wrh j dw) harg
  | wrb j dw => exact formX16_of_toNat (fun j => .wrb j dw) harg
  | rddig j | rdh j | rdv j => exact formX8_of_toNat _ harg
  | rdw j | rdb j => exact formX16_of_toNat _ harg
  | nop | clr | rdstat | hinit | minit | kend | final | rinit | comp | cload | step | cfin => exact formN_of_toNat _ harg

/-- The command has these fields: its OPC, its ARG and, if it uses data, its data word. -/
def Instr.HasFields (i : Instr) (opc arg : BitVec 8) (dw : Word) : Prop :=
  (opcodeOf i).toNat = opc.toNat ∧ argumentOf i = arg.toNat ∧ dataOf i = if usesData i then dw else 0#32

/-- R84: a command is decoded from its own fields alone. -/
theorem decodeOpcode_ok {opc arg : BitVec 8} {dw : Word} {i : Instr} (h : decodeOpcode opc arg dw = .ok i) :
    i.wellFormed = true ∧ i.HasFields opc arg dw := by
  unfold decodeOpcode at h
  split at h <;> rename_i hopc
  case h_21 => cases h
  case h_7 =>
    obtain ⟨rfl, hwf⟩ := formP_ok h
    exact ⟨hwf, hopc.symm, rfl, rfl⟩
  case h_9 | h_11 | h_17 | h_18 =>
    obtain ⟨j, rfl, harg⟩ := formX8_ok h
    exact ⟨rfl, hopc.symm, harg.symm, rfl⟩
  case h_12 | h_19 | h_20 =>
    obtain ⟨j, rfl, harg⟩ := formX16_ok h
    exact ⟨rfl, hopc.symm, harg.symm, rfl⟩
  all_goals
    obtain ⟨rfl, harg⟩ := formN_ok h
    exact ⟨rfl, hopc.symm, harg.symm, rfl⟩

/-! ### Command words (R80) -/

theorem argumentOf_lt {i : Instr} (hwf : i.wellFormed = true) : argumentOf i < 256 := by
  cases i with
  | push n dw =>
    obtain ⟨-, hn⟩ := (legalPushCount_iff n).mp hwf
    exact Nat.lt_of_le_of_lt hn (by decide)
  | rddig j | wrh j _ | rdh j | rdv j => exact Nat.lt_trans j.isLt (by decide)
  | wrb j _ | rdw j | rdb j => exact Nat.lt_trans j.isLt (by decide)
  | nop | clr | rdstat | hinit | minit | kend | final | rinit | comp | cload | step | cfin => exact Nat.zero_lt_succ _

theorem decode_encode {i : Instr} (hwf : i.wellFormed = true) : decode (encode i).1 (encode i).2 = .ok i := by
  obtain ⟨hopc, hrsv, harg⟩ := Laws.EncodeShape.fields_of_word (opcodeOf i) (argumentOf i) (argumentOf_lt hwf)
  have hdec := decode_of_rsv_zero _ (dataOf i) hrsv
  rw [hopc, decodeOpcode_opcodeOf hwf harg] at hdec
  exact hdec

/-- A word that decodes has RSV zero and the fields of its command. -/
theorem decode_ok {cw dw : Word} {i : Instr} (h : decode cw dw = .ok i) :
    i.wellFormed = true ∧ rsvOf cw = 0#16 ∧ i.HasFields (opcOf cw) (argOf cw) dw := by
  by_cases hrsv : rsvOf cw = 0#16
  · rw [decode_of_rsv_zero cw dw hrsv] at h
    obtain ⟨hwf, hfields⟩ := decodeOpcode_ok h
    exact ⟨hwf, hrsv, hfields⟩
  · rw [decode_of_rsv_nonzero cw dw hrsv] at h
    cases h

theorem encode_decode {cw dw : Word} {i : Instr} (h : decode cw dw = .ok i) :
    encode i = (cw, if usesData i then dw else 0#32) := by
  obtain ⟨-, hrsv, hopc, harg, hdata⟩ := decode_ok h
  rw [encode, hdata, harg, BitVec.ofNat_toNat, BitVec.setWidth_eq, BitVec.eq_of_toNat_eq hopc, ← hrsv, word_of_fields]

/-! ### The fields of a word under a mask (R96) -/

/-- Two words with the same OPC, RSV and ARG are the same word. -/
theorem word_eq_iff_fields (a b : Word) : a = b ↔ opcOf a = opcOf b ∧ rsvOf a = rsvOf b ∧ argOf a = argOf b := by
  refine ⟨fun h => by simp [h], fun ⟨hopc, hrsv, harg⟩ => ?_⟩
  rw [← word_of_fields a, hopc, hrsv, harg, word_of_fields b]

theorem opcOf_and (a b : Word) : opcOf (a &&& b) = opcOf a &&& opcOf b := BitVec.extractLsb'_and

theorem rsvOf_and (a b : Word) : rsvOf (a &&& b) = rsvOf a &&& rsvOf b := BitVec.extractLsb'_and

theorem argOf_and (a b : Word) : argOf (a &&& b) = argOf a &&& argOf b := BitVec.extractLsb'_and

/-- A word with OPC and RSV zero is its ARG. -/
theorem toNat_eq_argOf {a : Word} (hopc : opcOf a = 0#8) (hrsv : rsvOf a = 0#16) : a.toNat = (argOf a).toNat := by
  have hfields := word_of_fields a
  rw [hopc, hrsv] at hfields
  calc a.toNat
    _ = (0#8 ++ 0#16 ++ argOf a).toNat := by rw [hfields]
    _ = (argOf a).toNat := by rw [toNat_append_eq_mul_add]; simp

/-! ### The opcode table (R96) -/

/-- R96: the ARGs a row selects. -/
def OpcodeRow.allowsArg (r : OpcodeRow) (arg : BitVec 8) : Prop :=
  arg &&& argOf r.mask = 0#8 ∧ r.countLow ≤ (arg &&& argOf (~~~r.mask)).toNat ∧
    (arg &&& argOf (~~~r.mask)).toNat ≤ r.countHigh

/-- Every row's mask covers OPC and RSV, and its pattern has RSV and ARG zero. -/
theorem opcodeTable_fields : ∀ r ∈ opcodeTable,
    rsvOf r.pattern = 0#16 ∧ argOf r.pattern = 0#8 ∧ opcOf r.mask = BitVec.allOnes 8 ∧ rsvOf r.mask = BitVec.allOnes 16 ∧
      opcOf (~~~r.mask) = 0#8 ∧ rsvOf (~~~r.mask) = 0#16 := by
  decide

/-- R96, field by field: a row selects the words with its OPC, RSV zero and an ARG it allows. -/
theorem selects_iff_allowsArg {r : OpcodeRow} (hr : r ∈ opcodeTable) (cw : Word) :
    r.selects cw = true ↔ opcOf cw = opcOf r.pattern ∧ rsvOf cw = 0#16 ∧ r.allowsArg (argOf cw) := by
  obtain ⟨hrsv, harg, hopcMask, hrsvMask, hopcRest, hrsvRest⟩ := opcodeTable_fields r hr
  have hmasked : cw &&& r.mask = r.pattern ↔
      opcOf cw = opcOf r.pattern ∧ rsvOf cw = 0#16 ∧ argOf cw &&& argOf r.mask = 0#8 := by
    rw [word_eq_iff_fields, opcOf_and, rsvOf_and, argOf_and, hrsv, harg, hopcMask, hrsvMask, BitVec.and_allOnes,
      BitVec.and_allOnes]
  have hrest : (cw &&& ~~~r.mask).toNat = (argOf cw &&& argOf (~~~r.mask)).toNat := by
    rw [toNat_eq_argOf (by rw [opcOf_and, hopcRest, BitVec.and_zero]) (by rw [rsvOf_and, hrsvRest, BitVec.and_zero]),
      argOf_and]
  simp only [OpcodeRow.selects, OpcodeRow.allowsArg, hrest, Bool.and_eq_true, beq_iff_eq, hmasked, decide_eq_true_eq,
    and_assoc]

/-- The four kinds of row, by the form of its OPC: the ARGs it allows are those in the form's range. -/
theorem opcodeTable_forms : ∀ r ∈ opcodeTable,
    ((opcOf r.pattern).toNat ∈ opcodesN ∧ argOf r.mask = 0xFF#8 ∧ argOf (~~~r.mask) = 0x00#8 ∧ r.countLow = 0 ∧ r.countHigh = 63) ∨
    ((opcOf r.pattern).toNat ∈ opcodesX8 ∧ argOf r.mask = 0xF8#8 ∧ argOf (~~~r.mask) = 0x07#8 ∧ r.countLow = 0 ∧ r.countHigh = 63) ∨
    ((opcOf r.pattern).toNat ∈ opcodesX16 ∧ argOf r.mask = 0xF0#8 ∧ argOf (~~~r.mask) = 0x0F#8 ∧ r.countLow = 0 ∧ r.countHigh = 63) ∨
    ((opcOf r.pattern).toNat = opcodeP ∧ argOf r.mask = 0xC0#8 ∧ argOf (~~~r.mask) = 0x3F#8 ∧ r.countLow = 1 ∧ r.countHigh = 32) := by
  decide

/-- R81, R96: on the words with a row's OPC the row's mask and bounds are the range of its form. -/
theorem allowsArg_iff {r : OpcodeRow} (hr : r ∈ opcodeTable) {cw : Word} (hopc : opcOf cw = opcOf r.pattern) :
    r.allowsArg (argOf cw) ↔ ¬ illargWord cw := by
  have hforms := opcodeTable_forms r hr
  rw [← hopc] at hforms
  rcases hforms with ⟨hform, hmask, hrest, hlow, hhigh⟩ | ⟨hform, hmask, hrest, hlow, hhigh⟩ |
    ⟨hform, hmask, hrest, hlow, hhigh⟩ | ⟨hform, hmask, hrest, hlow, hhigh⟩ <;>
  rw [OpcodeRow.allowsArg, hmask, hrest, hlow, hhigh]
  · rw [illargWord_iff_of_mem_opcodesN hform]
    generalize argOf cw = arg
    decide +revert
  · rw [illargWord_iff_of_mem_opcodesX8 hform]
    generalize argOf cw = arg
    decide +revert
  · rw [illargWord_iff_of_mem_opcodesX16 hform]
    generalize argOf cw = arg
    decide +revert
  · rw [illargWord_iff_of_eq_opcodeP hform]
    generalize argOf cw = arg
    decide +revert

/-- With a row's OPC a word is ILLOP for its RSV alone. -/
theorem illopWord_iff_of_row {r : OpcodeRow} (hr : r ∈ opcodeTable) {cw : Word} (hopc : opcOf cw = opcOf r.pattern) :
    illopWord cw ↔ rsvOf cw ≠ 0#16 := by
  have known : ∀ r ∈ opcodeTable, (opcOf r.pattern).toNat ∈ opcodesN ++ opcodesX8 ++ opcodesX16 ++ [opcodeP] := by decide
  rw [illopWord, hopc, or_iff_right (not_not_intro (known r hr))]

/-- R96: a row selects the words of its OPC that are well formed. -/
theorem selects_iff {r : OpcodeRow} (hr : r ∈ opcodeTable) (cw : Word) :
    r.selects cw = true ↔ opcOf cw = opcOf r.pattern ∧ ¬ illopWord cw ∧ ¬ illargWord cw := by
  rw [selects_iff_allowsArg hr]
  refine and_congr_right fun hopc => ?_
  rw [allowsArg_iff hr hopc, illopWord_iff_of_row hr hopc, not_not]

/-- R84, R96: a row has a command's mnemonic exactly when it has the command's OPC. -/
theorem mnemonicOf_eq_iff (i : Instr) : ∀ r ∈ opcodeTable, mnemonicOf i = r.mnemonic ↔ opcodeOf i = opcOf r.pattern := by
  cases i <;> simp only [mnemonicOf, opcodeOf] <;> decide

theorem opcodeTable_opcodes_nodup : (opcodeTable.map fun r => opcOf r.pattern).Nodup := by decide

/-! ### The obligations -/

/-- Settles O7, word by word. -/
theorem wordsOfTheTableDecode : Obligations.WordsOfTheTableDecode := by
  unfold Obligations.WordsOfTheTableDecode
  decide

/-- Settles O8: the encoding has the command's fields, and the opcode map takes the fields back to the command. -/
theorem decodeInvertsEncode : Obligations.DecodeInvertsEncode := fun _ hwf => decode_encode hwf

/-- Settles O9: a word that decodes has the fields of its command, and a word is its fields. -/
theorem encodeInvertsDecode : Obligations.EncodeInvertsDecode := by
  intro cw dw i h
  obtain ⟨hwf, -⟩ := decode_ok h
  rw [encode_decode h]
  exact ⟨hwf, rfl, rfl⟩

/-- Settles O10: a row selects the well-formed words of its OPC, and the OPC determines the mnemonic. -/
theorem opcodeTableAgreesWithDecoder : Obligations.OpcodeTableAgreesWithDecoder := by
  intro cw dw r hr
  refine ⟨⟨fun hsel => ?decodes, fun ⟨i, hdec, hname⟩ => ?selected⟩, fun hopc hsel => ?rejected⟩
  case decodes =>
    obtain ⟨hopc, hop, harg⟩ := (selects_iff hr cw).mp hsel
    obtain ⟨hbad, -⟩ | ⟨-, i, hdec, -⟩ := decode_of_not_illopWord hop dw
    · exact absurd hbad harg
    · obtain ⟨-, -, hfield, -⟩ := decode_ok hdec
      exact ⟨i, hdec, (mnemonicOf_eq_iff i r hr).mpr ((BitVec.eq_of_toNat_eq hfield).trans hopc)⟩
  case selected =>
    obtain ⟨-, -, hfield, -⟩ := decode_ok hdec
    refine (selects_iff hr cw).mpr
      ⟨(BitVec.eq_of_toNat_eq hfield).symm.trans ((mnemonicOf_eq_iff i r hr).mp hname), fun hop => ?_, fun harg => ?_⟩
    · obtain ⟨e, hbad⟩ := decode_of_malformed (.inl hop) dw
      rw [hbad] at hdec; cases hdec
    · obtain ⟨e, hbad⟩ := decode_of_malformed (.inr harg) dw
      rw [hbad] at hdec; cases hdec
  case rejected =>
    split
    next hrsv => exact decode_of_rsv_nonzero cw dw hrsv
    next hrsv =>
      have hop : ¬ illopWord cw := mt (illopWord_iff_of_row hr hopc).mp hrsv
      refine decode_of_illargWord hop (by_contra fun harg => ?_) dw
      rw [(selects_iff hr cw).mpr ⟨hopc, hop, harg⟩] at hsel
      cases hsel

/-- Settles O11: a word selects rows of its own OPC, and no two rows have one OPC. -/
theorem opcodeTableRowsAreDisjoint : Obligations.OpcodeTableRowsAreDisjoint := by
  intro cw r r' hr hr' hsel hsel'
  obtain ⟨hopc, -⟩ := (selects_iff hr cw).mp hsel
  obtain ⟨hopc', -⟩ := (selects_iff hr' cw).mp hsel'
  exact List.inj_on_of_nodup_map opcodeTable_opcodes_nodup hr hr' (hopc.symm.trans hopc')

end Sys2Proof

/-! PROOFS. What one command does, said once for all 20: it executes, it is locked out, or it raises one error (R67, R83,
R85, R95, R270 to R274). -/

namespace Sys2Proof.Machine

/-! ### The effect of a command that executes -/

/-- The registers an executing command leaves. -/
def resultRegs (i : Instr) (a : Arch) : Arch :=
  match i with
  | .nop | .rdstat | .rddig _ | .rdh _ | .rdv _ | .rdw _ | .rdb _ => a
  | .clr => a.clearAll
  | .hinit => { a.clearAll.start with mode := .hash }
  | .minit => { a.clearAll.start with hm := true, mode := .key }
  | .kend => { a.reduceLongKey.openKeyedHash ipadWord with mode := .hmsg }
  | .push n dw => a.pushAll (pushBits n dw)
  | .final => { (if a.mode = .hmsg then a.hmacFinish else a.finalise) with mode := .done }
  | .rinit => { a.clearAll with h := iv, mode := .raw }
  | .wrh j dw => { a with h := a.h.set j dw }
  | .wrb j dw => { a with buf := a.buf.set j dw }
  | .comp => a.compress
  | .cload => { a.cloadOp with cact := true }
  | .step => a.roundOp
  | .cfin => { a.cfinOp with cact := false }

/-- The word an executing command returns: that of a read, and zero otherwise (R83). -/
def resultWord (i : Instr) (a : Arch) : Word :=
  match i with
  | .rdstat => status a
  | .rddig j | .rdh j => a.h[j]
  | .rdv j => a.v[j]
  | .rdw j => a.win[j]
  | .rdb j => a.buf[j]
  | .nop | .clr | .hinit | .minit | .kend | .push _ _ | .final | .rinit | .wrh _ _ | .wrb _ _ | .comp | .cload | .step
  | .cfin => 0#32

/-- R201, R85: the checks of a PUSH, in their order. -/
theorem exec_push_eq_gate (n : Nat) (dw : Word) (s : State) :
    exec (.push n dw) s =
      gate [(.illarg, legalPushCount n), (.seq, s.arch.mode.streaming), (.lenovf, decide (s.arch.len.toNat + n ≤ Config.lenMax))]
        (fun s => s.complete (s.arch.pushAll (pushBits n dw))) s := rfl

theorem executesNow_push_iff {n : Nat} {dw : Word} {a : Arch} :
    executesNow (.push n dw) a ↔
      a.err = false ∧ legalPushCount n = true ∧ a.mode.streaming = true ∧ a.len.toNat + n < 2 ^ 64 := by
  rw [Mode.streaming_iff]
  simp [executesNow, alwaysExecutes, Instr.wellFormed, legalNow, overflowsLength, Nat.le_iff_lt_add_one]

/-- R67, R85: a command all of whose checks pass has its effect and its response; the port is left as it is. -/
theorem exec_of_executesNow {i : Instr} {s : State} (h : executesNow i s.arch) :
    exec i s = answers s (resultRegs i s.arch) (readResponse (resultWord i s.arch)) := by
  have hopen (hi : alwaysExecutes i = false) : s.arch.err = false := by
    obtain ⟨herr, -⟩ := h
    exact herr.resolve_right (by simp [hi])
  have hlegal : legalNow i s.arch := by
    obtain ⟨-, -, hlegal, -⟩ := h
    exact hlegal
  cases i with
  | nop | clr | rdstat => rfl
  | push n dw =>
    obtain ⟨herr, hcount, hmode, hlen⟩ := executesNow_push_iff.mp h
    have hlen : s.arch.len.toNat + n ≤ Config.lenMax := Nat.le_sub_one_of_lt hlen
    rw [exec_push_eq_gate, gate_pass _ _ _ herr (by simp [hcount, hmode, hlen])]
    rfl
  | hinit => exact hinit_guardedBySeq.exec_of_legalNow (hopen rfl) hlegal
  | minit => exact minit_guardedBySeq.exec_of_legalNow (hopen rfl) hlegal
  | kend => exact kend_guardedBySeq.exec_of_legalNow (hopen rfl) hlegal
  | final => exact final_guardedBySeq.exec_of_legalNow (hopen rfl) hlegal
  | rddig j => exact (rddig_guardedBySeq j).exec_of_legalNow (hopen rfl) hlegal
  | rinit => exact rinit_guardedBySeq.exec_of_legalNow (hopen rfl) hlegal
  | wrh j dw => exact (wrh_guardedBySeq j dw).exec_of_legalNow (hopen rfl) hlegal
  | wrb j dw => exact (wrb_guardedBySeq j dw).exec_of_legalNow (hopen rfl) hlegal
  | comp => exact comp_guardedBySeq.exec_of_legalNow (hopen rfl) hlegal
  | cload => exact cload_guardedBySeq.exec_of_legalNow (hopen rfl) hlegal
  | step => exact step_guardedBySeq.exec_of_legalNow (hopen rfl) hlegal
  | cfin => exact cfin_guardedBySeq.exec_of_legalNow (hopen rfl) hlegal
  | rdh j => exact (rdh_guardedBySeq j).exec_of_legalNow (hopen rfl) hlegal
  | rdv j => exact (rdv_guardedBySeq j).exec_of_legalNow (hopen rfl) hlegal
  | rdw j => exact (rdw_guardedBySeq j).exec_of_legalNow (hopen rfl) hlegal
  | rdb j => exact (rdb_guardedBySeq j).exec_of_legalNow (hopen rfl) hlegal

/-! ### The rejections of an unlocked core -/

/-- R85, R272: the first check that fails, of those made of a command: its form, the sequencing table, LEN. -/
def rejectedWith (i : Instr) (a : Arch) (c : ErrorCode) : Prop :=
  match c with
  | .illarg => i.wellFormed = false
  | .seq => i.wellFormed = true ∧ ¬ legalNow i a
  | .lenovf => i.wellFormed = true ∧ legalNow i a ∧ overflowsLength i a
  | .noError | .illop => False

theorem eq_push_of_not_wellFormed {i : Instr} (h : i.wellFormed = false) : ∃ n dw, i = .push n dw := by
  cases i
  case push n dw => exact ⟨n, dw, rfl⟩
  all_goals exact nomatch h

theorem eq_push_of_overflowsLength {i : Instr} {a : Arch} (h : overflowsLength i a) : ∃ n dw, i = .push n dw := by
  cases i
  case push n dw => exact ⟨n, dw, rfl⟩
  all_goals exact h.elim

/-- R273: the three commands that execute in every state. -/
theorem executesNow_of_alwaysExecutes {i : Instr} (a : Arch) (h : alwaysExecutes i = true) : executesNow i a := by
  obtain rfl | rfl | rfl := alwaysExecutes_cases h <;> exact ⟨.inr rfl, rfl, trivial, id⟩

theorem push_of_rejectedWith {n : Nat} {dw : Word} {s : State} {c : ErrorCode} (herr : s.arch.err = false)
    (h : rejectedWith (.push n dw) s.arch c) : exec (.push n dw) s = raises s c := by
  rw [exec_push_eq_gate]
  cases c with
  | noError | illop => exact h.elim
  | illarg =>
    have hcount : legalPushCount n = false := h
    exact gate_fail _ _ _ (.illarg, false) herr (by simp [hcount])
  | seq =>
    obtain ⟨hcount, hmode⟩ := h
    have hcount : legalPushCount n = true := hcount
    have hmode : s.arch.mode.streaming = false := Bool.eq_false_iff.mpr (mt (Mode.streaming_iff _).mp hmode)
    exact gate_fail _ _ _ (.seq, false) herr (by simp [hcount, hmode])
  | lenovf =>
    obtain ⟨hcount, hmode, hlen⟩ := h
    have hcount : legalPushCount n = true := hcount
    have hmode : s.arch.mode.streaming = true := (Mode.streaming_iff _).mpr hmode
    have hlen : ¬ s.arch.len.toNat + n ≤ Config.lenMax := Nat.not_le.mpr hlen
    exact gate_fail _ _ _ (.lenovf, false) herr (by simp [hcount, hmode, hlen])

theorem exec_of_rejectedWith {i : Instr} {s : State} {c : ErrorCode} (herr : s.arch.err = false)
    (h : rejectedWith i s.arch c) : exec i s = raises s c := by
  by_cases hpush : ∃ n dw, i = .push n dw
  · obtain ⟨n, dw, rfl⟩ := hpush
    exact push_of_rejectedWith herr h
  cases c with
  | noError | illop => exact h.elim
  | illarg => exact absurd (eq_push_of_not_wellFormed h) hpush
  | lenovf => exact absurd (eq_push_of_overflowsLength h.2.2) hpush
  | seq =>
    obtain ⟨-, hlegal⟩ := h
    cases halways : alwaysExecutes i with
    | true => exact absurd (executesNow_of_alwaysExecutes s.arch halways).2.2.1 hlegal
    | false =>
      obtain hisPush | ⟨effect, hguarded, -⟩ := gated_cases halways
      · exact absurd hisPush hpush
      · exact hguarded.rejectsOutOfSequence.1 s herr hlegal

/-! ### All a command can do -/

/-- R67, R85, R273: a command executes, or is locked out, or raises the error of the first check that fails. -/
theorem exec_cases (i : Instr) (s : State) :
    (executesNow i s.arch ∧ exec i s = answers s (resultRegs i s.arch) (readResponse (resultWord i s.arch))) ∨
    (s.arch.err = true ∧ alwaysExecutes i = false ∧ exec i s = lockedOut s) ∨
    ∃ c, s.arch.err = false ∧ rejectedWith i s.arch c ∧ exec i s = raises s c := by
  by_cases hex : executesNow i s.arch
  · exact .inl ⟨hex, exec_of_executesNow hex⟩
  have halways : alwaysExecutes i = false := Bool.eq_false_iff.mpr (mt (executesNow_of_alwaysExecutes s.arch) hex)
  cases herr : s.arch.err with
  | true => exact .inr (.inl ⟨rfl, halways, exec_locked halways herr⟩)
  | false =>
    have raised {c : ErrorCode} (hc : rejectedWith i s.arch c) :
        ∃ c, false = false ∧ rejectedWith i s.arch c ∧ exec i s = raises s c := ⟨c, rfl, hc, exec_of_rejectedWith herr hc⟩
    refine .inr (.inr ?_)
    cases hwf : i.wellFormed with
    | false => exact raised (c := .illarg) hwf
    | true =>
      by_cases hlegal : legalNow i s.arch
      · by_cases hlen : overflowsLength i s.arch
        · exact raised (c := .lenovf) ⟨hwf, hlegal, hlen⟩
        · exact absurd ⟨.inl herr, hwf, hlegal, hlen⟩ hex
      · exact raised (c := .seq) ⟨hwf, hlegal⟩

theorem exec_inbox {i : Instr} {s t : State} (h : exec i s = .next t) : t.inbox = s.inbox := by
  obtain ⟨-, heq⟩ | ⟨-, -, heq⟩ | ⟨c, -, -, heq⟩ := exec_cases i s <;> rw [heq] at h <;> cases h <;> rfl

/-- R95: MODE after a command that executes. -/
theorem resultRegs_mode {i : Instr} {a : Arch} (h : executesNow i a) : (resultRegs i a).mode = modeAfter i a.mode := by
  cases i with
  | push n dw =>
    obtain ⟨-, -, -, hlen⟩ := executesNow_push_iff.mp h
    have hbound : a.len.toNat + (pushBits n dw).length < 2 ^ 64 := by rwa [pushBits_length]
    obtain ⟨-, -, hmode, -⟩ := absorb_outside a (pushBits n dw)
    rw [resultRegs, pushAll_eq _ _ hbound]
    exact hmode
  | comp => rw [resultRegs, compress_eq]; rfl
  | _ => rfl

end Sys2Proof.Machine

/-! PROOFS. The port, the error lock, sequencing and responses of every command (rules R40, R67, R72, R73, R83, R85, R95, R201,
R202, R246 to R249, R270 to R275, R300, R301). -/

namespace Sys2Proof.Machine

/-! ### Every step, and a run of steps -/

/-- R72: a step has a next state, whatever stands at the port. -/
theorem step_next (s : State) : ∃ t, step s = .next t := by
  obtain ⟨-, h⟩ | ⟨_, _, -, h⟩ | ⟨_, _, _, i, -, -, h⟩ | ⟨_, _, _, _, -, -, h⟩ := step_cases s
  · exact ⟨_, h⟩
  · exact ⟨_, h⟩
  · rw [h]
    obtain ⟨-, h⟩ | ⟨-, -, h⟩ | ⟨_, -, -, h⟩ := exec_cases i _ <;> exact ⟨_, h⟩
  · exact ⟨_, h⟩

theorem run_zero (s : State) : run 0 s = .next s := rfl

theorem coreRun_succ (M : Host.Core) {s t : M.State} (h : M.step s = .next t) (k : Nat) : M.run (k + 1) s = M.run k t := by
  rw [Host.Core.run, h]

theorem run_succ {s t : State} (h : step s = .next t) (k : Nat) : run (k + 1) s = run k t := coreRun_succ core h k

/-- R273: while the core is locked, a word that is not CLR's is taken from the port and changes no register. -/
theorem step_locked {s : State} {cw dw : Word} {rest : List PortEvent} (herr : s.arch.err = true)
    (hin : s.inbox = .command cw dw :: rest) (hclr : decode cw dw ≠ .ok .clr) :
    ∃ t, step s = .next t ∧ t.arch = s.arch ∧ t.inbox = rest := by
  cases hdec : decode cw dw with
  | error e =>
    refine ⟨_, (step_of_decode_error hin hdec).trans (rejectUndecodable_locked e herr), rfl, rfl⟩
  | ok i =>
    obtain ⟨t, ht⟩ := step_next s
    have hexec : exec i { s with inbox := rest } = .next t := (step_of_decode_ok hin hdec).symm.trans ht
    have hi : i ≠ .clr := fun e => hclr (e ▸ hdec)
    exact ⟨t, ht, arch_eq_of_exec_locked (s := { s with inbox := rest }) hi herr hexec, exec_inbox hexec⟩

theorem run_locked (words : List (Word × Word)) {s : State} {rest : List PortEvent} (herr : s.arch.err = true)
    (hclr : ∀ c ∈ words, decode c.1 c.2 ≠ .ok .clr)
    (hin : s.inbox = words.map (fun c => PortEvent.command c.1 c.2) ++ rest) :
    ∃ t, run words.length s = .next t ∧ t.arch = s.arch ∧ t.inbox = rest := by
  induction words generalizing s with
  | nil => exact ⟨s, run_zero s, rfl, hin⟩
  | cons c words ih =>
    obtain ⟨u, hu, harch, hinbox⟩ := step_locked herr hin (hclr c (.head _))
    obtain ⟨t, ht, htarch, htin⟩ := ih (harch ▸ herr) (fun d hd => hclr d (.tail _ hd)) hinbox
    exact ⟨t, (run_succ hu _).trans ht, htarch.trans harch, htin⟩

/-! ### Registers that differ in nothing but ERR and ECODE -/

theorem onlyChanges_refl (es : List Element) (a : Arch) : onlyChanges es a a := by
  intro e _
  cases e
  case error => exact ⟨rfl, rfl⟩
  all_goals rfl

theorem error_onlyChanges (a : Arch) (c : ErrorCode) : onlyChanges [.error] a { a with err := true, ecode := c } := by
  intro e he
  cases e
  case error => exact absurd he (by decide)
  all_goals rfl

/-! ### Which commands read -/

/-- R83: the word returned is zero but for the six reads. -/
theorem resultWord_eq_zero {i : Instr} (a : Arch)
    (h : ∀ j k, i ≠ .rddig j ∧ i ≠ .rdh j ∧ i ≠ .rdv j ∧ i ≠ .rdw k ∧ i ≠ .rdb k ∧ i ≠ .rdstat) : resultWord i a = 0#32 := by
  cases i with
  | rdstat => exact absurd rfl (h 0 0).2.2.2.2.2
  | rddig j => exact absurd rfl (h j 0).1
  | rdh j => exact absurd rfl (h j 0).2.1
  | rdv j => exact absurd rfl (h j 0).2.2.1
  | rdw k => exact absurd rfl (h 0 k).2.2.2.1
  | rdb k => exact absurd rfl (h 0 k).2.2.2.2.1
  | _ => rfl

/-! ### RAW mode (R249) -/

/-- R249: what stays in RAW mode when a command other than the four restarts executes. -/
def RawFrame (a b : Arch) : Prop :=
  b.mode = .raw ∧ ∀ e ∈ [Element.k0, .inner, .len, .fill, .hm, .klong], e.same a b

theorem RawFrame.of_fields {a b : Arch} (hmode : b.mode = .raw) (hk0 : b.k0 = a.k0) (hinner : b.inner = a.inner)
    (hlen : b.len = a.len) (hfill : b.fill = a.fill) (hhm : b.hm = a.hm) (hklong : b.klong = a.klong) : RawFrame a b := by
  refine ⟨hmode, ?_⟩
  simp [Element.same, hk0, hinner, hlen, hfill, hhm, hklong]

/-- R249: what executes in RAW mode restarts the core or keeps RAW mode's frame. -/
theorem resultRegs_raw {i : Instr} {a : Arch} (hraw : a.mode = .raw) (h : executesNow i a) :
    i = .clr ∨ i = .hinit ∨ i = .minit ∨ i = .rinit ∨ RawFrame a (resultRegs i a) := by
  obtain ⟨-, -, hlegal, -⟩ := h
  cases i with
  | clr => exact .inl rfl
  | hinit => exact .inr (.inl rfl)
  | minit => exact .inr (.inr (.inl rfl))
  | rinit => exact .inr (.inr (.inr (.inl rfl)))
  | push n dw | kend | final | rddig j => simp [legalNow, hraw] at hlegal
  | comp =>
    rw [resultRegs, compress_eq]
    exact .inr (.inr (.inr (.inr (.of_fields hraw rfl rfl rfl rfl rfl rfl))))
  | _ => exact .inr (.inr (.inr (.inr (.of_fields hraw rfl rfl rfl rfl rfl rfl))))

/-! ### The encodings of the reads (R84) -/

theorem decode_rdh (i : Fin 8) (dw : Word) : decode (0x27000000#32 + BitVec.ofNat 32 i.val) dw = .ok (.rdh i) := by
  fin_cases i <;> rfl

theorem decode_rdv (i : Fin 8) (dw : Word) : decode (0x28000000#32 + BitVec.ofNat 32 i.val) dw = .ok (.rdv i) := by
  fin_cases i <;> rfl

theorem decode_rdw (i : Fin 16) (dw : Word) : decode (0x29000000#32 + BitVec.ofNat 32 i.val) dw = .ok (.rdw i) := by
  fin_cases i <;> rfl

theorem decode_rdb (i : Fin 16) (dw : Word) : decode (0x2A000000#32 + BitVec.ofNat 32 i.val) dw = .ok (.rdb i) := by
  fin_cases i <;> rfl

/-- R81 form P: PUSH's encoding for each bit count. -/
theorem decode_push {n : Nat} (hlow : 1 ≤ n) (hhigh : n ≤ 32) (dw : Word) :
    decode (0x13000000#32 + BitVec.ofNat 32 n) dw = .ok (.push n dw) := by
  interval_cases n <;> rfl

/-- R81 form P: a PUSH word is rejected for a bit count outside 1..32. -/
theorem rejectsMalformed_push : rejectsMalformed 0x13#8 1 32 := by
  refine rejectsMalformed_of_illargWord_iff (by decide) fun cw hopc => ?_
  rw [illargWord_iff_of_eq_opcodeP (by rw [hopc]; rfl)]
  omega

/-! ### The obligations -/

/-- Settles O2: the reset event takes the place of the step. -/
theorem resetInputRestoresEveryElement : Obligations.ResetInputRestoresEveryElement := by
  intro s interrupted rest hin
  rw [step, takeEvent_cons s _ _ hin]
  rfl

/-- Settles O3: no event is taken. -/
theorem unaddressedCoreDoesNothing : Obligations.UnaddressedCoreDoesNothing := by
  intro s hin
  rw [step, takeEvent_nil s hin]

/-- Settles O4. -/
theorem stepRunsTheDecodedCommand : Obligations.StepRunsTheDecodedCommand :=
  fun _ _ _ _ _ hin hdec => step_of_decode_ok hin hdec

/-- Settles O6, by cases on what stands at the port. -/
theorem everyStepTerminates : Obligations.EveryStepTerminates := step_next

/-- Settles O13: the form passes and the sequencing table does not, so the error is SEQ. -/
theorem commandOutOfSequenceRaisesSeq : Obligations.CommandOutOfSequenceRaisesSeq :=
  fun _ _ hwf herr hlegal => exec_of_rejectedWith (c := .seq) herr ⟨hwf, hlegal⟩

/-- Settles O15: each clause names the first check that fails. -/
theorem pushRejectsInPriorityOrder : Obligations.PushRejectsInPriorityOrder := by
  refine ⟨fun n dw hlow hhigh => decode_push hlow hhigh dw, rejectsMalformed_push,
    fun s n dw herr => exec_locked rfl herr, fun s n dw herr => ⟨fun hn => ?illarg, fun hlow hhigh hmode => ?seq,
      fun hlow hhigh hmode hlen => ?lenovf⟩⟩
  case illarg =>
    have hcount : legalPushCount n = false := Bool.eq_false_iff.mpr (mt (legalPushCount_iff n).mp (by omega))
    exact exec_of_rejectedWith (c := .illarg) herr hcount
  case seq =>
    have hlegal : ¬ legalNow (.push n dw) s.arch := by
      rcases hmode with hmode | hmode | hmode <;> simp [legalNow, hmode]
    exact exec_of_rejectedWith (c := .seq) herr ⟨(legalPushCount_iff n).mpr ⟨hlow, hhigh⟩, hlegal⟩
  case lenovf =>
    exact exec_of_rejectedWith (c := .lenovf) herr ⟨(legalPushCount_iff n).mpr ⟨hlow, hhigh⟩, hmode, hlen⟩

/-- Settles O16: the gate is shut but for the three commands that have none. -/
theorem lockedCoreExecutesThreeCommands : Obligations.LockedCoreExecutesThreeCommands := by
  intro i s herr
  refine ⟨fun hnop hclr hrdstat => exec_locked (Bool.eq_false_iff.mpr fun halways => ?three) herr,
    fun hi => ?nop, fun hi => ?clr, fun hi => ?rdstat⟩
  case three =>
    obtain rfl | rfl | rfl := alwaysExecutes_cases halways
    · exact hnop rfl
    · exact hclr rfl
    · exact hrdstat rfl
  all_goals subst hi; exact exec_of_executesNow (executesNow_of_alwaysExecutes _ rfl)

/-- Settles O17, by induction on the words. -/
theorem lockHoldsUntilClear : Obligations.LockHoldsUntilClear :=
  fun _ words _ herr hclr hin => run_locked words herr hclr hin

/-- Settles O18, by cases on what the command did. -/
theorem everyResponseHasTheStatedShape : Obligations.EveryResponseHasTheStatedShape := by
  intro i s t h
  obtain ⟨-, heq⟩ | ⟨herr, -, heq⟩ | ⟨c, herr, -, heq⟩ := exec_cases i s <;> rw [heq] at h <;> cases h
  · exact ⟨_, rfl, nofun, fun _ hi => resultWord_eq_zero s.arch hi⟩
  · exact ⟨_, rfl, fun _ => ⟨rfl, herr, onlyChanges_refl _ _, fun _ => rfl⟩, nofun⟩
  · exact ⟨_, rfl, fun _ => ⟨rfl, rfl, error_onlyChanges _ _, fun hlocked => absurd (herr.symm.trans hlocked) nofun⟩, nofun⟩

/-- Settles O31: FINAL's one check is SEQ. -/
theorem finalIsRejectedElsewhere : Obligations.FinalIsRejectedElsewhere :=
  ⟨final_guardedBySeq.rejectsOutOfSequence, fun _ => rfl, rejectsMalformed_of_mem_opcodesN (by decide)⟩

/-- Settles O35: in RAW mode the one check of each read passes, with CACT either. -/
theorem rawReadsReturnTheWord : Obligations.RawReadsReturnTheWord := by
  refine ⟨fun s herr hraw => ⟨fun i => ⟨?rdh, ?rdv⟩, fun j => ⟨?rdw, ?rdb⟩⟩,
    fun i dw => ⟨(rdh_guardedBySeq i).rejectsOutOfSequence, (rdv_guardedBySeq i).rejectsOutOfSequence, decode_rdh i dw,
      decode_rdv i dw⟩,
    fun j dw => ⟨(rdw_guardedBySeq j).rejectsOutOfSequence, (rdb_guardedBySeq j).rejectsOutOfSequence, decode_rdw j dw,
      decode_rdb j dw⟩,
    rejectsMalformed_of_mem_opcodesX8 (by decide), rejectsMalformed_of_mem_opcodesX8 (by decide),
    rejectsMalformed_of_mem_opcodesX16 (by decide), rejectsMalformed_of_mem_opcodesX16 (by decide)⟩
  case rdh => exact (rdh_guardedBySeq i).exec_of_legalNow herr hraw
  case rdv => exact (rdv_guardedBySeq i).exec_of_legalNow herr hraw
  case rdw => exact (rdw_guardedBySeq j).exec_of_legalNow herr hraw
  case rdb => exact (rdb_guardedBySeq j).exec_of_legalNow herr hraw

/-- Settles O43: a rejection touches ERR and ECODE alone, and what executes keeps RAW mode's frame. -/
theorem rawModeIsClosed : Obligations.RawModeIsClosed := by
  intro i s t hraw h
  obtain ⟨hex, heq⟩ | ⟨-, -, heq⟩ | ⟨c, -, -, heq⟩ := exec_cases i s <;> rw [heq] at h <;> cases h
  · exact resultRegs_raw hraw hex
  all_goals exact .inr (.inr (.inr (.inr (RawFrame.of_fields hraw rfl rfl rfl rfl rfl rfl))))

/-- Settles O53: which of its outcomes a command has, and the registers in it, depend on the registers alone. -/
theorem commandsDependOnRegistersAlone : Obligations.CommandsDependOnRegistersAlone := by
  intro i s s' t harch h
  refine ⟨exec_inbox h, ?_⟩
  obtain ⟨hex, heq⟩ | ⟨herr, hi, heq⟩ | ⟨c, herr, hc, heq⟩ := exec_cases i s <;> rw [heq] at h <;> cases h
  · rw [exec_of_executesNow (harch ▸ hex), ← harch]; rfl
  · rw [exec_locked hi (harch ▸ herr), lockedOut, ← harch]; rfl
  · rw [exec_of_rejectedWith (harch ▸ herr) (harch ▸ hc), raises, ← harch]; rfl

end Sys2Proof.Machine

/-! PROOFS. The operators (R110 to R114, R162, R163) and the constant tables (R130, R131). -/

namespace Sys2Proof.Machine

/-! ### The operators -/

theorem add32_toNat (xs : List Word) : (add32 xs).toNat = (xs.map BitVec.toNat).sum % 2 ^ 32 := BitVec.toNat_ofNat _ _

/-- R110: the order of the operands does not matter. -/
theorem add32_perm {xs ys : List Word} (h : xs.Perm ys) : add32 xs = add32 ys := by
  rw [add32, add32, (h.map BitVec.toNat).sum_eq]

/-- R110: neither does their grouping. -/
theorem add32_append (xs ys : List Word) : add32 (xs ++ ys) = add32 [add32 xs, add32 ys] := by
  rw [add32_pair]
  induction xs with
  | nil => rw [List.nil_append, add32_nil, BitVec.zero_add]
  | cons x xs ih => rw [List.cons_append, add32_cons, add32_cons, ih, BitVec.add_assoc]

theorem rotr_getLsbD (x : Word) {n i : Nat} (hn : n < 32) (hi : i < 32) :
    (rotr x n).getLsbD i = x.getLsbD ((i + n) % 32) := by
  rw [rotr, BitVec.getLsbD_or, BitVec.getLsbD_ushiftRight, BitVec.getLsbD_shiftLeft]
  rcases Nat.lt_or_ge (i + n) 32 with h | h
  · have hlow : i < 32 - n := by omega
    rw [Nat.mod_eq_of_lt h, Nat.add_comm n i]
    simp [hlow]
  · have hhigh : ¬ i < 32 - n := by omega
    have hpast : x.getLsbD (n + i) = false := BitVec.getLsbD_of_ge x (n + i) (by omega)
    rw [hpast, show (i + n) % 32 = i - (32 - n) by omega]
    simp [hi, hhigh]

theorem ch_getLsbD (x y z : Word) {i : Nat} (hi : i < 32) :
    (ch x y z).getLsbD i = if x.getLsbD i then y.getLsbD i else z.getLsbD i := by
  simp only [ch, BitVec.getLsbD_xor, BitVec.getLsbD_and, BitVec.getLsbD_not, hi, decide_true, Bool.true_and]
  cases x.getLsbD i <;> simp

theorem maj_getLsbD (x y z : Word) (i : Nat) :
    (maj x y z).getLsbD i = decide (2 ≤ (x.getLsbD i).toNat + (y.getLsbD i).toNat + (z.getLsbD i).toNat) := by
  simp only [maj, BitVec.getLsbD_xor, BitVec.getLsbD_and]
  cases x.getLsbD i <;> cases y.getLsbD i <;> cases z.getLsbD i <;> rfl

/-! ### The first 64 primes -/

/-- Trial division by the primes below 19, which decides primality below 19 * 19. -/
def trialPrime (n : Nat) : Bool := 2 ≤ n && [2, 3, 5, 7, 11, 13, 17].all fun d => n % d ≠ 0 || n = d

theorem trialPrime_iff_prime {n : Nat} (hn : n < 361) : trialPrime n = true ↔ n.Prime := by
  have hspec : trialPrime n = true ↔ 2 ≤ n ∧ ∀ d ∈ [2, 3, 5, 7, 11, 13, 17], d ∣ n → n = d := by
    simp only [trialPrime, Bool.and_eq_true, decide_eq_true_eq, List.all_eq_true, Bool.or_eq_true, Nat.dvd_iff_mod_eq_zero,
      ne_eq, imp_iff_not_or]
  rw [hspec]
  constructor
  · rintro ⟨htwo, hdiv⟩
    by_contra hcomposite
    have hsq : n.minFac ^ 2 ≤ n := Nat.minFac_sq_le_self (by omega) hcomposite
    have hlt : n.minFac < 19 := by nlinarith
    have hmin : n.minFac.Prime := Nat.minFac_prime (by omega)
    have small : ∀ p < 19, p.Prime → p ∈ [2, 3, 5, 7, 11, 13, 17] := by decide
    exact hcomposite (hdiv _ (small _ hlt hmin) (Nat.minFac_dvd n) ▸ hmin)
  · intro hp
    refine ⟨hp.two_le, fun d hd hdvd => ((hp.eq_one_or_self_of_dvd d hdvd).resolve_left ?_).symm⟩
    rintro rfl
    exact absurd hd (by decide)

/-- The first 64 primes. -/
def firstPrimes : List Nat :=
  [2, 3, 5, 7, 11, 13, 17, 19, 23, 29, 31, 37, 41, 43, 47, 53, 59, 61, 67, 71, 73, 79, 83, 89, 97, 101, 103, 107, 109, 113, 127,
   131, 137, 139, 149, 151, 157, 163, 167, 173, 179, 181, 191, 193, 197, 199, 211, 223, 227, 229, 233, 239, 241, 251, 257, 263,
   269, 271, 277, 281, 283, 293, 307, 311]

theorem count_trialPrime {q : Nat} (hq : q < 361) : Nat.count (fun n => trialPrime n = true) q = Nat.count Nat.Prime q := by
  rw [Nat.count_eq_card_filter_range, Nat.count_eq_card_filter_range]
  congr 1
  refine Finset.filter_congr fun n hn => trialPrime_iff_prime ?_
  have := Finset.mem_range.mp hn
  omega

theorem firstPrimes_spec : ∀ t < 64, firstPrimes.getD t 0 < 361 ∧ trialPrime (firstPrimes.getD t 0) = true ∧
    Nat.count (fun n => trialPrime n = true) (firstPrimes.getD t 0) = t := by
  decide +kernel

theorem nth_prime {t : Nat} (h : t < 64) : Nat.nth Nat.Prime t = firstPrimes.getD t 0 := by
  obtain ⟨hlt, hprime, hcount⟩ := firstPrimes_spec t h
  have hnth := Nat.nth_count ((trialPrime_iff_prime hlt).mp hprime)
  rwa [← count_trialPrime hlt, hcount] at hnth

/-! ### Roots of the primes -/

/-- The number of a word below an integer part: q = c 2^32 + w. -/
def fixedPoint (c : Nat) (w : Word) : Nat := c * 2 ^ 32 + w.toNat

theorem fixedPoint_mod (c : Nat) (w : Word) : w.toNat = fixedPoint c w % 2 ^ 32 := by
  have := w.isLt
  rw [fixedPoint]
  omega

/-- The integer part of the cube root of a number below 512. -/
def cubeRootFloor (p : Nat) : Nat := Nat.findGreatest (fun c => c ^ 3 ≤ p) 7

/-- The integer part of the square root of a number below 64. -/
def squareRootFloor (p : Nat) : Nat := Nat.findGreatest (fun c => c ^ 2 ≤ p) 7

/-- R130: K[t] is the 32 fraction bits of the cube root of the t-th prime. -/
theorem roundConstant_isCubeRoot : ∀ t < 64,
    fixedPoint (cubeRootFloor (firstPrimes.getD t 0)) (roundConstant t) ^ 3 ≤ firstPrimes.getD t 0 * 2 ^ 96 ∧
      firstPrimes.getD t 0 * 2 ^ 96 < (fixedPoint (cubeRootFloor (firstPrimes.getD t 0)) (roundConstant t) + 1) ^ 3 := by
  decide +kernel

/-- R131: IV[i] is the 32 fraction bits of the square root of the i-th prime. -/
theorem iv_isSquareRoot : ∀ i : Fin 8,
    fixedPoint (squareRootFloor (firstPrimes.getD i.val 0)) iv[i] ^ 2 ≤ firstPrimes.getD i.val 0 * 2 ^ 64 ∧
      firstPrimes.getD i.val 0 * 2 ^ 64 < (fixedPoint (squareRootFloor (firstPrimes.getD i.val 0)) iv[i] + 1) ^ 2 := by
  decide +kernel

/-! ### The obligations -/

/-- Settles O54, operator by operator. -/
theorem wordOperatorsMeetTheirRules : Obligations.WordOperatorsMeetTheirRules := by
  refine ⟨add32_toNat, fun _ _ => add32_perm, add32_append, fun x n i _ hn hi => rotr_getLsbD x hn hi, fun x n => ?shr,
    fun x => ?complement, fun x y z i hi => ⟨ch_getLsbD x y z hi, maj_getLsbD x y z i⟩⟩
  case shr => rw [shr, BitVec.toNat_ushiftRight, Nat.shiftRight_eq_div_pow]
  case complement => rw [BitVec.toNat_not]

/-- Settles O55: the t-th prime from a list of the first 64, and the root as its integer part and the table's word. -/
theorem tablesAreTheRootsOfThePrimes : Obligations.TablesAreTheRootsOfThePrimes := by
  refine ⟨fun t ht => ⟨_, ?low, ?high, fixedPoint_mod (cubeRootFloor (firstPrimes.getD t 0)) _⟩,
    fun i => ⟨_, ?lowIv, ?highIv, fixedPoint_mod (squareRootFloor (firstPrimes.getD i.val 0)) _⟩⟩
  case low => rw [nth_prime ht]; exact (roundConstant_isCubeRoot t ht).1
  case high => rw [nth_prime ht]; exact (roundConstant_isCubeRoot t ht).2
  case lowIv => rw [nth_prime (by omega)]; exact (iv_isSquareRoot i).1
  case highIv => rw [nth_prime (by omega)]; exact (iv_isSquareRoot i).2

end Sys2Proof.Machine

/-! PROOFS. Padding, key blocks and PUSHBITS (R94, R190 to R192, R223), and the blocks a hash computation compresses (R195 to
R198). -/

namespace Sys2Proof.Machine

/-! ### Pad(M) (R190, R191) -/

theorem padZeros_spec (len : Nat) : padZeros len < 512 ∧ (len + 1 + padZeros len) % 512 = 448 := by
  unfold padZeros
  omega

theorem pad_length (m : Bits) : (pad m).length = 512 * ((m.length + 64) / 512 + 1) := by
  obtain ⟨hlt, hmod⟩ := padZeros_spec m.length
  simp only [pad, List.length_append, List.length_singleton, List.length_replicate, beBits_length]
  omega

theorem blocksOf_length (s : Bits) : (blocksOf s).length = s.length / 512 := by simp [blocksOf]

/-! ### KeyBlock(key) (R223) -/

@[simp] theorem digestBits_length (d : Words8) : (digestBits d).length = 256 := by
  rw [digestBits, wordsBits_length, Vector.length_toList]

theorem reduceKey_short {key : Bits} (h : key.length ≤ 512) : reduceKey key = key := if_neg (Nat.not_lt.mpr h)

theorem reduceKey_long {key : Bits} (h : 512 < key.length) : reduceKey key = digestBits (sha256 key) := if_pos h

theorem keyBlock_short {key : Bits} (h : key.length ≤ 512) :
    keyBlock key = key ++ List.replicate (512 - key.length) false := by rw [keyBlock, reduceKey_short h]

theorem keyBlock_long {key : Bits} (h : 512 < key.length) :
    keyBlock key = digestBits (sha256 key) ++ List.replicate 256 false := by
  rw [keyBlock, reduceKey_long h, digestBits_length]
  rfl

theorem keyBlock_length (key : Bits) : (keyBlock key).length = 512 := by
  rcases Nat.lt_or_ge 512 key.length with h | h
  · rw [keyBlock_long h, List.length_append, digestBits_length, List.length_replicate]
  · rw [keyBlock_short h, List.length_append, List.length_replicate]
    omega

/-! ### PUSHBITS (R94) -/

/-- R82, R94: a PUSH of left-aligned bits pushes them. -/
theorem pushBits_leftAligned {s : Bits} (h : s.length ≤ 32) : pushBits s.length (leftAligned s) = s := by
  have hlen : (s ++ List.replicate (32 - s.length) false).length = 32 := by simp; omega
  apply List.ext_getElem (pushBits_length _ _)
  intro k _ hk
  have hbit : 31 - k < 32 := by omega
  simp only [pushBits, List.getElem_map, List.getElem_range, leftAligned, bitsValue, BitVec.getLsbD_ofNat,
    testBit_foldl_bits, hlen, hbit, decide_true, Bool.true_and, if_true]
  rw [show 32 - 1 - (31 - k) = k by omega, List.getD_append _ _ _ _ hk, List.getD_eq_getElem _ _ hk]

theorem messageOf_push (n : Nat) (dw : Word) (cmds : List Instr) :
    messageOf (.push n dw :: cmds) = pushBits n dw ++ messageOf cmds := rfl

/-- R94: the expansion, by induction on the number of commands it may use. -/
theorem pushBitsFuel_spec (fuel : Nat) {s : Bits} (h : s.length / 32 < fuel) :
    messageOf (pushBitsFuel fuel s) = s ∧ (∀ i ∈ pushBitsFuel fuel s, streamCommand i = true) ∧
      (pushBitsFuel fuel s).length = (s.length + 31) / 32 := by
  induction fuel generalizing s with
  | zero => omega
  | succ fuel ih =>
    have legal {n : Nat} {dw : Word} (hlow : 1 ≤ n) (hhigh : n ≤ 32) : streamCommand (.push n dw) = true :=
      (legalPushCount_iff n).mpr ⟨hlow, hhigh⟩
    rw [pushBitsFuel]
    split
    next hnil => exact ⟨(List.eq_nil_of_length_eq_zero hnil).symm, nofun, by simp [hnil]⟩
    next hne =>
    split
    next hone =>
      refine ⟨?_, ?_, ?_⟩
      · rw [messageOf_push, pushBits_leftAligned hone]
        exact List.append_nil s
      · intro i hi
        rw [List.mem_singleton.mp hi]
        exact legal (by omega) hone
      · simp only [List.length_singleton]
        omega
    next hmany =>
      have htake : (s.take 32).length = 32 := by simp; omega
      have hdrop : (s.drop 32).length = s.length - 32 := List.length_drop
      obtain ⟨hmessage, hlegal, hcount⟩ := ih (s := s.drop 32) (by omega)
      refine ⟨?_, ?_, ?_⟩
      · have hfirst := pushBits_leftAligned (Nat.le_of_eq htake)
        rw [htake] at hfirst
        rw [messageOf_push, hfirst, hmessage, List.take_append_drop]
      · intro i hi
        rcases List.mem_cons.mp hi with rfl | hi
        · exact legal (by decide) (by decide)
        · exact hlegal i hi
      · rw [List.length_cons, hcount]
        omega

/-! ### The blocks of a concatenation (R192) -/

/-- One block of bits is the block those bits fill. -/
theorem blocksOf_single {s : Bits} (h : s.length = 512) : blocksOf s = [orBits zeroBlock 0 s] := by
  rw [blocksOf_cons s (by omega), blockAt_zero s (by omega), List.take_of_length_le (by omega),
    blocksOf_short _ (by simp; omega)]

theorem blocksOf_append {s : Bits} (h : s.length % 512 = 0) (s' : Bits) :
    blocksOf (s ++ s') = blocksOf s ++ blocksOf s' := by
  induction hn : s.length using Nat.strongRecOn generalizing s with
  | ind n ih =>
    subst hn
    rcases Nat.lt_or_ge s.length 512 with hlt | hge
    · obtain rfl : s = [] := List.eq_nil_of_length_eq_zero (by omega)
      rfl
    · have hdrop : (s.drop 512).length = s.length - 512 := List.length_drop
      have hfirst : blockAt (s ++ s') 0 = blockAt s 0 := by
        rw [blockAt_zero _ (by simp; omega), blockAt_zero _ hge, List.take_append_of_le_length hge]
      rw [blocksOf_cons _ (by simp; omega), blocksOf_cons s hge, hfirst, List.drop_append_of_le_length hge,
        ih _ (by omega) (s := s.drop 512) (by omega) hdrop, List.cons_append]

/-! ### The blocks Absorb compresses (R195, R196, R198) -/

theorem blocksOfAbsorb_append (a : Arch) (s s' : Bits) :
    blocksOfAbsorb a (s ++ s') = blocksOfAbsorb a s ++ blocksOfAbsorb (a.absorb s) s' := by
  induction s generalizing a with
  | nil => rfl
  | cons b s ih => rw [List.cons_append, blocksOfAbsorb, blocksOfAbsorb, ih, absorb_cons, List.append_assoc]

theorem blocksOfAbsorb_within (a : Arch) (s : Bits) (h : a.fill.toNat + s.length < 512) : blocksOfAbsorb a s = [] := by
  induction s generalizing a with
  | nil => rfl
  | cons b s ih =>
    rw [List.length_cons] at h
    rw [blocksOfAbsorb, blocksOfPutBit, if_neg (by omega), ih _ (by rw [absorbBit_fill]; omega), List.append_nil]

/-- R195: bits that complete the block exactly hand it to Compress. -/
theorem blocksOfAbsorb_completes (a : Arch) (s : Bits) (hs : s ≠ []) (h : a.fill.toNat + s.length = 512) :
    blocksOfAbsorb a s = [orBits a.buf a.fill.toNat s] := by
  obtain ⟨s', b, rfl⟩ : ∃ s' b, s = s' ++ [b] := ⟨s.dropLast, s.getLast hs, (List.dropLast_append_getLast hs).symm⟩
  simp only [List.length_append, List.length_singleton] at h
  have hfill : (a.absorb s').fill.toNat = a.fill.toNat + s'.length := by rw [absorb_fill]; omega
  have hbuf : (a.absorb s').buf = orBits a.buf a.fill.toNat s' := by rw [absorb_within a s' (by omega)]
  have hlast : a.fill.toNat + s'.length < 512 := by omega
  have hpos : (a.absorb s').fill.toFin = ⟨a.fill.toNat + s'.length, hlast⟩ := Fin.ext hfill
  rw [blocksOfAbsorb_append, blocksOfAbsorb_within a s' hlast, blocksOfAbsorb, blocksOfAbsorb, blocksOfPutBit,
    if_pos (by omega), hbuf, hpos, orBits_append, orBits, orBits, dif_pos hlast]
  rfl

/-- R198: from an empty block Absorb(m) compresses the full blocks of m, in order. -/
theorem blocksOfAbsorb_from_empty (a : Arch) (m : Bits) (hf : a.fill = 0#9) (hb : a.buf = zeroBlock) :
    blocksOfAbsorb a m = blocksOf m := by
  induction hn : m.length using Nat.strongRecOn generalizing a m with
  | ind n ih =>
    subst hn
    have hf0 : a.fill.toNat = 0 := by rw [hf]; rfl
    rcases Nat.lt_or_ge m.length 512 with hlt | hge
    · rw [blocksOfAbsorb_within a m (by omega), blocksOf_short m hlt]
    · have htake : (m.take 512).length = 512 := by simp; omega
      have hne : m.take 512 ≠ [] := List.ne_nil_of_length_pos (by omega)
      have hdrop : (m.drop 512).length = m.length - 512 := List.length_drop
      have hfirst := absorb_completes a (m.take 512) hne (by omega)
      conv_lhs => rw [← List.take_append_drop 512 m]
      rw [blocksOfAbsorb_append, blocksOfAbsorb_completes a _ hne (by omega), hf0, hb,
        ih _ (by omega) _ (m.drop 512) (by rw [hfirst]) (by rw [hfirst]) hdrop, blocksOf_cons m hge, blockAt_zero m hge,
        List.singleton_append]

/-! ### The blocks Finalise compresses (R197, R198) -/

/-- R197: one block when FILL <= 447, and otherwise the block with the pad bit and the block with the length. -/
theorem blocksOfFinalise_eq (a : Arch) :
    blocksOfFinalise a =
      if a.fill.toNat ≤ 447 then [withLength (padBitBlock a) a.len] else [padBitBlock a, withLength zeroBlock a.len] := by
  have hlt := a.fill.isLt
  have hgt := putBit_true_fill_gt a
  simp only [blocksOfFinalise, blocksOfPutBit, flushBlock_eq, Arch.putLength_buf]
  rcases Nat.lt_or_ge a.fill.toNat 448 with h | h
  · rw [if_neg (by omega), if_neg (by omega), if_pos (by omega), putBit_within a true (by omega)]
    rfl
  rcases Nat.lt_or_ge a.fill.toNat 511 with h' | h'
  · rw [if_neg (by omega), if_pos (by omega), if_neg (by omega), putBit_within a true (by omega)]
    rfl
  · rw [if_pos (by omega), if_neg (by omega), if_neg (by omega), putBit_completes a true (by omega)]
    rfl

theorem orBitAt_false (b : Block) (p : Fin 512) : orBitAt b p false = b := by
  apply block_ext
  intro q
  rw [bitAt_orBitAt, Bool.and_false, Bool.or_false]

/-- Zeros ORed into a block change nothing. -/
theorem orBits_replicate_false (b : Block) (p n : Nat) : orBits b p (List.replicate n false) = b := by
  induction n generalizing p with
  | zero => rfl
  | succ n ih =>
    rw [List.replicate_succ, orBits]
    simp only [orBitAt_false, dite_eq_ite, ite_self, ih]

/-- R197 step 4: the length words are the last 64 positions of the block, most significant bit first. -/
theorem bitAt_withLength (b : Block) (l : BitVec 64) (p : Fin 512) :
    bitAt (withLength b l) p = if p.val < 448 then bitAt b p else l.getLsbD (511 - p.val) := by
  have hp := p.isLt
  have hbit : 31 - p.val % 32 < 32 := by omega
  simp only [bitAt, withLength, Vector.getElem_set]
  split
  next h15 =>
    rw [if_neg (by omega), BitVec.getLsbD_extractLsb', show 0 + (31 - p.val % 32) = 511 - p.val by omega]
    simp only [hbit, decide_true, Bool.true_and]
  next h15 =>
  split
  next h14 =>
    rw [if_neg (by omega), BitVec.getLsbD_extractLsb', show 32 + (31 - p.val % 32) = 511 - p.val by omega]
    simp only [hbit, decide_true, Bool.true_and]
  next h14 => rw [if_pos (by omega)]

/-- R190, R197 step 4: the 64 length bits ORed in from position 448 on are the two length words. -/
theorem orBits_beBits {b : Block} (hclear : ∀ q : Fin 512, 448 ≤ q.val → bitAt b q = false) (n : Nat) :
    orBits b 448 (beBits 64 n) = withLength b (BitVec.ofNat 64 n) := by
  apply block_ext
  intro q
  have hq := q.isLt
  rw [bitAt_orBits, bitAt_withLength]
  split
  next hlow =>
    have hnot : ¬ 448 ≤ q.val := by omega
    simp [hnot]
  next hhigh =>
    have hge : 448 ≤ q.val := by omega
    have hbit : q.val - 448 < 64 := by omega
    have hpos : 511 - q.val < 64 := by omega
    rw [hclear q hge, BitVec.getLsbD_ofNat]
    simp only [beBits, List.getElem?_map, List.getElem?_range hbit, Option.map_some, Option.getD_some, hge, hpos, decide_true,
      Bool.true_and, Bool.false_or]
    rw [show 64 - 1 - (q.val - 448) = 511 - q.val by omega]

/-! ### The padded message, block by block (R198) -/

/-- The bits of a message after its full blocks. -/
def lastBits (m : Bits) : Bits := m.drop (512 * (m.length / 512))

theorem lastBits_length (m : Bits) : (lastBits m).length = m.length % 512 := by
  rw [lastBits, List.length_drop]
  omega

/-- The padded last bits of a message: one block or two. -/
def paddedTail (m : Bits) : Bits :=
  lastBits m ++ [true] ++ List.replicate (padZeros m.length) false ++ beBits 64 m.length

theorem blocksOf_pad (m : Bits) : blocksOf (pad m) = blocksOf m ++ blocksOf (paddedTail m) := by
  have hfull : (m.take (512 * (m.length / 512))).length % 512 = 0 := by
    rw [List.length_take]
    omega
  have hm : m.take (512 * (m.length / 512)) ++ lastBits m = m := List.take_append_drop _ m
  have hpad : pad m = m.take (512 * (m.length / 512)) ++ paddedTail m := by
    rw [pad, paddedTail, ← List.append_assoc, ← List.append_assoc, ← List.append_assoc, hm]
  have hblocks : blocksOf m = blocksOf (m.take (512 * (m.length / 512))) :=
    calc blocksOf m
      _ = blocksOf (m.take (512 * (m.length / 512)) ++ lastBits m) := by rw [hm]
      _ = blocksOf (m.take (512 * (m.length / 512))) ++ blocksOf (lastBits m) := blocksOf_append hfull _
      _ = blocksOf (m.take (512 * (m.length / 512))) := by
        rw [blocksOf_short (lastBits m) (by rw [lastBits_length]; omega), List.append_nil]
  rw [hpad, hblocks, blocksOf_append hfull]

/-- R190: up to 447 last bits leave room for the length in their block; with more, the length stands in a block of its own. -/
theorem blocksOf_paddedTail (m : Bits) :
    blocksOf (paddedTail m) =
      if (lastBits m).length ≤ 447 then
        [withLength (orBits zeroBlock 0 (lastBits m ++ [true])) (BitVec.ofNat 64 m.length)]
      else [orBits zeroBlock 0 (lastBits m ++ [true]), withLength zeroBlock (BitVec.ofNat 64 m.length)] := by
  obtain ⟨hlt, hmod⟩ := padZeros_spec m.length
  have hlast := lastBits_length m
  have hpadded : (lastBits m ++ [true]).length = (lastBits m).length + 1 := List.length_append
  split
  next hone =>
    have hzeros : padZeros m.length = 447 - (lastBits m).length := by omega
    have hclear (q : Fin 512) (hq : 448 ≤ q.val) : bitAt (orBits zeroBlock 0 (lastBits m ++ [true])) q = false := by
      rw [bitAt_orBits, bitAt_zeroBlock, List.getElem?_eq_none (by omega)]
      simp
    rw [blocksOf_single (by simp [paddedTail, hzeros]; omega), paddedTail, orBits_append, orBits_append,
      orBits_replicate_false, ← orBits_beBits hclear]
    congr 2
    rw [List.length_append, hpadded, List.length_replicate]
    omega
  next htwo =>
    have hzeros : padZeros m.length = (511 - (lastBits m).length) + 448 := by omega
    have hsplit : paddedTail m = (lastBits m ++ [true] ++ List.replicate (511 - (lastBits m).length) false) ++
        (List.replicate 448 false ++ beBits 64 m.length) := by
      rw [paddedTail, hzeros, List.replicate_add]
      simp only [List.append_assoc]
    have hfirst : (lastBits m ++ [true] ++ List.replicate (511 - (lastBits m).length) false).length = 512 := by
      rw [List.length_append, hpadded, List.length_replicate]
      omega
    have hsecond : (List.replicate 448 false ++ beBits 64 m.length).length = 512 := by
      rw [List.length_append, List.length_replicate, beBits_length]
    have hpadBit : orBits zeroBlock 0 (lastBits m ++ [true] ++ List.replicate (511 - (lastBits m).length) false) =
        orBits zeroBlock 0 (lastBits m ++ [true]) := by
      rw [orBits_append, orBits_replicate_false]
    have hlength : orBits zeroBlock 0 (List.replicate 448 false ++ beBits 64 m.length) =
        withLength zeroBlock (BitVec.ofNat 64 m.length) := by
      rw [orBits_append, orBits_replicate_false, List.length_replicate, Nat.zero_add]
      exact orBits_beBits (fun q _ => bitAt_zeroBlock q) _
    rw [hsplit, blocksOf_append (by rw [hfirst]), blocksOf_single hfirst, blocksOf_single hsecond, hpadBit, hlength]
    rfl

/-- R195, R196: the registers Finalise reads, after Absorb(m) from an empty block and LEN = 0. -/
theorem absorb_from_start (a : Arch) (m : Bits) :
    (a.start.absorb m).buf = orBits zeroBlock 0 (lastBits m) ∧ (a.start.absorb m).fill.toNat = (lastBits m).length ∧
      (a.start.absorb m).len = BitVec.ofNat 64 m.length := by
  refine ⟨(absorb_from_empty a.start m rfl rfl).2, ?_, ?_⟩
  · rw [absorb_fill, lastBits_length, Arch.start_fill, BitVec.toNat_ofNat, Nat.zero_mod, Nat.zero_add]
  · rw [absorb_len, Arch.start_len, BitVec.zero_add]

theorem blocksOfFinalise_from_start (a : Arch) (m : Bits) :
    blocksOfFinalise (a.start.absorb m) = blocksOf (paddedTail m) := by
  obtain ⟨hbuf, hfill, hlen⟩ := absorb_from_start a m
  have hlast : (lastBits m).length < 512 := by rw [lastBits_length]; omega
  have hpadBit : padBitBlock (a.start.absorb m) = orBits zeroBlock 0 (lastBits m ++ [true]) := by
    have hend : 0 + (lastBits m).length < 512 := by omega
    have hpos : (a.start.absorb m).fill.toFin = ⟨0 + (lastBits m).length, hend⟩ :=
      Fin.ext (hfill.trans (Nat.zero_add _).symm)
    rw [padBitBlock, hbuf, hpos, orBits_append, orBits, orBits, dif_pos hend]
  rw [blocksOfFinalise_eq, blocksOf_paddedTail, hpadBit, hfill, hlen]

/-- R198: the blocks compressed from Start() on are those of the padded message. -/
theorem blocks_from_start (a : Arch) (m : Bits) :
    blocksOfAbsorb a.start m ++ blocksOfFinalise (a.start.absorb m) = blocksOf (pad m) := by
  rw [blocksOfAbsorb_from_empty a.start m rfl rfl, blocksOfFinalise_from_start, blocksOf_pad]

/-- R192, R198: a hash computation from Start() on ends with H = Hash(m). -/
theorem finalise_from_start (a : Arch) (m : Bits) : (a.start.absorb m).finalise.h = sha256 m := by
  rw [finalise_chain, absorb_chain, ← chain_append, blocks_from_start]
  rfl

/-! ### The obligations -/

/-- Settles O57: the number of zeros fixes the length of Pad(M), and so the number of its blocks. -/
theorem paddingFillsWholeBlocks : Obligations.PaddingFillsWholeBlocks := by
  intro m _
  obtain ⟨hlt, hmod⟩ := padZeros_spec m.length
  have hlen := pad_length m
  refine ⟨⟨padZeros m.length, hlt, hmod, rfl⟩, hlen, by omega, ?_⟩
  rw [blocksOf_length]
  omega

/-- Settles O59, by the two cases of the key's length. -/
theorem keyBlockIs512Bits : Obligations.KeyBlockIs512Bits := by
  intro key
  refine ⟨keyBlock_length key, fun hshort => ⟨?key, fun p hlow hhigh => ?zeros⟩, keyBlock_long⟩
  case key => rw [keyBlock_short hshort, List.take_left']; rfl
  case zeros =>
    rw [keyBlock_short hshort, List.getElem?_append_right hlow, List.getElem?_replicate, if_pos (by omega)]

/-- Settles O60: the fuel of PUSHBITS is one more than the number of full pushes. -/
theorem pushbitsExpandsToTheBits : Obligations.PushbitsExpandsToTheBits :=
  fun s => pushBitsFuel_spec (s.length / 32 + 1) (Nat.lt_succ_self _)

/-- Settles O47: the full blocks of M and then its padded last bits are the blocks of Pad(M). -/
theorem streamedBlocksAreTheBlocksOfPad : Obligations.StreamedBlocksAreTheBlocksOfPad :=
  fun a m _ => ⟨blocks_from_start a m, finalise_from_start a m⟩

end Sys2Proof.Machine

/-! PROOFS. The effects of PUSH, FINAL, KEND and COMP in closed form, and every executing command's MODE and ERR (R63, R95,
R168, R170, R195 to R197, R201, R202, R221, R222, R224). -/

namespace Sys2Proof.Machine

/-! ### A short run of bits into BUF (R195, R196) -/

/-- Bits past the end of the block are dropped. -/
theorem orBits_take (b : Block) {p k : Nat} (h : 512 ≤ p + k) (s : Bits) : orBits b p (s.take k) = orBits b p s := by
  apply block_ext
  intro q
  have hq := q.isLt
  rw [bitAt_orBits, bitAt_orBits]
  by_cases hp : p ≤ q.val
  · rw [List.getElem?_take_of_lt (by omega)]
  · simp only [hp, decide_false, Bool.false_and]

/-- R195 step 2, R196: bits that complete one block and start the next. -/
theorem absorb_across (a : Arch) (s : Bits) (hlow : 512 ≤ a.fill.toNat + s.length) (hhigh : s.length ≤ 512) :
    a.absorb s =
      { a with h := compressBlock a.h (orBits a.buf a.fill.toNat s)
               v := workingState a.h (orBits a.buf a.fill.toNat s) 64
               win := zeroBlock, t := 0#7, buf := orBits zeroBlock 0 (s.drop (512 - a.fill.toNat))
               fill := BitVec.ofNat 9 (a.fill.toNat + s.length - 512), len := a.len + BitVec.ofNat 64 s.length } := by
  have hfill := a.fill.isLt
  have htake : (s.take (512 - a.fill.toNat)).length = 512 - a.fill.toNat := by rw [List.length_take]; omega
  have hdrop : (s.drop (512 - a.fill.toNat)).length = a.fill.toNat + s.length - 512 := by rw [List.length_drop]; omega
  have hsum : 512 - a.fill.toNat + (a.fill.toNat + s.length - 512) = s.length := by omega
  conv_lhs => rw [← List.take_append_drop (512 - a.fill.toNat) s]
  rw [absorb_append, absorb_completes a _ (List.ne_nil_of_length_pos (by omega)) (by omega),
    absorb_within _ _ (by rw [hdrop]; simp only [BitVec.toNat_ofNat]; omega)]
  simp only [orBits_take a.buf (by omega : 512 ≤ a.fill.toNat + (512 - a.fill.toNat)), htake, hdrop, BitVec.add_assoc,
    ← BitVec.ofNat_add, hsum, Nat.zero_add, BitVec.toNat_ofNat, Nat.zero_mod]

/-- R82: the bits of a PUSH, false past the last. -/
theorem pushBits_getElem?_getD (n : Nat) (dw : Word) (k : Nat) :
    ((pushBits n dw)[k]?).getD false = (decide (k < n) && dw.getLsbD (31 - k)) := by
  by_cases h : k < n
  · rw [pushBits_getElem? n dw k h]
    simp [h]
  · rw [List.getElem?_eq_none (by rw [pushBits_length]; omega)]
    simp [h]

/-- The bits of a PUSH ORed into a block from position `start` on. -/
theorem bitAt_orBits_pushBits (b : Block) (start n : Nat) (dw : Word) (p : Fin 512) :
    bitAt (orBits b start (pushBits n dw)) p =
      (bitAt b p || (decide (start ≤ p.val ∧ p.val < start + n) && dw.getLsbD (31 - (p.val - start)))) := by
  rw [bitAt_orBits, pushBits_getElem?_getD, ← Bool.and_assoc, ← Bool.decide_and]
  congr 2
  rw [decide_eq_decide]
  omega

/-! ### PUSH (R201) -/

/-- A PUSH that does not complete a block. -/
theorem pushAll_within (a : Arch) (s : Bits) (hlen : a.len.toNat + s.length < 2 ^ 64) (h : a.fill.toNat + s.length < 512) :
    a.pushAll s =
      { a with buf := orBits a.buf a.fill.toNat s, fill := a.fill + BitVec.ofNat 9 s.length
               len := a.len + BitVec.ofNat 64 s.length
               k0 := if a.mode = .key then orBits a.k0 a.len.toNat s else a.k0
               klong := a.klong || (decide (a.mode = .key) && decide (512 < a.len.toNat + s.length)) } := by
  rw [pushAll_eq a s hlen, absorb_within a s h]

/-- A PUSH that completes a block. -/
theorem pushAll_across (a : Arch) (s : Bits) (hlen : a.len.toNat + s.length < 2 ^ 64)
    (hlow : 512 ≤ a.fill.toNat + s.length) (hhigh : s.length ≤ 512) :
    a.pushAll s =
      { a with h := compressBlock a.h (orBits a.buf a.fill.toNat s)
               v := workingState a.h (orBits a.buf a.fill.toNat s) 64
               win := zeroBlock, t := 0#7, buf := orBits zeroBlock 0 (s.drop (512 - a.fill.toNat))
               fill := BitVec.ofNat 9 (a.fill.toNat + s.length - 512), len := a.len + BitVec.ofNat 64 s.length
               k0 := if a.mode = .key then orBits a.k0 a.len.toNat s else a.k0
               klong := a.klong || (decide (a.mode = .key) && decide (512 < a.len.toNat + s.length)) } := by
  rw [pushAll_eq a s hlen, absorb_across a s hlow hhigh]

theorem toNat_add_ofNat {w : Nat} (x : BitVec w) {n : Nat} (h : x.toNat + n < 2 ^ w) :
    (x + BitVec.ofNat w n).toNat = x.toNat + n := by
  rw [BitVec.toNat_add, BitVec.toNat_ofNat, Nat.add_mod_mod, Nat.mod_eq_of_lt h]

theorem toNat_ofNat_of_lt {w n : Nat} (h : n < 2 ^ w) : (BitVec.ofNat w n).toNat = n := by
  rw [BitVec.toNat_ofNat, Nat.mod_eq_of_lt h]

theorem pushAll_len (a : Arch) (s : Bits) (h : a.len.toNat + s.length < 2 ^ 64) :
    (a.pushAll s).len.toNat = a.len.toNat + s.length := by
  rw [pushAll_eq a s h]
  show (a.absorb s).len.toNat = _
  rw [absorb_len, toNat_add_ofNat _ h]

theorem pushAll_fill (a : Arch) (s : Bits) (h : a.len.toNat + s.length < 2 ^ 64) :
    (a.pushAll s).fill.toNat = (a.fill.toNat + s.length) % 512 := by
  rw [pushAll_eq a s h]
  exact absorb_fill a s

/-- R196, R201: PUSH leaves these alone. -/
theorem pushAll_outside (a : Arch) (s : Bits) (h : a.len.toNat + s.length < 2 ^ 64) :
    (a.pushAll s).inner = a.inner ∧ (a.pushAll s).mode = a.mode ∧ (a.pushAll s).hm = a.hm ∧ (a.pushAll s).cact = a.cact ∧
      (a.pushAll s).err = a.err ∧ (a.pushAll s).ecode = a.ecode := by
  obtain ⟨-, hinner, hmode, hhm, -, hcact, herr, hecode⟩ := absorb_outside a s
  rw [pushAll_eq a s h]
  exact ⟨hinner, hmode, hhm, hcact, herr, hecode⟩

/-- The hash engine neither reads nor writes K0 or KLONG. -/
theorem absorb_k0_klong (a : Arch) (k : Block) (l : Bool) (s : Bits) :
    ({ a with k0 := k, klong := l } : Arch).absorb s = { a.absorb s with k0 := k, klong := l } := by
  induction s generalizing a with
  | nil => rfl
  | cons b s ih =>
    have hbit : ({ a with k0 := k, klong := l } : Arch).absorbBit b = { a.absorbBit b with k0 := k, klong := l } := by
      by_cases h : a.fill.toNat = 511
      · simp only [Arch.absorbBit, putBit_completes a b h, putBit_completes { a with k0 := k, klong := l } b h]
      · simp only [Arch.absorbBit, putBit_within a b h, putBit_within { a with k0 := k, klong := l } b h]
    rw [absorb_cons, hbit, ih, absorb_cons]

/-- R63: consecutive pushes concatenate. -/
theorem pushAll_append (a : Arch) (s s' : Bits) (h : a.len.toNat + (s.length + s'.length) < 2 ^ 64) :
    a.pushAll (s ++ s') = (a.pushAll s).pushAll s' := by
  have h1 : a.len.toNat + s.length < 2 ^ 64 := by omega
  have h2 : (a.pushAll s).len.toNat + s'.length < 2 ^ 64 := by rw [pushAll_len a s h1]; omega
  obtain ⟨-, hmode, -⟩ := pushAll_outside a s h1
  rw [pushAll_eq _ s' h2, hmode, pushAll_len a s h1, pushAll_eq a s h1, absorb_k0_klong, pushAll_eq a _ (by simpa using h),
    absorb_append]
  by_cases hkey : a.mode = .key
  · simp only [hkey, if_true, decide_true, Bool.true_and, orBits_append, List.length_append, Bool.or_assoc]
    congr 2
    rw [← Bool.decide_or, decide_eq_decide]
    omega
  · simp only [hkey, if_false, decide_false, Bool.false_and, Bool.or_false]

/-! ### FINAL in HMSG mode (R224) -/

/-- R224 step 5: INNER, absorbed into an empty block. -/
theorem bitAt_orBits_words8 (d : Words8) (p : Fin 512) :
    bitAt (orBits zeroBlock 0 (wordsBits d.toList)) p =
      if h : p.val / 32 < 8 then d[p.val / 32].getLsbD (31 - p.val % 32) else false := by
  rw [bitAt_orBits, bitAt_zeroBlock, Nat.sub_zero]
  split
  next h =>
    have hbit := wordsBits_getElem? d.toList (p.val / 32) (p.val % 32) (by simpa using h) (by omega)
    rw [show 32 * (p.val / 32) + p.val % 32 = p.val by omega] at hbit
    simp [hbit, h]
  next h =>
    have hlen : (wordsBits d.toList).length = 256 := by rw [wordsBits_length, Vector.length_toList]
    rw [List.getElem?_eq_none (by omega)]
    simp

theorem orBits_words8 (d : Words8) :
    orBits zeroBlock 0 (wordsBits d.toList) = Vector.ofFn fun j => if h : j.val < 8 then d[j.val] else 0#32 := by
  apply block_ext
  intro p
  rw [bitAt_orBits_words8, bitAt, Vector.getElem_ofFn]
  split <;> simp

/-- R224 step 6: the padded block of the outer hash. -/
theorem withLength_outer (d : Words8) :
    withLength (orBitAt (orBits zeroBlock 0 (wordsBits d.toList)) ⟨256, by decide⟩ true) 768#64 = outerTailBlock d := by
  rw [orBits_words8]
  apply Vector.ext
  intro j hj
  simp only [withLength, orBitAt, outerTailBlock, Vector.getElem_set, Vector.getElem_ofFn]
  interval_cases j <;> simp

/-- R224 steps 5 and 6: after the masked key block, the digest is absorbed and the hash finished in one block. -/
theorem absorb_words8_finalise (a : Arch) (d : Words8) (hf : a.fill = 0#9) (hb : a.buf = zeroBlock) (hl : a.len = 512#64) :
    (a.absorb (wordsBits d.toList)).finalise =
      { a with h := compressBlock a.h (outerTailBlock d), v := workingState a.h (outerTailBlock d) 64
               win := zeroBlock, t := 0#7, buf := zeroBlock, fill := 0#9, len := 768#64 } := by
  have hlen : (wordsBits d.toList).length = 256 := by rw [wordsBits_length, Vector.length_toList]
  have habsorb : a.absorb (wordsBits d.toList) =
      { a with buf := orBits zeroBlock 0 (wordsBits d.toList), fill := 256#9, len := 768#64 } := by
    rw [absorb_within a _ (by rw [hf, hlen]; decide), hf, hb, hl, hlen]
    rfl
  have htail : withLength (padBitBlock (a.absorb (wordsBits d.toList))) (a.absorb (wordsBits d.toList)).len =
      outerTailBlock d := by
    rw [habsorb]
    exact withLength_outer d
  have hroom : (a.absorb (wordsBits d.toList)).fill.toNat ≤ 447 := by
    rw [habsorb]
    exact (by decide : (256#9).toNat ≤ 447)
  rw [finalise_eq, finalChaining, finalWorking, if_pos hroom, if_pos hroom, htail, habsorb]

/-- R224: HmacFinish() in closed form. -/
theorem hmacFinish_closed (a : Arch) :
    a.hmacFinish =
      { a with h := compressBlock (compressBlock iv (maskBlock a.k0 opadWord)) (outerTailBlock (finalChaining a))
               v := workingState (compressBlock iv (maskBlock a.k0 opadWord)) (outerTailBlock (finalChaining a)) 64
               win := zeroBlock, t := 0#7, buf := zeroBlock, fill := 0#9, len := 768#64, inner := finalChaining a } := by
  rw [hmacFinish_eq, openKeyedHash_eq, absorb_words8_finalise _ _ rfl rfl rfl, finalise_eq a]

/-! ### Frames, element by element (R39) -/

theorem onlyChanges_iff (es : List Element) (a b : Arch) :
    onlyChanges es a b ↔
      (.h ∉ es → a.h = b.h) ∧ (.v ∉ es → a.v = b.v) ∧ (.t ∉ es → a.t = b.t) ∧ (.win ∉ es → a.win = b.win) ∧
      (.buf ∉ es → a.buf = b.buf) ∧ (.fill ∉ es → a.fill = b.fill) ∧ (.len ∉ es → a.len = b.len) ∧
      (.k0 ∉ es → a.k0 = b.k0) ∧ (.inner ∉ es → a.inner = b.inner) ∧ (.mode ∉ es → a.mode = b.mode) ∧
      (.hm ∉ es → a.hm = b.hm) ∧ (.klong ∉ es → a.klong = b.klong) ∧ (.cact ∉ es → a.cact = b.cact) ∧
      (.error ∉ es → a.err = b.err ∧ a.ecode = b.ecode) := by
  constructor
  · intro h
    exact ⟨h .h, h .v, h .t, h .win, h .buf, h .fill, h .len, h .k0, h .inner, h .mode, h .hm, h .klong, h .cact, h .error⟩
  · rintro ⟨hh, hv, ht, hwin, hbuf, hfill, hlen, hk0, hinner, hmode, hhm, hklong, hcact, herr⟩ e he
    cases e
    case h => exact hh he
    case v => exact hv he
    case t => exact ht he
    case win => exact hwin he
    case buf => exact hbuf he
    case fill => exact hfill he
    case len => exact hlen he
    case k0 => exact hk0 he
    case inner => exact hinner he
    case mode => exact hmode he
    case hm => exact hhm he
    case klong => exact hklong he
    case cact => exact hcact he
    case error => exact herr he

/-- Settles O24: the two cases of FILL + n, each in closed form, and the bits of the blocks they name. -/
theorem pushAbsorbsItsBits : Obligations.PushAbsorbsItsBits := by
  intro s n dw herr hlow hhigh hmode hlen
  have hcount : (pushBits n dw).length = n := pushBits_length n dw
  have hbound : s.arch.len.toNat + (pushBits n dw).length < 2 ^ 64 := by omega
  have hex : executesNow (.push n dw) s.arch :=
    executesNow_push_iff.mpr ⟨herr, (legalPushCount_iff n).mpr ⟨hlow, hhigh⟩, (Mode.streaming_iff _).mpr hmode, by omega⟩
  refine ⟨s.arch.pushAll (pushBits n dw), exec_of_executesNow hex, ?len, fun h => ?within, fun h => ?across,
    fun hkey => ?notKey, fun hkey => ?key⟩
  case len => rw [pushAll_len _ _ hbound, hcount]
  case within =>
    rw [pushAll_within _ _ hbound (by omega)]
    refine ⟨?_, fun p => bitAt_orBits_pushBits _ _ _ _ _, (onlyChanges_iff _ _ _).mpr (by simp)⟩
    rw [hcount]
    exact toNat_add_ofNat _ h
  case across =>
    rw [pushAll_across _ _ hbound (by omega) (by omega)]
    refine ⟨?_, fun p => ?_, orBits s.arch.buf s.arch.fill.toNat (pushBits n dw), fun p => ?_, rfl, rfl, rfl, rfl,
      (onlyChanges_iff _ _ _).mpr (by simp)⟩
    · rw [hcount]
      exact toNat_ofNat_of_lt (by omega)
    · have hleft : p.val + 512 - s.arch.fill.toNat < n ↔ p.val < s.arch.fill.toNat + n - 512 := by omega
      rw [bitAt_orBits, bitAt_zeroBlock, List.getElem?_drop, pushBits_getElem?_getD, Nat.sub_zero,
        show 512 - s.arch.fill.toNat + p.val = p.val + 512 - s.arch.fill.toNat by omega]
      simp only [Nat.zero_le, decide_true, Bool.true_and, Bool.false_or, hleft]
    · rw [bitAt_orBits_pushBits]
      congr 2
      rw [decide_eq_decide]
      omega
  case notKey =>
    rw [pushAll_eq _ _ hbound]
    simp [hkey]
  case key =>
    rw [pushAll_eq _ _ hbound]
    simp only [hkey, if_true, decide_true, Bool.true_and, hcount]
    exact ⟨fun p => bitAt_orBits_pushBits _ _ _ _ _, trivial⟩

/-- Settles O25: the bits of the two pushes are those of the one, and a PUSH of a concatenation is the two pushes. -/
theorem consecutivePushesConcatenate : Obligations.ConsecutivePushesConcatenate := by
  intro s n m dw herr hn hm hnm hmode hlen
  have hmode := (Mode.streaming_iff _).mpr hmode
  have hbound : s.arch.len.toNat + (pushBits n dw).length < 2 ^ 64 := by rw [pushBits_length]; omega
  obtain ⟨-, hmode', -, -, herr', -⟩ := pushAll_outside s.arch (pushBits n dw) hbound
  have hfirst : executesNow (.push n dw) s.arch :=
    executesNow_push_iff.mpr ⟨herr, (legalPushCount_iff n).mpr (by omega), hmode, by omega⟩
  have hsecond : executesNow (.push m (dw <<< n)) (s.arch.pushAll (pushBits n dw)) := by
    refine executesNow_push_iff.mpr ⟨herr'.trans herr, (legalPushCount_iff m).mpr (by omega), hmode' ▸ hmode, ?_⟩
    rw [pushAll_len _ _ hbound, pushBits_length]
    omega
  have hboth : executesNow (.push (n + m) dw) s.arch :=
    executesNow_push_iff.mpr ⟨herr, (legalPushCount_iff _).mpr (by omega), hmode, by omega⟩
  refine ⟨_, _, exec_of_executesNow hfirst, exec_of_executesNow hsecond, (exec_of_executesNow hboth).trans ?_⟩
  have hbits : s.arch.pushAll (pushBits (n + m) dw) = (s.arch.pushAll (pushBits n dw)).pushAll (pushBits m (dw <<< n)) := by
    rw [pushBits_append n m dw hnm, pushAll_append _ _ _ (by rw [pushBits_length, pushBits_length]; omega)]
  show answers s (s.arch.pushAll (pushBits (n + m) dw)) okResponse = _
  rw [hbits]
  rfl

/-- Settles O26: FINAL in HASH mode is Finalise() and then MODE = DONE. -/
theorem finalFinishesTheHash : Obligations.FinalFinishesTheHash := by
  intro s herr hmode
  refine ⟨_, final_guardedBySeq.exec_of_legalNow herr (.inl hmode), rfl, ?_⟩
  rw [if_neg (by rw [hmode]; decide), finalise_eq]
  exact ⟨rfl, rfl, rfl, rfl, rfl, rfl, (onlyChanges_iff _ _ _).mpr (by simp)⟩

/-- Settles O29: a short key is kept and a long one finished first; then one block is compressed from IV. -/
theorem kendFormsTheKeyAndOpensTheInnerHash : Obligations.KendFormsTheKeyAndOpensTheInnerHash := by
  refine ⟨fun s herr hmode => ?kend, kend_guardedBySeq.rejectsOutOfSequence, fun _ => rfl,
    rejectsMalformed_of_mem_opcodesN (by decide)⟩
  case kend =>
    refine ⟨_, kend_guardedBySeq.exec_of_legalNow herr hmode, ?_⟩
    rw [openKeyedHash_eq]
    rcases Nat.lt_or_ge 512 s.arch.len.toNat with h | h
    · rw [reduceLongKey_long _ h]
      exact ⟨fun hshort => absurd h (Nat.not_lt.mpr hshort), fun _ j => Vector.getElem_ofFn _, rfl, rfl, rfl, rfl, rfl, rfl,
        rfl, rfl, (onlyChanges_iff _ _ _).mpr (by simp)⟩
    · rw [reduceLongKey_short _ h]
      exact ⟨fun _ => rfl, fun hlong => absurd hlong (Nat.not_lt.mpr h), rfl, rfl, rfl, rfl, rfl, rfl, rfl, rfl,
        (onlyChanges_iff _ _ _).mpr (by simp)⟩

/-- Settles O30: FINAL in HMSG mode is HmacFinish() and then MODE = DONE. -/
theorem finalFinishesTheHmac : Obligations.FinalFinishesTheHmac := by
  intro s herr hmode
  refine ⟨_, final_guardedBySeq.exec_of_legalNow herr (.inr hmode), rfl, ?_⟩
  rw [if_pos hmode, hmacFinish_closed]
  exact ⟨rfl, rfl, rfl, rfl, rfl, rfl, rfl, rfl, (onlyChanges_iff _ _ _).mpr (by simp)⟩

theorem compressBlock_getElem (s : Words8) (b : Block) (i : Fin 8) :
    (compressBlock s b)[i] = s[i] + (workingState s b 64)[i] := by
  rw [compressBlock, Fin.getElem_fin, Vector.getElem_ofFn, add32_pair]

/-- Settles O36: COMP is Compress(), and the feed-forward taken back is the working state. -/
theorem compComputesTheCompressionFunction : Obligations.CompComputesTheCompressionFunction := by
  refine ⟨fun s herr hraw hcact => ?comp, comp_guardedBySeq.rejectsOutOfSequence, fun _ => rfl,
    rejectsMalformed_of_mem_opcodesN (by decide)⟩
  case comp =>
    refine ⟨_, comp_guardedBySeq.exec_of_legalNow herr ⟨hraw, hcact⟩, ?_⟩
    rw [compress_eq]
    refine ⟨rfl, rfl, fun i => ?_, rfl, rfl, (onlyChanges_iff _ _ _).mpr (by simp)⟩
    rw [compressBlock_getElem, BitVec.add_comm, BitVec.add_sub_cancel]

end Sys2Proof.Machine

/-! PROOFS. What an executing command writes and reads, against R39's matrix, and R95's table (rules R39, R95). -/

namespace Sys2Proof.Machine

/-! ### What KEND and FINAL leave alone -/

/-- R222: forming the key leaves these alone. -/
theorem reduceLongKey_outside (a : Arch) :
    a.reduceLongKey.inner = a.inner ∧ a.reduceLongKey.hm = a.hm ∧ a.reduceLongKey.klong = a.klong ∧
      a.reduceLongKey.cact = a.cact ∧ a.reduceLongKey.err = a.err ∧ a.reduceLongKey.ecode = a.ecode := by
  rcases Nat.lt_or_ge 512 a.len.toNat with h | h
  · rw [reduceLongKey_long a h]
    exact ⟨rfl, rfl, rfl, rfl, rfl, rfl⟩
  · rw [reduceLongKey_short a h]
    exact ⟨rfl, rfl, rfl, rfl, rfl, rfl⟩

/-- The bound on LEN that R85's check 5 gives an executing PUSH. -/
theorem push_bound {n : Nat} {dw : Word} {a : Arch} (h : executesNow (.push n dw) a) :
    a.len.toNat + (pushBits n dw).length < 2 ^ 64 := by
  obtain ⟨-, -, -, hlen⟩ := executesNow_push_iff.mp h
  rwa [pushBits_length]

/-- R83, R270: a command that executes on an unlocked core leaves it unlocked. -/
theorem resultRegs_err {i : Instr} {a : Arch} (h : executesNow i a) (herr : a.err = false) : (resultRegs i a).err = false := by
  cases i with
  | clr | hinit | minit | rinit => rfl
  | push n dw =>
    obtain ⟨-, -, -, -, hsame, -⟩ := pushAll_outside a _ (push_bound h)
    exact hsame.trans herr
  | kend =>
    obtain ⟨-, -, -, -, hsame, -⟩ := reduceLongKey_outside a
    rw [resultRegs, openKeyedHash_eq]
    exact hsame.trans herr
  | final =>
    rw [resultRegs]
    split
    · rw [hmacFinish_closed]; exact herr
    · rw [finalise_eq]; exact herr
  | comp => rw [resultRegs, compress_eq]; exact herr
  | _ => exact herr

/-! ### The columns w of R39 -/

theorem clearAll_onlyChanges (a b : Arch) (m : Mode) : onlyChanges (writes .clr m) a b := by
  intro e he
  cases e <;> simp [writes] at he

/-- R39, log entry 15: an INIT command finds ERR and ECODE clear and leaves them clear. -/
theorem init_onlyChanges {a b : Arch} (hcounters : a.countersInRange) (herr : a.err = false) (hb : b.err = false)
    (hb' : b.ecode = .noError) (m : Mode) : onlyChanges (writes .hinit m) a b := by
  obtain ⟨-, hecode⟩ := hcounters
  refine (onlyChanges_iff _ _ _).mpr ?_
  simp [writes, herr, hb, hb', hecode.mpr herr]

theorem push_onlyChanges {n : Nat} {dw : Word} {a : Arch} (h : executesNow (.push n dw) a) :
    onlyChanges (writes (.push n dw) a.mode) a (resultRegs (.push n dw) a) := by
  obtain ⟨-, hinner, hmode, hhm, -, hcact, herr, hecode⟩ := absorb_outside a (pushBits n dw)
  rw [resultRegs, pushAll_eq _ _ (push_bound h)]
  refine (onlyChanges_iff _ _ _).mpr ?_
  by_cases hkey : a.mode = .key <;> simp [writes, hkey, hinner, hmode, hhm, hcact, herr, hecode]

theorem kend_onlyChanges (a : Arch) : onlyChanges (writes .kend a.mode) a (resultRegs .kend a) := by
  obtain ⟨hinner, hhm, hklong, hcact, herr, hecode⟩ := reduceLongKey_outside a
  rw [resultRegs, openKeyedHash_eq]
  exact (onlyChanges_iff _ _ _).mpr (by simp [writes, hinner, hhm, hklong, hcact, herr, hecode])

theorem final_onlyChanges (a : Arch) : onlyChanges (writes .final a.mode) a (resultRegs .final a) := by
  rw [resultRegs]
  by_cases hmode : a.mode = .hmsg
  · rw [if_pos hmode, hmacFinish_closed]
    exact (onlyChanges_iff _ _ _).mpr (by simp [writes, hmode])
  · rw [if_neg hmode, finalise_eq]
    exact (onlyChanges_iff _ _ _).mpr (by simp [writes, hmode])

/-- R39: an executing command changes only the elements marked as written by it. -/
theorem resultRegs_onlyChanges {i : Instr} {a : Arch} (hcounters : a.countersInRange) (h : executesNow i a) :
    onlyChanges (writes i a.mode) a (resultRegs i a) := by
  obtain ⟨hopen, -⟩ := id h
  cases i with
  | nop | rdstat | rddig _ | rdh _ | rdv _ | rdw _ | rdb _ => exact onlyChanges_refl _ _
  | clr => exact clearAll_onlyChanges _ _ _
  | hinit | minit | rinit => exact init_onlyChanges hcounters (hopen.resolve_right nofun) rfl rfl a.mode
  | push n dw => exact push_onlyChanges h
  | kend => exact kend_onlyChanges a
  | final => exact final_onlyChanges a
  | wrh j dw => exact set_h_onlyChanges a _
  | wrb j dw => exact set_buf_onlyChanges a _
  | comp => rw [resultRegs, compress_eq]; exact (onlyChanges_iff _ _ _).mpr (by simp [writes])
  | cload | step | cfin => exact (onlyChanges_iff _ _ _).mpr (by simp [writes, resultRegs])

/-! ### The columns r of R39 -/

/-- Whatever the two agree on in `a` and `b`, they agree on in `a'` and `b'`. -/
def KeepsAgreement (a b a' b' : Arch) : Prop := ∀ e : Element, e.same a b → e.same a' b'

theorem KeepsAgreement.of_fields {a b a' b' : Arch} (hh : a.h = b.h → a'.h = b'.h) (hv : a.v = b.v → a'.v = b'.v)
    (ht : a.t = b.t → a'.t = b'.t) (hwin : a.win = b.win → a'.win = b'.win) (hbuf : a.buf = b.buf → a'.buf = b'.buf)
    (hfill : a.fill = b.fill → a'.fill = b'.fill) (hlen : a.len = b.len → a'.len = b'.len)
    (hk0 : a.k0 = b.k0 → a'.k0 = b'.k0) (hinner : a.inner = b.inner → a'.inner = b'.inner)
    (hmode : a.mode = b.mode → a'.mode = b'.mode) (hhm : a.hm = b.hm → a'.hm = b'.hm)
    (hklong : a.klong = b.klong → a'.klong = b'.klong) (hcact : a.cact = b.cact → a'.cact = b'.cact)
    (herr : a.err = b.err ∧ a.ecode = b.ecode → a'.err = b'.err ∧ a'.ecode = b'.ecode) : KeepsAgreement a b a' b' := by
  intro e he
  cases e
  case h => exact hh he
  case v => exact hv he
  case t => exact ht he
  case win => exact hwin he
  case buf => exact hbuf he
  case fill => exact hfill he
  case len => exact hlen he
  case k0 => exact hk0 he
  case inner => exact hinner he
  case mode => exact hmode he
  case hm => exact hhm he
  case klong => exact hklong he
  case cact => exact hcact he
  case error => exact herr he

/-- The two agree on every element the matrix marks as read by the command. -/
def AgreeOnReads (i : Instr) (a b : Arch) : Prop := ∀ e ∈ reads i a.mode, e.same a b

theorem AgreeOnReads.error {i : Instr} {a b : Arch} (h : AgreeOnReads i a b) : a.err = b.err ∧ a.ecode = b.ecode :=
  h .error (by cases i <;> simp [reads])

theorem AgreeOnReads.legalNow_iff {i : Instr} {a b : Arch} (h : AgreeOnReads i a b) : legalNow i a ↔ legalNow i b := by
  simp only [AgreeOnReads] at h
  cases i <;> simp [reads, Element.same, legalNow] at h ⊢ <;> simp [h]

theorem AgreeOnReads.overflowsLength_iff {i : Instr} {a b : Arch} (h : AgreeOnReads i a b) :
    overflowsLength i a ↔ overflowsLength i b := by
  cases i
  case push n dw =>
    have hlen : a.len = b.len := h .len (by simp [reads])
    rw [overflowsLength, overflowsLength, hlen]
  all_goals exact Iff.rfl

theorem AgreeOnReads.executesNow_iff {i : Instr} {a b : Arch} (h : AgreeOnReads i a b) : executesNow i a ↔ executesNow i b := by
  rw [executesNow, executesNow, h.error.1, h.legalNow_iff, h.overflowsLength_iff]

theorem AgreeOnReads.rejectedWith_iff {i : Instr} {a b : Arch} (h : AgreeOnReads i a b) (c : ErrorCode) :
    rejectedWith i a c ↔ rejectedWith i b c := by
  cases c <;> simp only [rejectedWith, h.legalNow_iff, h.overflowsLength_iff]

theorem AgreeOnReads.resultWord_eq {i : Instr} {a b : Arch} (h : AgreeOnReads i a b) : resultWord i a = resultWord i b := by
  simp only [AgreeOnReads] at h
  cases i <;> simp [reads, Element.same, resultWord, status] at h ⊢ <;> simp [h]

theorem finalWorking_congr {a b : Arch} (h : a.h = b.h) (hb : a.buf = b.buf) (hf : a.fill = b.fill) (hl : a.len = b.len) :
    finalWorking a = finalWorking b := by
  simp only [finalWorking, padBitBlock, h, hb, hf, hl]

/-- R37, R39: PUSH reads H, BUF, FILL, LEN and MODE. -/
theorem pushAll_keepsAgreement {n : Nat} {dw : Word} {a b : Arch} (h : AgreeOnReads (.push n dw) a b)
    (hex : executesNow (.push n dw) a) :
    KeepsAgreement a b (a.pushAll (pushBits n dw)) (b.pushAll (pushBits n dw)) := by
  have hbound := push_bound hex
  have hcount := (legalPushCount_iff n).mp (executesNow_push_iff.mp hex).2.1
  have hn := pushBits_length n dw
  have hh : a.h = b.h := h .h (by simp [reads])
  have hbuf : a.buf = b.buf := h .buf (by simp [reads])
  have hfill : a.fill = b.fill := h .fill (by simp [reads])
  have hlen : a.len = b.len := h .len (by simp [reads])
  have hmode : a.mode = b.mode := h .mode (by simp [reads])
  rcases Nat.lt_or_ge (a.fill.toNat + (pushBits n dw).length) 512 with hw | hw
  · rw [pushAll_within a _ hbound hw, pushAll_within b _ (hlen ▸ hbound) (hfill ▸ hw)]
    apply KeepsAgreement.of_fields <;> simp +contextual [hh, hbuf, hfill, hlen, hmode]
  · rw [pushAll_across a _ hbound hw (by omega), pushAll_across b _ (hlen ▸ hbound) (hfill ▸ hw) (by omega)]
    apply KeepsAgreement.of_fields <;> simp +contextual [hh, hbuf, hfill, hlen, hmode]

/-- R39: KEND reads H, BUF, FILL and LEN for a long key, and K0 otherwise. -/
theorem kend_keepsAgreement {a b : Arch} (h : AgreeOnReads .kend a b) :
    KeepsAgreement a b (resultRegs .kend a) (resultRegs .kend b) := by
  have hlen : a.len = b.len := h .len (by simp [reads])
  have hk0 : a.k0 = b.k0 := h .k0 (by simp [reads])
  have htail : finalChaining a = finalChaining b :=
    finalChaining_congr (h .h (by simp [reads])) (h .buf (by simp [reads])) (h .fill (by simp [reads])) hlen
  rw [resultRegs, resultRegs, openKeyedHash_eq, openKeyedHash_eq]
  rcases Nat.lt_or_ge 512 a.len.toNat with hl | hl
  · rw [reduceLongKey_long a hl, reduceLongKey_long b (hlen ▸ hl), htail]
    apply KeepsAgreement.of_fields <;> simp +contextual
  · rw [reduceLongKey_short a hl, reduceLongKey_short b (hlen ▸ hl)]
    apply KeepsAgreement.of_fields <;> simp +contextual [hk0]

/-- R39: FINAL reads H, BUF, FILL and LEN, and in HMSG mode K0. -/
theorem final_keepsAgreement {a b : Arch} (h : AgreeOnReads .final a b) :
    KeepsAgreement a b (resultRegs .final a) (resultRegs .final b) := by
  have hh : a.h = b.h := h .h (by simp [reads])
  have hbuf : a.buf = b.buf := h .buf (by simp [reads])
  have hfill : a.fill = b.fill := h .fill (by simp [reads])
  have hlen : a.len = b.len := h .len (by simp [reads])
  have hmode : a.mode = b.mode := h .mode (by simp [reads])
  rw [resultRegs, resultRegs, ← hmode]
  split
  next hmsg =>
    have hk0 : a.k0 = b.k0 := h .k0 (by simp [reads, hmsg])
    rw [hmacFinish_closed, hmacFinish_closed, finalChaining_congr hh hbuf hfill hlen, hk0]
    apply KeepsAgreement.of_fields <;> simp +contextual
  next =>
    rw [finalise_eq, finalise_eq, finalChaining_congr hh hbuf hfill hlen, finalWorking_congr hh hbuf hfill hlen]
    apply KeepsAgreement.of_fields <;> simp +contextual

/-- R39: what an executing command leaves depends on the elements it reads and on the element itself. -/
theorem resultRegs_keepsAgreement {i : Instr} {a b : Arch} (h : AgreeOnReads i a b) (hex : executesNow i a) :
    KeepsAgreement a b (resultRegs i a) (resultRegs i b) := by
  cases i with
  | nop | rdstat | rddig _ | rdh _ | rdv _ | rdw _ | rdb _ => exact fun _ he => he
  | clr | hinit | minit | rinit => apply KeepsAgreement.of_fields <;> exact fun _ => by trivial
  | push n dw => exact pushAll_keepsAgreement h hex
  | kend => exact kend_keepsAgreement h
  | final => exact final_keepsAgreement h
  | wrh j dw => apply KeepsAgreement.of_fields <;> simp +contextual [resultRegs]
  | wrb j dw => apply KeepsAgreement.of_fields <;> simp +contextual [resultRegs]
  | comp =>
    have hh : a.h = b.h := h .h (by simp [reads])
    have hbuf : a.buf = b.buf := h .buf (by simp [reads])
    rw [resultRegs, resultRegs, compress_eq, compress_eq]
    apply KeepsAgreement.of_fields <;> simp +contextual [hh, hbuf]
  | cload =>
    have hh : a.h = b.h := h .h (by simp [reads])
    have hbuf : a.buf = b.buf := h .buf (by simp [reads])
    apply KeepsAgreement.of_fields <;> simp +contextual [resultRegs, hh, hbuf]
  | step =>
    have hv : a.v = b.v := h .v (by simp [reads])
    have ht : a.t = b.t := h .t (by simp [reads])
    have hwin : a.win = b.win := h .win (by simp [reads])
    apply KeepsAgreement.of_fields <;> simp +contextual [resultRegs, hv, ht, hwin]
  | cfin =>
    have hh : a.h = b.h := h .h (by simp [reads])
    have hv : a.v = b.v := h .v (by simp [reads])
    apply KeepsAgreement.of_fields <;> simp +contextual [resultRegs, hh, hv]

/-! ### The obligations -/

/-- Settles O14: a command all of whose checks pass has its effect, with R95's MODE, and raises no error. -/
theorem legalCommandExecutes : Obligations.LegalCommandExecutes :=
  fun _ _ hex => ⟨_, _, exec_of_executesNow hex, resultRegs_mode hex, resultRegs_err hex⟩

/-- Settles O51, command by command. -/
theorem accessMatrixBoundsWrites : Obligations.AccessMatrixBoundsWrites :=
  fun _ _ hcounters hex => ⟨_, _, exec_of_executesNow hex, resultRegs_onlyChanges hcounters hex⟩

/-- Settles O52: the elements read decide which checks pass, the word returned and what is written. -/
theorem unreadElementsDoNotFlow : Obligations.UnreadElementsDoNotFlow := by
  intro i s s' t t' hreads h h'
  have hagree : AgreeOnReads i s.arch s'.arch := hreads
  obtain ⟨hex, heq⟩ | ⟨herr, hi, heq⟩ | ⟨c, herr, hc, heq⟩ := exec_cases i s <;> rw [heq] at h <;> cases h
  · rw [exec_of_executesNow (hagree.executesNow_iff.mp hex)] at h'
    cases h'
    exact ⟨by rw [hagree.resultWord_eq], resultRegs_keepsAgreement hagree hex⟩
  · rw [exec_locked hi (hagree.error.1 ▸ herr)] at h'
    cases h'
    exact ⟨rfl, fun _ he => he⟩
  · rw [exec_of_rejectedWith (hagree.error.1 ▸ herr) ((hagree.rejectedWith_iff c).mp hc)] at h'
    cases h'
    exact ⟨rfl, KeepsAgreement.of_fields id id id id id id id id id id id id id fun _ => ⟨rfl, rfl⟩⟩

end Sys2Proof.Machine

/-! PROOFS. The compressions of each command: how many, and that the next state is theirs (rules R195 to R198, R222, R224,
R320). -/

namespace Sys2Proof.Machine

/-! ### Registers that a run of compressions leads to -/

/-- From `a` the blocks `bs` have been compressed, in order, and H and V of `b` are theirs. -/
structure Compressed (a : Arch) (bs : List Block) (b : Arch) : Prop where
  chained : b.h = chain a.h bs
  unworked : bs = [] → b.v = a.v
  worked : ∀ cs last, bs = cs ++ [last] → b.v = workingState (chain a.h cs) last 64

theorem Compressed.none {a b : Arch} (hh : b.h = a.h) (hv : b.v = a.v) : Compressed a [] b :=
  ⟨hh, fun _ => hv, fun cs _ h => absurd h.symm (List.append_ne_nil_of_right_ne_nil cs (List.cons_ne_nil _ _))⟩

theorem Compressed.one {a b : Arch} {blk : Block} (hh : b.h = compressBlock a.h blk) (hv : b.v = workingState a.h blk 64) :
    Compressed a [blk] b := by
  refine ⟨hh, fun h => absurd h (List.cons_ne_nil _ _), fun cs last h => ?_⟩
  obtain ⟨rfl, rfl⟩ : cs = [] ∧ last = blk := by
    have := List.append_inj' (s₁ := []) (t₁ := [blk]) h rfl
    simpa [eq_comm] using this
  exact hv

theorem Compressed.trans {a b c : Arch} {bs bs' : List Block} (h : Compressed a bs b) (h' : Compressed b bs' c) :
    Compressed a (bs ++ bs') c := by
  refine ⟨?_, fun hnil => ?_, fun cs last heq => ?_⟩
  · rw [h'.chained, h.chained, chain_append]
  · obtain ⟨rfl, rfl⟩ := List.append_eq_nil_iff.mp hnil
    exact (h'.unworked rfl).trans (h.unworked rfl)
  · rcases List.eq_nil_or_concat bs' with rfl | ⟨ds, d, rfl⟩
    · rw [List.append_nil] at heq
      exact (h'.unworked rfl).trans (h.worked cs last heq)
    · rw [List.concat_eq_append, ← List.append_assoc] at heq
      obtain ⟨rfl, hlast⟩ := List.append_inj' heq rfl
      obtain rfl := List.singleton_inj.mp hlast
      rw [h'.worked ds d (List.concat_eq_append ..), h.chained, chain_append]

/-- Registers other than H and V do not matter. -/
theorem Compressed.congr {a b a' b' : Arch} {bs : List Block} (h : Compressed a bs b) (hh : a.h = a'.h) (hv : a.v = a'.v)
    (hh' : b'.h = b.h) (hv' : b'.v = b.v) : Compressed a' bs b' :=
  ⟨by rw [hh', h.chained, hh], fun hnil => by rw [hv', h.unworked hnil, hv],
    fun cs last heq => by rw [hv', h.worked cs last heq, hh]⟩

theorem Compressed.withMode {a b : Arch} {bs : List Block} (h : Compressed a bs b) (m : Mode) :
    Compressed a bs { b with mode := m } := h.congr rfl rfl rfl rfl

theorem putBit_compressed (a : Arch) (b : Bool) : Compressed a (blocksOfPutBit a b) (a.putBit b) := by
  rw [blocksOfPutBit]
  split
  next h => rw [putBit_completes a b h]; exact .one rfl rfl
  next h => rw [putBit_within a b h]; exact .none rfl rfl

theorem absorb_compressed (a : Arch) (s : Bits) : Compressed a (blocksOfAbsorb a s) (a.absorb s) := by
  induction s generalizing a with
  | nil => exact .none rfl rfl
  | cons b s ih => exact ((putBit_compressed a b).congr rfl rfl rfl rfl : Compressed a _ (a.absorbBit b)).trans (ih _)

theorem finalise_compressed (a : Arch) : Compressed a (blocksOfFinalise a) a.finalise := by
  rw [finalise_eq, blocksOfFinalise_eq, finalChaining, finalWorking]
  split
  · exact .one rfl rfl
  · exact Compressed.trans (b := { a with h := compressBlock a.h (padBitBlock a), v := workingState a.h (padBitBlock a) 64 })
      (.one rfl rfl) (.one rfl rfl)

/-! ### How many blocks -/

theorem blocksOfAbsorb_length (a : Arch) (s : Bits) : (blocksOfAbsorb a s).length = (a.fill.toNat + s.length) / 512 := by
  have hfill := a.fill.isLt
  induction s generalizing a with
  | nil =>
    rw [blocksOfAbsorb, List.length_nil, List.length_nil]
    omega
  | cons b s ih =>
    have hone : (blocksOfPutBit a b).length = (a.fill.toNat + 1) / 512 := by
      rw [blocksOfPutBit]
      split <;> simp <;> omega
    rw [blocksOfAbsorb, List.length_append, ih _ (a.absorbBit b).fill.isLt, hone, absorbBit_fill, List.length_cons]
    omega

theorem blocksOfFinalise_length (a : Arch) : (blocksOfFinalise a).length = if a.fill.toNat ≤ 447 then 1 else 2 := by
  rw [blocksOfFinalise_eq]
  split <;> rfl

/-- R222, R224: the masked key is one block from Start() on, and leaves FILL = 0. -/
theorem blocksOfAbsorb_block_length (a : Arch) (b : Block) : (blocksOfAbsorb a.start (wordsBits b.toList)).length = 1 := by
  rw [blocksOfAbsorb_length, wordsBits_length, Vector.length_toList, Arch.start_fill]
  decide

theorem absorb_block_fill (a : Arch) (b : Block) : (a.start.absorb (wordsBits b.toList)).fill.toNat = 0 := by
  rw [absorb_fill, wordsBits_length, Vector.length_toList, Arch.start_fill]
  decide

/-- R224: after the masked key the digest fills half a block, and with its padding the whole. -/
theorem outerHash_blocks_length (a : Arch) (b : Block) (d : Words8) :
    (blocksOfAbsorb a.start (wordsBits b.toList) ++ blocksOfAbsorb (a.start.absorb (wordsBits b.toList)) (wordsBits d.toList) ++
      blocksOfFinalise ((a.start.absorb (wordsBits b.toList)).absorb (wordsBits d.toList))).length = 2 := by
  have hfill : ((a.start.absorb (wordsBits b.toList)).absorb (wordsBits d.toList)).fill.toNat = 256 := by
    rw [absorb_fill, absorb_block_fill, wordsBits_length, Vector.length_toList]
  rw [List.length_append, List.length_append, blocksOfAbsorb_block_length, blocksOfAbsorb_length, absorb_block_fill,
    wordsBits_length, Vector.length_toList, blocksOfFinalise_length, hfill]
  rfl

/-- R320: the number of blocks is the table's entry. -/
theorem blocksCompressed_length {i : Instr} {a : Arch} (h : executesNow i a) :
    (blocksCompressed i a).length = compressionCount i a := by
  cases i with
  | push n dw =>
    obtain ⟨-, hcount, -⟩ := executesNow_push_iff.mp h
    obtain ⟨-, hn⟩ := (legalPushCount_iff n).mp hcount
    have hfill := a.fill.isLt
    simp only [blocksCompressed, chainings, List.flatMap_cons, List.flatMap_nil, List.append_nil, blocksOfAbsorb_length,
      pushBits_length, compressionCount]
    split <;> omega
  | kend =>
    simp only [blocksCompressed, chainings, compressionCount]
    rcases Nat.lt_or_ge 512 a.len.toNat with hl | hl
    · rw [if_pos hl, if_neg (by omega)]
      simp only [List.flatMap_append, List.flatMap_cons, List.flatMap_nil, List.append_nil, List.length_append,
        blocksOfFinalise_length, blocksOfAbsorb_block_length]
      split <;> rfl
    · rw [if_neg (by omega), if_pos hl]
      simp only [List.nil_append, List.flatMap_cons, List.flatMap_nil, List.append_nil, blocksOfAbsorb_block_length]
  | final =>
    simp only [blocksCompressed, chainings, compressionCount]
    split
    · simp only [List.flatMap_cons, List.flatMap_nil, List.append_nil]
      rw [List.length_append, blocksOfFinalise_length, outerHash_blocks_length]
      split <;> rfl
    · simp only [List.flatMap_cons, List.flatMap_nil, List.append_nil, blocksOfFinalise_length]
  | _ => rfl

theorem compressionCount_le (i : Instr) (a : Arch) : compressionCount i a ≤ 4 := by
  cases i with
  | push n dw => rw [compressionCount]; split <;> decide
  | final => rw [compressionCount]; split <;> split <;> decide
  | kend =>
    rw [compressionCount]
    split
    · decide
    · split <;> decide
  | comp => exact (by decide : 1 ≤ 4)
  | _ => exact Nat.zero_le 4

/-! ### The next state is the blocks' -/

theorem push_compressed {n : Nat} {dw : Word} {a : Arch} (h : executesNow (.push n dw) a) :
    Compressed a (blocksOfAbsorb a (pushBits n dw)) (resultRegs (.push n dw) a) := by
  rw [resultRegs, pushAll_eq _ _ (push_bound h)]
  exact (absorb_compressed a _).congr rfl rfl rfl rfl

theorem comp_compressed (a : Arch) : Compressed a [a.buf] (resultRegs .comp a) := by
  rw [resultRegs, compress_eq]
  exact .one rfl rfl

/-- R222: KEND's last computation opens the inner hash from Start(). -/
theorem kend_compressed (a : Arch) :
    Compressed a.reduceLongKey.start
      (blocksOfAbsorb a.reduceLongKey.start (wordsBits (maskBlock a.reduceLongKey.k0 ipadWord).toList)) (resultRegs .kend a) := by
  rw [resultRegs, Arch.openKeyedHash]
  exact (absorb_compressed _ _).withMode .hmsg

/-- R224: the registers with INNER written, from which the outer hash starts. -/
def innerDone (a : Arch) : Arch := { a.finalise with inner := a.finalise.h }

/-- R224: FINAL's last computation in HMSG mode is the whole outer hash, from Start(). -/
theorem final_compressed_hmsg {a : Arch} (hmode : a.mode = .hmsg) :
    Compressed (innerDone a).start
      (blocksOfAbsorb (innerDone a).start (wordsBits (maskBlock a.k0 opadWord).toList) ++
        blocksOfAbsorb ((innerDone a).start.absorb (wordsBits (maskBlock a.k0 opadWord).toList))
          (wordsBits (innerDone a).inner.toList) ++
        blocksOfFinalise (((innerDone a).start.absorb (wordsBits (maskBlock a.k0 opadWord).toList)).absorb
          (wordsBits (innerDone a).inner.toList)))
      (resultRegs .final a) := by
  have hk0 : (innerDone a).k0 = a.k0 := by rw [innerDone, finalise_eq]
  have hinner (m : Word) : ((innerDone a).openKeyedHash m).inner = (innerDone a).inner := by rw [openKeyedHash_eq]
  have hresult : resultRegs .final a = { (((innerDone a).start.absorb (wordsBits (maskBlock a.k0 opadWord).toList)).absorb
      (wordsBits (innerDone a).inner.toList)).finalise with mode := .done } := by
    rw [resultRegs, if_pos hmode, Arch.hmacFinish, ← innerDone]
    simp only [hinner]
    rw [Arch.openKeyedHash, hk0]
  rw [hresult]
  exact (((absorb_compressed _ _).trans (absorb_compressed _ _)).trans (finalise_compressed _)).withMode .done

theorem final_compressed_hash {a : Arch} (hmode : a.mode ≠ .hmsg) : Compressed a (blocksOfFinalise a) (resultRegs .final a) := by
  rw [resultRegs, if_neg hmode]
  exact (finalise_compressed a).withMode .done

/-- R320: H and V of the next state are those of the last computation's blocks. -/
theorem last_chaining_compressed {i : Instr} {a : Arch} (h : executesNow i a) {start : Words8} {bs : List Block}
    (hlast : (chainings i a).getLast? = some (start, bs)) : ∃ a0 : Arch, a0.h = start ∧ Compressed a0 bs (resultRegs i a) := by
  cases i with
  | push n dw => cases hlast; exact ⟨a, rfl, push_compressed h⟩
  | comp => cases hlast; exact ⟨a, rfl, comp_compressed a⟩
  | kend =>
    rw [chainings, List.getLast?_append] at hlast
    cases hlast
    exact ⟨_, rfl, kend_compressed a⟩
  | final =>
    rw [chainings] at hlast
    split at hlast
    next hmode => cases hlast; exact ⟨_, rfl, final_compressed_hmsg hmode⟩
    next hmode => cases hlast; exact ⟨a, rfl, final_compressed_hash hmode⟩
  | _ => cases hlast

/-- R320: what a command that compresses nothing leaves in H and V. -/
theorem resultRegs_uncompressed {i : Instr} {a : Arch} (h : executesNow i a) (hnone : blocksCompressed i a = []) :
    (resultRegs i a).h = hUncompressed i a ∧ (resultRegs i a).v = vUncompressed i a := by
  have hcount : compressionCount i a = 0 := by rw [← blocksCompressed_length h, hnone, List.length_nil]
  cases i with
  | push n dw =>
    have hbits : blocksOfAbsorb a (pushBits n dw) = [] := by
      simpa [blocksCompressed, chainings] using hnone
    obtain ⟨hh, hv, -⟩ := hbits ▸ push_compressed h
    exact ⟨hh, hv rfl⟩
  | comp => cases hcount
  | kend => rw [compressionCount] at hcount; split at hcount <;> [skip; split at hcount] <;> cases hcount
  | final => rw [compressionCount] at hcount; split at hcount <;> split at hcount <;> cases hcount
  | cfin =>
    refine ⟨Vector.ext fun k hk => ?_, rfl⟩
    simp [resultRegs, hUncompressed, add32_pair]
  | _ => exact ⟨rfl, rfl⟩

/-- R222: with two computations KEND's first is the long key's hash, which K0 gets. -/
theorem kend_first_chaining {a : Arch} {start : Words8} {bs : List Block} {last : Words8 × List Block}
    (h : chainings .kend a = [(start, bs), last]) (j : Fin 16) :
    (resultRegs .kend a).k0[j] = if h : j.val < 8 then (chain start bs)[j.val] else 0#32 := by
  rw [chainings] at h
  rcases Nat.lt_or_ge 512 a.len.toNat with hl | hl
  · rw [if_pos hl] at h
    cases h
    rw [← finalise_chain, finalise_eq, resultRegs, openKeyedHash_eq, reduceLongKey_long a hl]
    exact Vector.getElem_ofFn _
  · rw [if_neg (by omega)] at h
    cases h

/-- R224: with two computations FINAL's first is the inner hash, which INNER gets. -/
theorem final_first_chaining {a : Arch} {start : Words8} {bs : List Block} {last : Words8 × List Block}
    (h : chainings .final a = [(start, bs), last]) : (resultRegs .final a).inner = chain start bs := by
  rw [chainings] at h
  split at h
  next hmode =>
    cases h
    rw [← finalise_chain, finalise_eq, resultRegs, if_pos hmode, hmacFinish_closed]
  next => cases h

/-! ### The obligation -/

/-- Settles O48: the counts, and H, V, K0 and INNER of the next state from the blocks of its computations. -/
theorem compressionCountsAreAsTabled : Obligations.CompressionCountsAreAsTabled := by
  intro i s hex
  refine ⟨_, _, exec_of_executesNow hex, blocksCompressed_length hex, compressionCount_le i s.arch,
    resultRegs_uncompressed hex, fun start bs b hlast => ?last, fun start bs last hboth => ⟨fun hi => ?kend, fun hi => ?final⟩⟩
  case last =>
    obtain ⟨a0, rfl, hcompressed⟩ := last_chaining_compressed hex hlast
    exact ⟨hcompressed.chained, hcompressed.worked bs b rfl⟩
  case kend => subst hi; exact kend_first_chaining hboth
  case final => subst hi; exact final_first_chaining hboth

end Sys2Proof.Machine

/-! PROOFS. The invariants between commands (rules R25, R38, R146, R247, R249): they hold at reset, and every step keeps
them. -/

namespace Sys2Proof.Machine

/-! ### Building the invariants, mode by mode -/

/-- The invariants in a streaming mode and in DONE: no compression is being stepped, and MODE is neither IDLE nor RAW. -/
theorem Arch.Consistent.of_hashing {a : Arch} (hidle : a.mode ≠ .idle) (hraw : a.mode ≠ .raw)
    (hecode : a.ecode = .noError ↔ a.err = false) (hcact : a.cact = false) (ht : a.t = 0#7) (hwin : a.win = zeroBlock)
    (hdone : a.mode = .done → a.fill = 0#9 ∧ a.buf = zeroBlock) (hfill : a.fillTracksLen) (hkey : a.keyCaptured)
    (hflags : a.hmacFlags) : a.Consistent where
  countersInRange := ⟨by rw [ht]; decide, hecode⟩
  steppingOnlyInRaw := ⟨by simp [hcact], by simp [ht]⟩
  windowClear := fun _ => hwin
  noFillOutsideStreaming :=
    ⟨fun h => (hdone ((h.resolve_left hidle).resolve_left hraw)).1, fun h => (hdone (h.resolve_left hidle)).2⟩
  fillTracksLen := hfill
  keyCaptured := hkey
  hmacFlags := hflags
  idleIsReset := fun h => absurd h hidle
  rawHoldsNoSecret := fun h => absurd h hraw
  steppedCompression := by simp [hcact]

/-- The invariants in RAW mode, from those before a command that keeps RAW mode's frame and ERR and ECODE. -/
theorem Arch.Consistent.of_raw {a b : Arch} (h : a.Consistent) (hframe : RawFrame a b) (hraw : a.mode = .raw)
    (herr : b.err = a.err) (hecode : b.ecode = a.ecode) (ht : b.t.toNat ≤ 64) (hstep : b.t ≠ 0#7 → b.cact = true)
    (hwin : b.windowClear) (hstepped : b.steppedCompression) : b.Consistent where
  countersInRange := ⟨ht, by rw [herr, hecode]; exact h.countersInRange.2⟩
  steppingOnlyInRaw := ⟨fun _ => hframe.1, hstep⟩
  windowClear := hwin
  noFillOutsideStreaming := by
    obtain ⟨hmode, hsame⟩ := hframe
    have hfill : a.fill = b.fill := hsame .fill (by simp)
    exact ⟨fun _ => hfill ▸ h.noFillOutsideStreaming.1 (.inr (.inl hraw)), by simp [hmode]⟩
  fillTracksLen := by simp [Arch.fillTracksLen, hframe.1]
  keyCaptured := by simp [Arch.keyCaptured, hframe.1]
  hmacFlags := by
    obtain ⟨hmode, hsame⟩ := hframe
    have hhm : a.hm = b.hm := hsame .hm (by simp)
    have hklong : a.klong = b.klong := hsame .klong (by simp)
    obtain ⟨hm, klong, -⟩ := h.hmacFlags
    rw [hhm, hraw] at hm
    rw [hhm, hklong] at klong
    exact ⟨fun h => by simpa using hm h, klong, by simp [hmode]⟩
  idleIsReset := by simp [Arch.idleIsReset, hframe.1]
  rawHoldsNoSecret := by
    obtain ⟨-, hsame⟩ := hframe
    have hlen : a.len = b.len := hsame .len (by simp)
    have hk0 : a.k0 = b.k0 := hsame .k0 (by simp)
    have hinner : a.inner = b.inner := hsame .inner (by simp)
    obtain ⟨h1, h2, h3⟩ := h.rawHoldsNoSecret hraw
    exact fun _ => ⟨hlen ▸ h1, hk0 ▸ h2, hinner ▸ h3⟩
  steppedCompression := hstepped

/-! ### Reset and the INIT commands (R40, R200, R220, R243) -/

theorem reset_consistent : Arch.reset.Consistent where
  countersInRange := by decide
  steppingOnlyInRaw := by decide
  windowClear := fun _ => rfl
  noFillOutsideStreaming := ⟨fun _ => rfl, fun _ => rfl⟩
  fillTracksLen := by simp [Arch.fillTracksLen, Arch.reset]
  keyCaptured := by simp [Arch.keyCaptured, Arch.reset]
  hmacFlags := by decide
  idleIsReset := fun _ => rfl
  rawHoldsNoSecret := by simp [Arch.rawHoldsNoSecret, Arch.reset]
  steppedCompression := by simp [Arch.steppedCompression, Arch.reset]

theorem hinit_consistent : (resultRegs .hinit Arch.reset).Consistent :=
  .of_hashing (by decide) (by decide) (by decide) rfl rfl rfl (by decide)
    (fun _ => ⟨rfl, fun p _ => bitAt_zeroBlock p⟩) (fun h => absurd h (by decide)) (by decide)

theorem minit_consistent : (resultRegs .minit Arch.reset).Consistent :=
  .of_hashing (by decide) (by decide) (by decide) rfl rfl rfl (by decide)
    (fun _ => ⟨rfl, fun p _ => bitAt_zeroBlock p⟩) (fun _ => ⟨fun p _ => bitAt_zeroBlock p, by decide⟩) (by decide)

theorem rinit_consistent : (resultRegs .rinit Arch.reset).Consistent where
  countersInRange := by decide
  steppingOnlyInRaw := by decide
  windowClear := fun _ => rfl
  noFillOutsideStreaming := ⟨fun _ => rfl, fun _ => rfl⟩
  fillTracksLen := fun h => absurd h (by decide)
  keyCaptured := fun h => absurd h (by decide)
  hmacFlags := by decide
  idleIsReset := fun h => absurd h (by decide)
  rawHoldsNoSecret := fun _ => ⟨rfl, rfl, rfl⟩
  steppedCompression := fun h => absurd h (by decide)

/-! ### A rejection (R270) -/

/-- An error recorded in ERR and ECODE keeps the invariants, ECODE being nonzero. -/
theorem Arch.Consistent.withError {a : Arch} (h : a.Consistent) {c : ErrorCode} (hc : c ≠ .noError) :
    ({ a with err := true, ecode := c } : Arch).Consistent :=
  { h with countersInRange := ⟨h.countersInRange.1, by simp [hc]⟩ }

theorem raises_consistent {s t : State} {c : ErrorCode} (h : s.arch.Consistent) (hc : c ≠ .noError)
    (ht : raises s c = .next t) : t.arch.Consistent := by
  cases ht
  exact h.withError hc

theorem rejectUndecodable_consistent {s : State} (h : s.arch.Consistent) (e : DecodeError) :
    (rejectUndecodable e s).arch.Consistent := by
  obtain ⟨-, heq⟩ | ⟨-, heq⟩ := rejectUndecodable_cases e s
  · injection heq with heq
    rw [heq]
    exact h
  · exact raises_consistent h (by cases e <;> decide) heq.symm

/-! ### The hash engine's and the HMAC controller's commands -/

/-- R38 items 2 and 3: outside RAW mode no compression is being stepped. -/
theorem Arch.Consistent.not_stepping {a : Arch} (h : a.Consistent) (hraw : a.mode ≠ .raw) :
    a.cact = false ∧ a.t = 0#7 ∧ a.win = zeroBlock := by
  have hcact : a.cact = false := Bool.eq_false_iff.mpr (mt h.steppingOnlyInRaw.1 hraw)
  refine ⟨hcact, by_contra fun ht => ?_, h.windowClear hcact⟩
  rw [h.steppingOnlyInRaw.2 ht] at hcact
  cases hcact

theorem bitAt_orBits_beyond {b : Block} {start : Nat} {s : Bits} {p : Fin 512} (hclear : bitAt b p = false)
    (h : start + s.length ≤ p.val) : bitAt (orBits b start s) p = false := by
  rw [bitAt_orBits, hclear, List.getElem?_eq_none (by omega)]
  simp

/-- R38 item 5 after a PUSH: FILL follows LEN, and BUF is clear from FILL on. -/
theorem pushAll_fillTracksLen {n : Nat} {dw : Word} {a : Arch} (h : a.Consistent) (hex : executesNow (.push n dw) a) :
    (a.pushAll (pushBits n dw)).fillTracksLen := by
  obtain ⟨-, hcount, hmode, -⟩ := executesNow_push_iff.mp hex
  obtain ⟨hfill, hclear⟩ := h.fillTracksLen ((Mode.streaming_iff _).mp hmode)
  have hbound := push_bound hex
  have hn := pushBits_length n dw
  have hcount := (legalPushCount_iff n).mp hcount
  have hnew := pushAll_fill a _ hbound
  refine fun _ => ⟨by rw [hnew, pushAll_len a _ hbound, hfill]; omega, fun p hp => ?_⟩
  rw [hnew] at hp
  rcases Nat.lt_or_ge (a.fill.toNat + (pushBits n dw).length) 512 with hw | hw
  · rw [pushAll_within a _ hbound hw]
    exact bitAt_orBits_beyond (hclear p (by omega)) (by omega)
  · rw [pushAll_across a _ hbound hw (by omega)]
    exact bitAt_orBits_beyond (bitAt_zeroBlock p) (by rw [List.length_drop]; omega)

/-- R38 item 6 after a PUSH: K0 is clear from LEN on, and KLONG says whether the key is long. -/
theorem pushAll_keyCaptured {a : Arch} (h : a.keyCaptured) {s : Bits} (hbound : a.len.toNat + s.length < 2 ^ 64) :
    (a.pushAll s).keyCaptured := by
  obtain ⟨-, hmode, -⟩ := pushAll_outside a s hbound
  intro hkey
  have hkey : a.mode = .key := hmode ▸ hkey
  obtain ⟨hclear, hklong⟩ := h hkey
  rw [pushAll_len a s hbound, pushAll_eq a s hbound]
  simp only [hkey, if_true, decide_true, Bool.true_and, Bool.or_eq_true, decide_eq_true_eq, hklong]
  refine ⟨fun p hp => ?_, by omega⟩
  have hp512 := p.isLt
  exact bitAt_orBits_beyond (hclear p (by omega)) (by omega)

/-- R38 items 2 and 3 after a PUSH, whether or not it compresses a block. -/
theorem pushAll_idle {a : Arch} (ht : a.t = 0#7) (hwin : a.win = zeroBlock) {s : Bits} (hbound : a.len.toNat + s.length < 2 ^ 64)
    (hs : s.length ≤ 512) : (a.pushAll s).t = 0#7 ∧ (a.pushAll s).win = zeroBlock := by
  rcases Nat.lt_or_ge (a.fill.toNat + s.length) 512 with hw | hw
  · rw [pushAll_within a s hbound hw]
    exact ⟨ht, hwin⟩
  · rw [pushAll_across a s hbound hw hs]
    exact ⟨rfl, rfl⟩

/-- R38 item 7 after a PUSH: KLONG is set in KEY mode alone, where HM is. -/
theorem pushAll_hmacFlags {a : Arch} (h : a.hmacFlags) {s : Bits} (hbound : a.len.toNat + s.length < 2 ^ 64) :
    (a.pushAll s).hmacFlags := by
  obtain ⟨-, hmode, hhm, -⟩ := pushAll_outside a s hbound
  obtain ⟨hm, klong, hset⟩ := h
  rw [Arch.hmacFlags, hmode, hhm]
  refine ⟨hm, fun hklong => ?_, hset⟩
  rw [pushAll_eq a s hbound] at hklong
  simp only [Bool.or_eq_true, Bool.and_eq_true, decide_eq_true_eq] at hklong
  obtain hklong | ⟨hkey, -⟩ := hklong
  · exact klong hklong
  · exact hset (.inl hkey)

theorem push_consistent {n : Nat} {dw : Word} {a : Arch} (h : a.Consistent) (hex : executesNow (.push n dw) a) :
    (resultRegs (.push n dw) a).Consistent := by
  obtain ⟨-, hcount, hstream, -⟩ := executesNow_push_iff.mp hex
  obtain ⟨-, hn⟩ := (legalPushCount_iff n).mp hcount
  have hbound := push_bound hex
  obtain ⟨-, hmode, -, hcact, herr, hecode⟩ := pushAll_outside a (pushBits n dw) hbound
  have other {m : Mode} (hm : m.streaming = false) : a.mode ≠ m := fun e => by rw [e, hm] at hstream; cases hstream
  obtain ⟨hcact0, ht, hwin⟩ := h.not_stepping (other rfl)
  obtain ⟨ht', hwin'⟩ := pushAll_idle ht hwin hbound (by rw [pushBits_length]; omega)
  rw [resultRegs]
  refine .of_hashing (hmode ▸ other rfl) (hmode ▸ other rfl) ?_ (hcact.trans hcact0) ht' hwin'
    (fun hdone => absurd (hmode.symm.trans hdone) (other rfl)) (pushAll_fillTracksLen h hex)
    (pushAll_keyCaptured h.keyCaptured hbound) (pushAll_hmacFlags h.hmacFlags hbound)
  rw [herr, hecode]
  exact h.countersInRange.2

/-- R222: after KEND one block has been absorbed and BUF is empty. -/
theorem kend_consistent {a : Arch} (h : a.Consistent) (hmode : a.mode = .key) : (resultRegs .kend a).Consistent := by
  obtain ⟨-, hhm, hklong, hcact, herr, hecode⟩ := reduceLongKey_outside a
  obtain ⟨hcact0, -, -⟩ := h.not_stepping (by simp [hmode])
  have hset : a.hm = true := h.hmacFlags.2.2 (.inl hmode)
  rw [resultRegs, openKeyedHash_eq]
  refine .of_hashing nofun nofun ?_ ?_ rfl rfl nofun
    (fun _ => ⟨(by decide : (0#9).toNat = (512#64).toNat % 512), fun p _ => bitAt_zeroBlock p⟩) nofun ?_
  · simp only [herr, hecode, h.countersInRange.2]
  · exact hcact.trans hcact0
  · exact ⟨fun _ => .inr (.inl rfl), fun _ => hhm.trans hset, fun _ => hhm.trans hset⟩

theorem final_consistent {a : Arch} (h : a.Consistent) (hmode : a.mode = .hash ∨ a.mode = .hmsg) :
    (resultRegs .final a).Consistent := by
  obtain ⟨hcact, -, -⟩ := h.not_stepping (by rcases hmode with e | e <;> simp [e])
  have hklong := h.hmacFlags.2.1
  have done {b : Arch} (herr : b.err = a.err) (hecode : b.ecode = a.ecode) (hcact' : b.cact = a.cact) (hhm : b.hm = a.hm)
      (hklong' : b.klong = a.klong) (ht : b.t = 0#7) (hwin : b.win = zeroBlock) (hfill : b.fill = 0#9) (hbuf : b.buf = zeroBlock)
      (hdone : b.mode = .done) : b.Consistent := by
    refine .of_hashing (by simp [hdone]) (by simp [hdone]) ?_ (hcact'.trans hcact) ht hwin (fun _ => ⟨hfill, hbuf⟩)
      (by simp [Arch.fillTracksLen, hdone]) (by simp [Arch.keyCaptured, hdone]) ?_
    · rw [herr, hecode]; exact h.countersInRange.2
    · simp [Arch.hmacFlags, hdone, hhm, hklong']
      exact hklong
  rw [resultRegs]
  split
  · rw [hmacFinish_closed]; exact done rfl rfl rfl rfl rfl rfl rfl rfl rfl rfl
  · rw [finalise_eq]; exact done rfl rfl rfl rfl rfl rfl rfl rfl rfl rfl

/-! ### RAW mode's commands -/

/-- R170: after COMP no compression is being stepped, as before. -/
theorem comp_consistent {a : Arch} (h : a.Consistent) (hraw : a.mode = .raw) (hcact : a.cact = false) :
    (resultRegs .comp a).Consistent := by
  rw [resultRegs, compress_eq]
  exact h.of_raw (.of_fields hraw rfl rfl rfl rfl rfl rfl) hraw rfl rfl (Nat.zero_le 64) (fun ht => absurd rfl ht) (fun _ => rfl)
    (by simp [Arch.steppedCompression, hcact])

/-- R171: the load leaves the window and the working state of round 0. -/
theorem cload_consistent {a : Arch} (h : a.Consistent) (hraw : a.mode = .raw) : (resultRegs .cload a).Consistent := by
  refine h.of_raw (.of_fields hraw rfl rfl rfl rfl rfl rfl) hraw rfl rfl (Nat.zero_le 64) (fun _ => rfl) nofun fun _ => ⟨?_, rfl⟩
  exact (windowAt_zero a.buf).symm

/-- R146, R172: a step takes the window and the working state from round T to round T + 1. -/
theorem step_consistent {a : Arch} (h : a.Consistent) (hraw : a.mode = .raw) (hcact : a.cact = true) (ht : a.t.toNat < 64) :
    (resultRegs .step a).Consistent := by
  obtain ⟨hwin, hv⟩ := h.steppedCompression hcact
  have hnext : a.roundOp.t.toNat = a.t.toNat + 1 := roundOp_t_toNat a ht
  have hfirst : a.win[0] = scheduleWord a.buf a.t.toNat := by
    rw [hwin, windowAt_getElem, if_pos (by omega), Nat.add_zero]
  refine h.of_raw (.of_fields hraw rfl rfl rfl rfl rfl rfl) hraw rfl rfl (by rw [resultRegs, hnext]; omega) (fun _ => hcact)
    (fun hc => absurd (hcact.symm.trans hc) nofun) fun _ => ?_
  rw [resultRegs, hnext, Arch.roundOp_win, Arch.roundOp_v, Arch.roundOp_buf, Arch.roundOp_h, hfirst, hwin, hv]
  exact ⟨windowStep_windowAt _ _, rfl⟩

/-- R147, R173: after 64 rounds the window is empty, and CFIN ends the stepped compression. -/
theorem cfin_consistent {a : Arch} (h : a.Consistent) (hraw : a.mode = .raw) (hcact : a.cact = true) (ht : a.t.toNat = 64) :
    (resultRegs .cfin a).Consistent := by
  obtain ⟨hwin, -⟩ := h.steppedCompression hcact
  rw [ht, windowAt_end] at hwin
  exact h.of_raw (.of_fields hraw rfl rfl rfl rfl rfl rfl) hraw rfl rfl (Nat.zero_le 64) (fun hne => absurd rfl hne) (fun _ => hwin)
    nofun

/-- R244, R245: a write to H or BUF while no compression is being stepped. -/
theorem write_consistent {a : Arch} (h : a.Consistent) (hraw : a.mode = .raw) (hcact : a.cact = false) (h' : Words8) (b : Block) :
    ({ a with h := h', buf := b } : Arch).Consistent :=
  h.of_raw (.of_fields hraw rfl rfl rfl rfl rfl rfl) hraw rfl rfl h.countersInRange.1 h.steppingOnlyInRaw.2 h.windowClear
    fun hc => absurd (hcact.symm.trans hc) nofun

/-! ### Every command, and every step -/

theorem resultRegs_consistent {i : Instr} {a : Arch} (h : a.Consistent) (hex : executesNow i a) : (resultRegs i a).Consistent := by
  obtain ⟨-, -, hlegal, -⟩ := id hex
  cases i with
  | nop | rdstat | rddig _ | rdh _ | rdv _ | rdw _ | rdb _ => exact h
  | clr => exact reset_consistent
  | hinit => exact hinit_consistent
  | minit => exact minit_consistent
  | rinit => exact rinit_consistent
  | kend => exact kend_consistent h hlegal
  | push n dw => exact push_consistent h hex
  | final => exact final_consistent h hlegal
  | wrh j dw => exact write_consistent h hlegal.1 hlegal.2 _ _
  | wrb j dw => exact write_consistent h hlegal.1 hlegal.2 _ _
  | comp => exact comp_consistent h hlegal.1 hlegal.2
  | cload => exact cload_consistent h hlegal.1
  | step => exact step_consistent h hlegal.1 hlegal.2.1 hlegal.2.2
  | cfin => exact cfin_consistent h hlegal.1 hlegal.2.1 hlegal.2.2

theorem exec_consistent {i : Instr} {s t : State} (h : s.arch.Consistent) (ht : exec i s = .next t) : t.arch.Consistent := by
  obtain ⟨hex, heq⟩ | ⟨-, -, heq⟩ | ⟨c, -, hc, heq⟩ := exec_cases i s <;> rw [heq] at ht
  · cases ht
    exact resultRegs_consistent h hex
  · cases ht
    exact h
  · exact raises_consistent h (by rintro rfl; exact hc) ht

/-! ### The obligations -/

/-- Settles O49. -/
theorem resetIsConsistent : Obligations.ResetIsConsistent := reset_consistent

/-- Settles O50: no event, a reset, a command that executes or is rejected, and a malformed word each keep the invariants. -/
theorem everyStepKeepsConsistency : Obligations.EveryStepKeepsConsistency := by
  intro s t h ht
  obtain ⟨-, heq⟩ | ⟨_, _, -, heq⟩ | ⟨_, _, rest, i, -, -, heq⟩ | ⟨_, _, rest, e, -, -, heq⟩ := step_cases s <;> rw [heq] at ht
  · cases ht; exact h
  · cases ht; exact reset_consistent
  · exact exec_consistent (s := { s with inbox := rest }) h ht
  · cases ht; exact rejectUndecodable_consistent (s := { s with inbox := rest }) h e

end Sys2Proof.Machine

/-! PROOFS. Runs over issued commands, and the compressions of RAW mode (rules R67, R146, R150, R164 to R174, R243 to R249). -/

namespace Sys2Proof.Machine

/-! ### Commands issued one after the other (R67) -/

/-- Every command executes, from the registers the ones before it leave. -/
def allExecute : List Instr → Arch → Prop
  | [], _ => True
  | i :: cmds, a => executesNow i a ∧ allExecute cmds (resultRegs i a)

/-- The registers the commands leave. -/
def afterAll : List Instr → Arch → Arch
  | [], a => a
  | i :: cmds, a => afterAll cmds (resultRegs i a)

@[simp] theorem afterAll_nil (a : Arch) : afterAll [] a = a := rfl

@[simp] theorem afterAll_cons (i : Instr) (cmds : List Instr) (a : Arch) :
    afterAll (i :: cmds) a = afterAll cmds (resultRegs i a) := rfl

@[simp] theorem allExecute_nil (a : Arch) : allExecute [] a := trivial

@[simp] theorem allExecute_cons (i : Instr) (cmds : List Instr) (a : Arch) :
    allExecute (i :: cmds) a ↔ executesNow i a ∧ allExecute cmds (resultRegs i a) := Iff.rfl

theorem afterAll_append (cmds cmds' : List Instr) (a : Arch) : afterAll (cmds ++ cmds') a = afterAll cmds' (afterAll cmds a) := by
  induction cmds generalizing a with
  | nil => rfl
  | cons i cmds ih => exact ih _

theorem allExecute_append (cmds cmds' : List Instr) (a : Arch) :
    allExecute (cmds ++ cmds') a ↔ allExecute cmds a ∧ allExecute cmds' (afterAll cmds a) := by
  induction cmds generalizing a with
  | nil => simp
  | cons i cmds ih => simp [ih, and_assoc]

/-- R67: the step on a command that executes. -/
theorem step_issue {i : Instr} {cmds : List Instr} {s : State} {rest : List PortEvent} (hex : executesNow i s.arch)
    (hin : s.inbox = issue (i :: cmds) ++ rest) :
    ∃ t, step s = .next t ∧ t.arch = resultRegs i s.arch ∧ t.inbox = issue cmds ++ rest := by
  have hwf : i.wellFormed = true := hex.2.1
  exact ⟨_, (step_of_decode_ok hin (decode_encode hwf)).trans
    (exec_of_executesNow (s := { s with inbox := issue cmds ++ rest }) hex), rfl, rfl⟩

/-- R67: a run over issued commands that all execute. -/
theorem run_issue (cmds : List Instr) {s : State} {rest : List PortEvent} (hex : allExecute cmds s.arch)
    (hin : s.inbox = issue cmds ++ rest) :
    ∃ t, run cmds.length s = .next t ∧ t.arch = afterAll cmds s.arch ∧ t.inbox = rest := by
  induction cmds generalizing s with
  | nil => exact ⟨s, run_zero s, rfl, hin⟩
  | cons i cmds ih =>
    obtain ⟨hi, hcmds⟩ := hex
    obtain ⟨u, hu, huarch, huin⟩ := step_issue hi hin
    obtain ⟨t, ht, harch, hrest⟩ := ih (huarch ▸ hcmds) huin
    exact ⟨t, (run_succ hu _).trans ht, by rw [harch, huarch, afterAll_cons], hrest⟩

/-! ### A stepped compression (R146, R169, R171 to R174) -/

/-- RAW mode, unlocked, with no compression being stepped. -/
def RawReady (a : Arch) : Prop := a.err = false ∧ a.mode = .raw ∧ a.cact = false

/-- R146, R169: after CLOAD and n STEPs, V is V_n and WIN the window of round n. -/
theorem steps_after_cload {a : Arch} (h : RawReady a) {n : Nat} (hn : n ≤ 64) :
    allExecute (.cload :: stepTimes n) a ∧
      afterAll (.cload :: stepTimes n) a =
        { a with v := workingState a.h a.buf n, win := windowAt a.buf n, t := BitVec.ofNat 7 n, cact := true } := by
  obtain ⟨herr, hraw, hcact⟩ := h
  have hregs (k : Nat) (hk : k ≤ 64) : Arch.roundOps k ({ a with cact := true } : Arch).cloadOp =
      { a with v := workingState a.h a.buf k, win := windowAt a.buf k, t := BitVec.ofNat 7 k, cact := true } :=
    roundOps_cloadOp { a with cact := true } k hk
  rw [← hregs n hn]
  induction n with
  | zero => exact ⟨⟨⟨.inl herr, rfl, ⟨hraw, hcact⟩, id⟩, trivial⟩, rfl⟩
  | succ n ih =>
    obtain ⟨hex, hafter⟩ := ih (by omega)
    have hsucc : Instr.cload :: stepTimes (n + 1) = .cload :: stepTimes n ++ [.step] := by
      rw [stepTimes, List.replicate_succ', List.cons_append, stepTimes]
    rw [hsucc, allExecute_append, afterAll_append, hafter, roundOps_succ, hregs n (by omega)]
    refine ⟨⟨hex, ⟨.inl herr, rfl, ⟨hraw, rfl, ?_⟩, id⟩, trivial⟩, rfl⟩
    show (BitVec.ofNat 7 n).toNat < 64
    rw [toNat_ofNat_of_lt (by omega)]
    omega

/-- R173, R174: CLOAD, 64 STEPs and CFIN are one compression. -/
theorem stepped_compression {a : Arch} (h : RawReady a) :
    allExecute (.cload :: stepTimes 64 ++ [.cfin]) a ∧ afterAll (.cload :: stepTimes 64 ++ [.cfin]) a = a.compress := by
  obtain ⟨hex, hafter⟩ := steps_after_cload h (Nat.le_refl 64)
  obtain ⟨herr, hraw, hcact⟩ := h
  rw [allExecute_append, afterAll_append, hafter, windowAt_end, compress_eq]
  refine ⟨⟨hex, ⟨.inl herr, rfl, ⟨hraw, rfl, rfl⟩, id⟩, trivial⟩, ?_⟩
  rw [hcact]
  rfl

/-! ### Passive commands in between (R174) -/

theorem passive_executes {i : Instr} {a : Arch} (hi : passiveInRaw i = true) (hraw : a.mode = .raw) (herr : a.err = false) :
    executesNow i a ∧ resultRegs i a = a := by
  cases i with
  | nop | rdstat => exact ⟨⟨.inl herr, rfl, trivial, id⟩, rfl⟩
  | rdh _ | rdv _ | rdw _ | rdb _ => exact ⟨⟨.inl herr, rfl, hraw, id⟩, rfl⟩
  | _ => cases hi

/-- In RAW mode the passive commands of a list do not matter, if the others do not leave RAW mode. -/
theorem afterAll_filter (cmds : List Instr) {a : Arch} (hraw : a.mode = .raw) (herr : a.err = false)
    (hstay : ∀ i ∈ cmds.filter (fun i => !passiveInRaw i), modeAfter i .raw = .raw)
    (hex : allExecute (cmds.filter fun i => !passiveInRaw i) a) :
    allExecute cmds a ∧ afterAll cmds a = afterAll (cmds.filter fun i => !passiveInRaw i) a := by
  induction cmds generalizing a with
  | nil => exact ⟨trivial, rfl⟩
  | cons i cmds ih =>
    cases hi : passiveInRaw i with
    | true =>
      obtain ⟨hexi, hsame⟩ := passive_executes hi hraw herr
      rw [List.filter_cons_of_neg (by simp [hi])] at hstay hex ⊢
      rw [allExecute_cons, afterAll_cons, hsame]
      obtain ⟨hall, hafter⟩ := ih hraw herr hstay hex
      exact ⟨⟨hexi, hall⟩, hafter⟩
    | false =>
      rw [List.filter_cons_of_pos (by simp [hi])] at hstay hex ⊢
      obtain ⟨hexi, hrest⟩ := hex
      have hmode : (resultRegs i a).mode = .raw := by rw [resultRegs_mode hexi, hraw, hstay i (.head _)]
      obtain ⟨hall, hafter⟩ := ih hmode (resultRegs_err hexi herr) (fun j hj => hstay j (.tail _ hj)) hrest
      exact ⟨⟨hexi, hall⟩, hafter⟩

/-! ### A block written and compressed (R244, R245, R249) -/

/-- The words of `ws` at the positions `js`, written into `b` one after the other. -/
def writeWords (ws : Block) (js : List (Fin 16)) (b : Block) : Block := js.foldl (fun (b : Block) (j : Fin 16) => b.set j ws[j]) b

theorem writeWords_getElem (ws : Block) (js : List (Fin 16)) (b : Block) (k : Fin 16) :
    (writeWords ws js b)[k] = if k ∈ js then ws[k] else b[k] := by
  induction js generalizing b with
  | nil => rfl
  | cons j js ih =>
    rw [writeWords, List.foldl_cons, ← writeWords, ih, getElem_set_fin]
    by_cases hk : k = j
    · simp [hk]
    · simp [hk]

/-- All sixteen words written are the block. -/
theorem writeWords_all (ws b : Block) : writeWords ws (List.finRange 16) b = ws := by
  apply Vector.ext
  intro k hk
  have hword := writeWords_getElem ws (List.finRange 16) b ⟨k, hk⟩
  rwa [if_pos (List.mem_finRange _)] at hword

theorem writes_after {a : Arch} (h : RawReady a) (ws : Block) (js : List (Fin 16)) :
    allExecute (js.map fun j : Fin 16 => .wrb j ws[j]) a ∧
      afterAll (js.map fun j : Fin 16 => .wrb j ws[j]) a = { a with buf := writeWords ws js a.buf } := by
  obtain ⟨herr, hraw, hcact⟩ := id h
  induction js generalizing a with
  | nil => exact ⟨trivial, rfl⟩
  | cons j js ih =>
    obtain ⟨hall, hafter⟩ := ih (a := resultRegs (.wrb j ws[j]) a) ⟨herr, hraw, hcact⟩ herr hraw hcact
    rw [List.map_cons, allExecute_cons, afterAll_cons, hafter]
    exact ⟨⟨⟨.inl herr, rfl, ⟨hraw, hcact⟩, id⟩, hall⟩, rfl⟩

/-- R249: the commands for one block. -/
def blockCommands (b : Block) : List Instr := writeBlock b ++ [.comp]

/-- R245, R170: 16 writes and COMP compress the block written. -/
theorem blockCommands_after {a : Arch} (h : RawReady a) (b : Block) :
    allExecute (blockCommands b) a ∧ afterAll (blockCommands b) a = ({ a with buf := b } : Arch).compress := by
  obtain ⟨hall, hafter⟩ := writes_after h b (List.finRange 16)
  obtain ⟨herr, hraw, hcact⟩ := h
  rw [writeWords_all] at hafter
  rw [blockCommands, allExecute_append, afterAll_append, writeBlock, hafter]
  exact ⟨⟨hall, ⟨.inl herr, rfl, ⟨hraw, hcact⟩, id⟩, trivial⟩, rfl⟩

/-- R249: the blocks written and compressed one after the other are chained into H. -/
theorem flatMap_blockCommands_after (bs : List Block) {a : Arch} (h : RawReady a) :
    allExecute (bs.flatMap blockCommands) a ∧ RawReady (afterAll (bs.flatMap blockCommands) a) ∧
      (afterAll (bs.flatMap blockCommands) a).h = chain a.h bs := by
  induction bs generalizing a with
  | nil => exact ⟨trivial, h, rfl⟩
  | cons b bs ih =>
    obtain ⟨hblock, hafter⟩ := blockCommands_after h b
    rw [compress_eq] at hafter
    have hready : RawReady (afterAll (blockCommands b) a) := by rw [hafter]; exact h
    obtain ⟨hall, hready', hh⟩ := ih hready
    rw [List.flatMap_cons, allExecute_append, afterAll_append, hh]
    refine ⟨⟨hblock, hall⟩, hready', ?_⟩
    rw [hafter]
    rfl

theorem flatMap_blockCommands_length (bs : List Block) : (bs.flatMap blockCommands).length = 17 * bs.length := by
  simp [blockCommands, writeBlock, List.length_flatMap]
  omega

/-! ### The obligations -/

/-- Settles O40: the registers after CLOAD and t STEPs, and the reads of them. -/
theorem steppedCompressionShowsScheduleAndState : Obligations.SteppedCompressionShowsScheduleAndState := by
  intro s t rest herr hraw hcact ht hin
  obtain ⟨hall, hafter⟩ := steps_after_cload ⟨herr, hraw, hcact⟩ ht
  obtain ⟨u, hrun, harch, hrest⟩ := run_issue _ hall hin
  have hlen : (Instr.cload :: stepTimes t).length = t + 1 := by rw [List.length_cons, stepTimes, List.length_replicate]
  rw [hlen] at hrun
  rw [hafter] at harch
  refine ⟨u, hrun, hrest, ?_, by rw [harch], by rw [harch], by rw [harch], fun j => ?rdw, fun i => ?rdv⟩
  · rw [harch]
    exact toNat_ofNat_of_lt (by omega)
  case rdw =>
    rw [(rdw_guardedBySeq j).exec_of_legalNow (by rw [harch]; exact herr) (by rw [legalNow, harch]; exact hraw), respond_eq]
    have hwin : u.arch.win[j] = if t + j.val ≤ 63 then scheduleWord s.arch.buf (t + j.val) else 0#32 := by
      rw [harch, Fin.getElem_fin, windowAt_getElem]
      simp only [Nat.lt_succ_iff]
    rw [hwin]
  case rdv =>
    rw [(rdv_guardedBySeq i).exec_of_legalNow (by rw [harch]; exact herr) (by rw [legalNow, harch]; exact hraw), respond_eq,
      show u.arch.v = workingState s.arch.h s.arch.buf t by rw [harch]]

/-- Settles O41: the interleaved reads drop out, and what is left is one compression. -/
theorem steppedCompressionEqualsComp : Obligations.SteppedCompressionEqualsComp := by
  intro s cmds rest herr hraw hcact hfilter hin
  obtain ⟨hall, hafter⟩ := stepped_compression ⟨herr, hraw, hcact⟩
  have hstay : ∀ i ∈ Instr.cload :: stepTimes 64 ++ [.cfin], modeAfter i .raw = .raw := by decide
  rw [← hfilter] at hall hafter hstay
  obtain ⟨hcmds, hsame⟩ := afterAll_filter cmds hraw herr hstay hall
  obtain ⟨t, hrun, harch, hrest⟩ := run_issue cmds hcmds hin
  exact ⟨t, _, hrun, comp_guardedBySeq.exec_of_legalNow herr ⟨hraw, hcact⟩, harch.trans (hsame.trans hafter), hrest⟩

/-- Settles O42: RINIT leaves H = IV, and the blocks of the padded message are chained into it. -/
theorem rawModeComputesTheHash : Obligations.RawModeComputesTheHash := by
  intro s m rest herr _ hin
  obtain ⟨hall, ⟨herr', hraw', -⟩, hh⟩ :=
    flatMap_blockCommands_after (blocksOf (pad m)) (a := resultRegs .rinit s.arch) ⟨rfl, rfl, rfl⟩
  obtain ⟨t, hrun, harch, hrest⟩ :=
    run_issue (.rinit :: (blocksOf (pad m)).flatMap blockCommands) ⟨⟨.inl herr, rfl, trivial, id⟩, hall⟩ hin
  rw [List.length_cons, flatMap_blockCommands_length, Nat.add_comm] at hrun
  rw [afterAll_cons] at harch
  rw [← harch] at herr' hraw' hh
  have hdigest : t.arch.h = sha256 m := hh
  refine ⟨t, hrun, hraw', hdigest, hrest, fun i => ?_⟩
  rw [(rdh_guardedBySeq i).exec_of_legalNow herr' hraw', respond_eq, hdigest]

end Sys2Proof.Machine

/-! PROOFS. Streams: HINIT, MINIT, KEND, pushes and FINAL against Hash and Hmac (rules R38, R63, R199, R223 to R226). -/

namespace Sys2Proof.Machine

/-! ### The commands of a stream (R63, R199) -/

/-- R38 item 6, the half of KLONG that a PUSH of no bits would restore. -/
def KlongTracksLen (a : Arch) : Prop := a.mode = .key → 512 < a.len.toNat → a.klong = true

theorem pushAll_nil {a : Arch} (h : KlongTracksLen a) : a.pushAll [] = a := by
  rw [Arch.pushAll, List.foldl_nil]
  split
  next hlong =>
    obtain ⟨hkey, hlen⟩ := hlong
    rw [← h hkey hlen]
  next => rfl

theorem pushAll_klongTracksLen (a : Arch) {s : Bits} (hbound : a.len.toNat + s.length < 2 ^ 64) :
    KlongTracksLen (a.pushAll s) := by
  obtain ⟨-, hmode, -⟩ := pushAll_outside a s hbound
  intro hkey hlong
  rw [hmode] at hkey
  rw [pushAll_len a s hbound] at hlong
  rw [pushAll_eq a s hbound]
  simp [hkey, hlong]

/-- R199: the commands of a stream all execute, and leave what one PUSH of all their bits would. -/
theorem stream_after (cmds : List Instr) {a : Arch} (herr : a.err = false) (hmode : a.mode.streaming = true)
    (hklong : KlongTracksLen a) (hcmds : ∀ i ∈ cmds, streamCommand i = true)
    (hlen : a.len.toNat + (messageOf cmds).length < 2 ^ 64) :
    allExecute cmds a ∧ afterAll cmds a = a.pushAll (messageOf cmds) := by
  induction cmds generalizing a with
  | nil => exact ⟨trivial, (pushAll_nil hklong).symm⟩
  | cons i cmds ih =>
    have hi : streamCommand i = true := hcmds i (.head _)
    have hrest : ∀ j ∈ cmds, streamCommand j = true := fun j hj => hcmds j (.tail _ hj)
    cases i with
    | push n dw =>
      rw [messageOf_push, List.length_append] at hlen
      have hbound : a.len.toNat + (pushBits n dw).length < 2 ^ 64 := by omega
      obtain ⟨-, hmode', -, -, herr', -⟩ := pushAll_outside a (pushBits n dw) hbound
      have hex : executesNow (.push n dw) a :=
        executesNow_push_iff.mpr ⟨herr, hi, hmode, by rwa [pushBits_length] at hbound⟩
      obtain ⟨hall, hafter⟩ := ih (a := resultRegs (.push n dw) a) (herr'.trans herr) (hmode' ▸ hmode)
        (pushAll_klongTracksLen a hbound) hrest (by rw [resultRegs, pushAll_len a _ hbound]; omega)
      rw [messageOf_push, pushAll_append a _ _ hlen]
      exact ⟨⟨hex, hall⟩, hafter⟩
    | nop | rdstat =>
      obtain ⟨hall, hafter⟩ := ih herr hmode hklong hrest hlen
      exact ⟨⟨⟨.inl herr, rfl, trivial, id⟩, hall⟩, hafter⟩
    | _ => cases hi

/-! ### Openings (R200, R220, R222) -/

/-- The registers right after HINIT, MINIT or KEND: mode m, an empty block and LEN = n. -/
structure Opened (a : Arch) (m : Mode) (n : Nat) : Prop where
  unlocked : a.err = false
  inMode : a.mode = m
  absorbed : a.len.toNat = n
  fillZero : a.fill = 0#9
  bufClear : a.buf = zeroBlock
  wholeBlocks : n % 512 = 0 ∧ n ≤ 512
  keyClear : m = .key → n = 0 ∧ a.k0 = zeroBlock ∧ a.klong = false

theorem Opened.klongTracksLen {a : Arch} {m : Mode} {n : Nat} (h : Opened a m n) : KlongTracksLen a := by
  intro _ hlong
  obtain ⟨-, hn⟩ := h.wholeBlocks
  rw [h.absorbed] at hlong
  omega

theorem hinit_opened (a : Arch) : Opened (resultRegs .hinit a) .hash 0 :=
  ⟨rfl, rfl, rfl, rfl, rfl, by decide, nofun⟩

theorem minit_opened (a : Arch) : Opened (resultRegs .minit a) .key 0 :=
  ⟨rfl, rfl, rfl, rfl, rfl, by decide, fun _ => ⟨rfl, rfl, rfl⟩⟩

theorem kend_opened {a : Arch} (herr : a.err = false) : Opened (resultRegs .kend a) .hmsg 512 := by
  obtain ⟨-, -, -, -, hsame, -⟩ := reduceLongKey_outside a
  rw [resultRegs, openKeyedHash_eq]
  exact ⟨hsame.trans herr, rfl, (rfl : (512#64).toNat = 512), rfl, rfl, by decide, nofun⟩

/-- R199: a stream after an opening. -/
theorem Opened.stream {a : Arch} {m : Mode} {n : Nat} (h : Opened a m n) (hm : m.streaming = true)
    {cmds : List Instr} (hcmds : ∀ i ∈ cmds, streamCommand i = true) (hlen : n + (messageOf cmds).length ≤ 2 ^ 64 - 1) :
    allExecute cmds a ∧ afterAll cmds a = a.pushAll (messageOf cmds) :=
  stream_after cmds h.unlocked (h.inMode ▸ hm) h.klongTracksLen hcmds (by rw [h.absorbed]; omega)

/-- R196: PUSH outside KEY mode only absorbs. -/
theorem pushAll_other (a : Arch) (s : Bits) (hm : a.mode ≠ .key) : a.pushAll s = a.absorb s := by
  obtain ⟨-, -, hmode, -⟩ := absorb_outside a s
  rw [Arch.pushAll, foldl_pushBit_other a s hm, if_neg]
  rintro ⟨hkey, -⟩
  exact hm (hmode.symm.trans hkey)

/-- R199: a stream after HINIT or KEND, as one Absorb. -/
theorem Opened.message {a : Arch} {m : Mode} {n : Nat} (h : Opened a m n) (hm : m = .hash ∨ m = .hmsg)
    {cmds : List Instr} (hcmds : ∀ i ∈ cmds, streamCommand i = true) (hlen : n + (messageOf cmds).length ≤ 2 ^ 64 - 1) :
    allExecute (cmds ++ [.final]) a ∧ afterAll (cmds ++ [.final]) a = resultRegs .final (a.absorb (messageOf cmds)) := by
  have hstream : m.streaming = true := by rcases hm with rfl | rfl <;> rfl
  have hnokey : a.mode ≠ .key := by rw [h.inMode]; rcases hm with rfl | rfl <;> nofun
  obtain ⟨hall, hafter⟩ := h.stream hstream hcmds hlen
  rw [pushAll_other _ _ hnokey] at hafter
  obtain ⟨-, -, hmode, -, -, -, herr, -⟩ := absorb_outside a (messageOf cmds)
  rw [allExecute_append, afterAll_append, hafter]
  exact ⟨⟨hall, ⟨.inl (herr.trans h.unlocked), rfl, by rw [legalNow, hmode, h.inMode]; exact hm, id⟩, trivial⟩, rfl⟩

/-- The commands of the key phase, KEND not among them. -/
theorem keyPhase_after {a : Arch} (herr : a.err = false) {keyCmds : List Instr} (hcmds : ∀ i ∈ keyCmds, streamCommand i = true)
    (hlen : (messageOf keyCmds).length ≤ 2 ^ 64 - 1) :
    allExecute (.minit :: keyCmds) a ∧
      afterAll (.minit :: keyCmds) a = (resultRegs .minit a).pushAll (messageOf keyCmds) := by
  obtain ⟨hall, hafter⟩ := (minit_opened a).stream rfl hcmds (by omega)
  exact ⟨⟨⟨.inl herr, rfl, trivial, id⟩, hall⟩, hafter⟩

/-- What the key phase leaves: LEN, K0 and KLONG hold the key. -/
theorem keyPhase_regs (a : Arch) (key : Bits) (hlen : key.length ≤ 2 ^ 64 - 1) :
    (resultRegs .minit a).pushAll key =
      { (resultRegs .minit a).absorb key with k0 := orBits zeroBlock 0 key, klong := decide (512 < key.length) } := by
  have hbound : (resultRegs .minit a).len.toNat + key.length < 2 ^ 64 := by
    rw [(minit_opened a).absorbed]
    omega
  have hmode : (resultRegs .minit a).mode = .key := rfl
  obtain ⟨-, hk0, hklong⟩ := (minit_opened a).keyClear rfl
  rw [pushAll_eq _ _ hbound, hmode, hk0, hklong, (minit_opened a).absorbed, Nat.zero_add]
  simp

/-- R222: the commands of the key phase with KEND. -/
theorem keyPhase_kend_after {a : Arch} (herr : a.err = false) {keyCmds : List Instr}
    (hcmds : ∀ i ∈ keyCmds, streamCommand i = true) (hlen : (messageOf keyCmds).length ≤ 2 ^ 64 - 1) :
    allExecute (.minit :: keyCmds ++ [.kend]) a ∧
      afterAll (.minit :: keyCmds ++ [.kend]) a =
        resultRegs .kend ((resultRegs .minit a).pushAll (messageOf keyCmds)) := by
  obtain ⟨hall, hafter⟩ := keyPhase_after herr hcmds hlen
  obtain ⟨-, hmode, -, -, herr', -⟩ := pushAll_outside (resultRegs .minit a) (messageOf keyCmds)
    (by rw [(minit_opened a).absorbed]; omega)
  rw [allExecute_append, afterAll_append, hafter]
  exact ⟨⟨hall, ⟨.inl herr', rfl, hmode, id⟩, trivial⟩, rfl⟩

/-! ### The key block (R223) and the masked keys (R225) -/

/-- 512 bits are determined by the block they fill. -/
theorem eq_of_orBits_eq {s s' : Bits} (h : s.length = 512) (h' : s'.length = 512)
    (heq : orBits zeroBlock 0 s = orBits zeroBlock 0 s') : s = s' := by
  apply List.ext_getElem (h.trans h'.symm)
  intro k hk hk'
  have hbit := congrArg (fun b => bitAt b ⟨k, by omega⟩) heq
  simpa [bitAt_orBits, hk, hk'] using hbit

/-- A block filled with 512 bits holds those bits. -/
theorem wordsBits_orBits {s : Bits} (h : s.length = 512) : wordsBits (orBits zeroBlock 0 s).toList = s :=
  eq_of_orBits_eq (by rw [wordsBits_length, Vector.length_toList]) h (orBits_wordsBits _)

/-- R223: K0 after the key has been formed is the key block. -/
theorem reduceLongKey_k0 (a : Arch) (key : Bits) (hlen : key.length ≤ 2 ^ 64 - 1) :
    ((resultRegs .minit a).pushAll key).reduceLongKey.k0 = orBits zeroBlock 0 (keyBlock key) := by
  have hpushed : ((resultRegs .minit a).pushAll key).len.toNat = key.length := by
    rw [pushAll_len _ _ (by rw [(minit_opened a).absorbed]; omega), (minit_opened a).absorbed, Nat.zero_add]
  rcases Nat.lt_or_ge 512 key.length with h | h
  · rw [reduceLongKey_long _ (hpushed ▸ h), keyBlock_long h, orBits_append, orBits_replicate_false, digestBits, orBits_words8]
    have hhash : finalChaining ((resultRegs .minit a).pushAll key) = sha256 key := by
      rw [keyPhase_regs a key hlen, ← finalise_from_start (resultRegs .minit a) key, finalise_eq]
      rfl
    rw [hhash]
  · rw [reduceLongKey_short _ (hpushed ▸ h), keyBlock_short h, orBits_append, orBits_replicate_false, keyPhase_regs a key hlen]

theorem xorBits_wordBits (x w : Word) : xorBits (wordBits x) (wordBits w) = wordBits (x ^^^ w) := by
  simp [xorBits, wordBits, beBits, List.zipWith_map, Nat.testBit_xor]

theorem xorBits_append {a b c d : Bits} (h : a.length = b.length) :
    xorBits (a ++ c) (b ++ d) = xorBits a b ++ xorBits c d := List.zipWith_append h

/-- R225: the mask of one repeated word, word by word. -/
theorem xorBits_wordsBits (ws : List Word) (w : Word) :
    xorBits (wordsBits ws) (wordsBits (List.replicate ws.length w)) = wordsBits (ws.map (· ^^^ w)) := by
  induction ws with
  | nil => rfl
  | cons x ws ih =>
    simp only [wordsBits] at ih ⊢
    rw [List.length_cons, List.replicate_succ, List.flatMap_cons, List.flatMap_cons,
      xorBits_append (by rw [wordBits_length, wordBits_length]), ih, xorBits_wordBits, List.map_cons, List.flatMap_cons]

theorem maskBlock_toList (b : Block) (w : Word) : (maskBlock b w).toList = b.toList.map (· ^^^ w) := by
  apply List.ext_getElem
  · simp
  · intro k hk hk'
    simp [maskBlock]

/-- R132: the 64 ipad bytes are 16 words. -/
theorem ipad_bits : bytesBits (List.replicate 64 Config.ipadByte) = wordsBits (List.replicate 16 ipadWord) := by
  have hbytes : List.replicate 64 Config.ipadByte = ((List.replicate 16 ipadWord).flatMap wordBytes).map BitVec.toNat := by
    decide
  rw [wordsBits_eq_bytesBits, hbytes]

/-- R133: the 64 opad bytes are 16 words. -/
theorem opad_bits : bytesBits (List.replicate 64 Config.opadByte) = wordsBits (List.replicate 16 opadWord) := by
  have hbytes : List.replicate 64 Config.opadByte = ((List.replicate 16 opadWord).flatMap wordBytes).map BitVec.toNat := by
    decide
  rw [wordsBits_eq_bytesBits, hbytes]

/-- R225: a masked block as bits. -/
theorem wordsBits_maskBlock {s : Bits} (h : s.length = 512) (w : Word) :
    wordsBits (maskBlock (orBits zeroBlock 0 s) w).toList = xorBits s (wordsBits (List.replicate 16 w)) := by
  have hmask := xorBits_wordsBits (orBits zeroBlock 0 s).toList w
  rw [Vector.length_toList, wordsBits_orBits h] at hmask
  rw [maskBlock_toList, hmask]

/-! ### The two hashes of an HMAC (R222, R224, R225) -/

/-- R222: KEND starts the inner hash from Start() and absorbs the masked key. -/
theorem kend_eq_absorb (a : Arch) :
    resultRegs .kend a =
      ({ a.reduceLongKey with mode := .hmsg } : Arch).start.absorb (wordsBits (maskBlock a.reduceLongKey.k0 ipadWord).toList) := by
  show _ = ({ a.reduceLongKey with mode := .hmsg } : Arch).openKeyedHash ipadWord
  rw [resultRegs, openKeyedHash_eq, openKeyedHash_eq]

/-- R224: the outer hash is that of the masked key and the inner digest. -/
theorem hmacFinish_h (a : Arch) :
    a.hmacFinish.h = sha256 (wordsBits (maskBlock a.k0 opadWord).toList ++ digestBits a.finalise.h) := by
  rw [hmacFinish_eq, Arch.openKeyedHash, ← absorb_append, finalise_from_start, finalise_eq]
  rfl

/-- R222: what KEND leaves in K0, HM and KLONG. -/
theorem kend_key_registers (a : Arch) :
    (resultRegs .kend a).k0 = a.reduceLongKey.k0 ∧ (resultRegs .kend a).hm = a.hm ∧ (resultRegs .kend a).klong = a.klong := by
  obtain ⟨-, hhm, hklong, -⟩ := reduceLongKey_outside a
  rw [resultRegs, openKeyedHash_eq]
  exact ⟨rfl, hhm, hklong⟩

/-- R202, R224: FINAL in HMSG mode, up to INNER and the registers of the datapath. -/
theorem final_hmsg_registers {a : Arch} (hmode : a.mode = .hmsg) :
    (resultRegs .final a).h = a.hmacFinish.h ∧ (resultRegs .final a).mode = .done ∧ (resultRegs .final a).err = a.err ∧
      (resultRegs .final a).hm = a.hm ∧ (resultRegs .final a).klong = a.klong := by
  rw [resultRegs, if_pos hmode, hmacFinish_closed]
  exact ⟨rfl, rfl, rfl, rfl, rfl⟩

/-- R202: FINAL in HASH mode, up to the registers of the datapath. -/
theorem final_hash_registers {a : Arch} (hmode : a.mode = .hash) :
    (resultRegs .final a).h = a.finalise.h ∧ (resultRegs .final a).mode = .done ∧ (resultRegs .final a).err = a.err ∧
      (resultRegs .final a).hm = a.hm ∧ (resultRegs .final a).len = a.len := by
  rw [resultRegs, if_neg (by rw [hmode]; nofun), finalise_eq]
  exact ⟨rfl, rfl, rfl, rfl, rfl⟩

/-- R203: RDDIG after FINAL reads the digest. -/
theorem rddig_reads {t : State} (herr : t.arch.err = false) (hdone : t.arch.mode = .done) {d : Words8} (hd : t.arch.h = d)
    (i : Fin 8) : exec (.rddig i) t = answers t t.arch (readResponse d[i]) := by
  rw [(rddig_guardedBySeq i).exec_of_legalNow herr hdone, respond_eq, hd]

/-- R225, R226: H after the key phase, KEND, the message and FINAL. -/
theorem hmac_of_key_and_message (a : Arch) (key msg : Bits) (hlen : key.length ≤ 2 ^ 64 - 1) :
    ((resultRegs .kend ((resultRegs .minit a).pushAll key)).absorb msg).hmacFinish.h = hmacSha256 msg key := by
  have hk0 := reduceLongKey_k0 a key hlen
  have hblock := keyBlock_length key
  have hinner : ((resultRegs .kend ((resultRegs .minit a).pushAll key)).absorb msg).finalise.h =
      sha256 (xorBits (keyBlock key) (bytesBits (List.replicate 64 Config.ipadByte)) ++ msg) := by
    rw [kend_eq_absorb, ← absorb_append, finalise_from_start, hk0, wordsBits_maskBlock hblock, ipad_bits]
  have hkept : ((resultRegs .kend ((resultRegs .minit a).pushAll key)).absorb msg).k0 = orBits zeroBlock 0 (keyBlock key) := by
    obtain ⟨hsame, -⟩ := absorb_outside (resultRegs .kend ((resultRegs .minit a).pushAll key)) msg
    obtain ⟨hk0', -⟩ := kend_key_registers ((resultRegs .minit a).pushAll key)
    rw [hsame, hk0', hk0]
  rw [hmacFinish_h, hinner, hkept, wordsBits_maskBlock hblock, ← opad_bits]
  rfl

/-! ### What an open stream holds (R38 items 5 and 6) -/

/-- The bits that a stream of whole blocks and a rest leaves in BUF. -/
theorem rest_of_stream (s : Bits) (p : Nat) :
    s.getD (512 * (s.length / 512) + p) false =
      (decide (p < s.length % 512) && s.getD (s.length - s.length % 512 + p) false) := by
  have hsplit : 512 * (s.length / 512) = s.length - s.length % 512 := by omega
  rw [hsplit]
  by_cases hp : p < s.length % 512
  · simp [hp]
  · have hout : s.length ≤ s.length - s.length % 512 + p := by omega
    simp [hp, List.getD_eq_getElem?_getD, List.getElem?_eq_none hout]

/-- R38 item 5: the counters after a stream. -/
theorem Opened.counters {a : Arch} {m : Mode} {n : Nat} (h : Opened a m n) {s : Bits} (hlen : n + s.length ≤ 2 ^ 64 - 1) :
    (a.pushAll s).len.toNat = n + s.length ∧ (a.pushAll s).fill.toNat = s.length % 512 := by
  have hbound : a.len.toNat + s.length < 2 ^ 64 := by rw [h.absorbed]; omega
  refine ⟨by rw [pushAll_len a s hbound, h.absorbed], ?_⟩
  rw [pushAll_fill a s hbound, h.fillZero]
  simp

/-- R38 item 5: BUF after a stream. -/
theorem Opened.buffer {a : Arch} {m : Mode} {n : Nat} (h : Opened a m n) {s : Bits} (hlen : n + s.length ≤ 2 ^ 64 - 1)
    (p : Fin 512) : bitAt (a.pushAll s).buf p = s.getD (512 * (s.length / 512) + p.val) false := by
  rw [pushAll_eq a s (by rw [h.absorbed]; omega)]
  exact bitAt_absorb_from_empty a s h.fillZero h.bufClear p

/-- R38 item 6: K0 and KLONG after the key phase. -/
theorem Opened.keyCaptured {a : Arch} {n : Nat} (h : Opened a .key n) {s : Bits} (hlen : n + s.length ≤ 2 ^ 64 - 1) :
    (∀ p : Fin 512, bitAt (a.pushAll s).k0 p = s.getD p.val false) ∧ (a.pushAll s).klong = decide (512 < s.length) := by
  obtain ⟨hn, hk0, hklong⟩ := h.keyClear rfl
  rw [pushAll_eq a s (by rw [h.absorbed]; omega), h.inMode, hk0, hklong, h.absorbed, hn]
  refine ⟨fun p => ?_, by simp⟩
  show bitAt (orBits zeroBlock 0 s) p = _
  simp [bitAt_orBits, List.getD_eq_getElem?_getD]

/-! ### The obligations -/

/-- Settles O44: the stream leaves what one Absorb of the message does, from Start() on, and FINAL finishes it. -/
theorem streamedMessageHashesToSha256 : Obligations.StreamedMessageHashesToSha256 := by
  intro s cmds rest herr hcmds hlen hin
  have hopened := hinit_opened s.arch
  obtain ⟨hall, hafter⟩ := hopened.message (.inl rfl) hcmds (by omega)
  rw [List.cons_append] at hin
  obtain ⟨t, hrun, harch, hrest⟩ := run_issue (.hinit :: (cmds ++ [.final])) ⟨⟨.inl herr, rfl, trivial, id⟩, hall⟩ hin
  rw [afterAll_cons, hafter] at harch
  rw [List.length_cons, List.length_append, List.length_singleton] at hrun
  obtain ⟨-, -, hmode, hhm, -, -, herr', -⟩ := absorb_outside (resultRegs .hinit s.arch) (messageOf cmds)
  obtain ⟨hh, hdone, hsameErr, hsameHm, hsameLen⟩ := final_hash_registers (hmode.trans hopened.inMode)
  rw [← harch] at hh hdone hsameErr hsameHm hsameLen
  have hdigest : t.arch.h = sha256 (messageOf cmds) := hh.trans (finalise_from_start (resultRegs .hinit s.arch) _)
  refine ⟨t, hrun, hrest, hdone, hdigest, hsameHm.trans hhm, ?_,
    rddig_reads (hsameErr.trans (herr'.trans hopened.unlocked)) hdone hdigest⟩
  rw [hsameLen, absorb_len, toNat_add_ofNat _ (by rw [hopened.absorbed]; omega), hopened.absorbed, Nat.zero_add]

/-- Settles O45: the inner hash is one stream after the masked key, and FINAL hashes its digest after the other mask. -/
theorem streamedKeyAndMessageGiveTheHmac : Obligations.StreamedKeyAndMessageGiveTheHmac := by
  intro s keyCmds msgCmds rest herr hkey hmsg hkeyLen hmsgLen hin
  have hregroup : Instr.minit :: keyCmds ++ .kend :: msgCmds ++ [.final] =
      (.minit :: keyCmds ++ [.kend]) ++ (msgCmds ++ [.final]) := by simp
  rw [hregroup] at hin
  obtain ⟨hkeyEx, hkeyAfter⟩ := keyPhase_kend_after herr hkey hkeyLen
  have hkeyRegs := keyPhase_regs s.arch (messageOf keyCmds) hkeyLen
  obtain ⟨-, -, -, hkeyHm, -, -, hkeyErr, -⟩ := absorb_outside (resultRegs .minit s.arch) (messageOf keyCmds)
  have hopened := kend_opened (a := (resultRegs .minit s.arch).pushAll (messageOf keyCmds)) (by rw [hkeyRegs]; exact hkeyErr)
  obtain ⟨hmsgEx, hmsgAfter⟩ := hopened.message (.inr rfl) hmsg (by omega)
  obtain ⟨t, hrun, harch, hrest⟩ := run_issue _ ((allExecute_append _ _ _).mpr ⟨hkeyEx, hkeyAfter ▸ hmsgEx⟩) hin
  have hcount : (Instr.minit :: keyCmds ++ [Instr.kend] ++ (msgCmds ++ [Instr.final])).length = keyCmds.length + msgCmds.length + 3 := by
    simp only [List.length_append, List.length_cons, List.length_nil]
    omega
  rw [hcount] at hrun
  rw [afterAll_append, hkeyAfter, hmsgAfter] at harch
  obtain ⟨-, hkendHm, hkendKlong⟩ := kend_key_registers ((resultRegs .minit s.arch).pushAll (messageOf keyCmds))
  obtain ⟨-, -, hmode, hhm, hklong, -, herr', -⟩ :=
    absorb_outside (resultRegs .kend ((resultRegs .minit s.arch).pushAll (messageOf keyCmds))) (messageOf msgCmds)
  obtain ⟨hh, hdone, hsameErr, hsameHm, hsameKlong⟩ := final_hmsg_registers (hmode.trans hopened.inMode)
  rw [← harch] at hh hdone hsameErr hsameHm hsameKlong
  have hmac : t.arch.h = hmacSha256 (messageOf msgCmds) (messageOf keyCmds) :=
    hh.trans (hmac_of_key_and_message s.arch _ _ hkeyLen)
  refine ⟨t, hrun, hrest, hdone, ?_, ?_, hmac, rddig_reads (hsameErr.trans (herr'.trans hopened.unlocked)) hdone hmac⟩
  · rw [hsameHm, hhm, hkendHm, hkeyRegs]
    exact hkeyHm
  · rw [hsameKlong, hklong, hkendKlong, hkeyRegs]

/-- Settles O46: each opening leaves an empty block, and a stream after it is one PUSH of its bits. -/
theorem openStreamHoldsItsBits : Obligations.OpenStreamHoldsItsBits := by
  intro s opening cmds mode base rest herr hopening hcmds hlen hin
  obtain ⟨hex, hopened, hstream⟩ : allExecute opening s.arch ∧ Opened (afterAll opening s.arch) mode base ∧ mode.streaming = true := by
    rcases hopening with ⟨rfl, rfl, rfl⟩ | ⟨rfl, rfl, rfl⟩ | ⟨keyCmds, hkey, hkeyLen, rfl, rfl, rfl⟩
    · exact ⟨⟨⟨.inl herr, rfl, trivial, id⟩, trivial⟩, hinit_opened s.arch, rfl⟩
    · exact ⟨⟨⟨.inl herr, rfl, trivial, id⟩, trivial⟩, minit_opened s.arch, rfl⟩
    · obtain ⟨hall, hafter⟩ := keyPhase_kend_after herr hkey hkeyLen
      obtain ⟨-, -, -, -, herr', -⟩ := pushAll_outside (resultRegs .minit s.arch) (messageOf keyCmds)
        (by rw [(minit_opened s.arch).absorbed]; omega)
      exact ⟨hall, hafter ▸ kend_opened herr', rfl⟩
  obtain ⟨hall, hafter⟩ := hopened.stream hstream hcmds hlen
  obtain ⟨t, hrun, harch, hrest⟩ := run_issue (opening ++ cmds) ((allExecute_append _ _ _).mpr ⟨hex, hall⟩) hin
  rw [afterAll_append, hafter] at harch
  obtain ⟨-, hmode, -, -, herr', -⟩ := pushAll_outside (afterAll opening s.arch) (messageOf cmds)
    (by rw [hopened.absorbed]; omega)
  obtain ⟨hcount, hfill⟩ := hopened.counters hlen
  obtain ⟨hwhole, -⟩ := hopened.wholeBlocks
  refine ⟨t, hrun, hrest, ?_⟩
  rw [harch]
  refine ⟨hmode.trans hopened.inMode, herr'.trans hopened.unlocked, hcount, by rw [hfill, hcount]; omega, fun p => ?_, ?_⟩
  · rw [hopened.buffer hlen, hfill, rest_of_stream]
  · rintro rfl
    exact hopened.keyCaptured hlen

end Sys2Proof.Machine
